-- ==== Sys2Proof/Word.lean ====
section
/-! DEFINITION. The word types of the bus-master transaction engine. -/

namespace Sys2Proof

/-- One byte, the unit of every transfer (20_memory.md R64). -/
abbrev Byte := BitVec 8

/-- A command or response word, transferred whole (30_encoding.md R85, 20_memory.md R65). -/
abbrev Word := BitVec 32

end Sys2Proof
end

