-- ==== Sys2Proof/Syntax.lean ====
section
/-! DEFINITION. The host commands: one constructor per row of spec/opcode_table.json. -/

namespace Sys2Proof

/-- The nine commands of the opcode map (30_encoding.md R91), each with the operand fields its row
uses (R86 to R89). Fields a row ignores are no operands (R95). `addr` is the whole 10-bit field;
what of it is used is decided by `ADDR_W` (R90). -/
inductive Instr where
  /-- `INIT timing` (40_start.md R110). -/
  | init (timing : BitVec 16)
  /-- `START.W addr, wlen` (40_start.md R113). -/
  | startW (addr : BitVec 10) (wlen : BitVec 8)
  /-- `START.R addr, rlen` (40_start.md R114). -/
  | startR (addr : BitVec 10) (rlen : BitVec 8)
  /-- `START.WR addr, wlen, rlen` (40_start.md R115). -/
  | startWR (addr : BitVec 10) (wlen rlen : BitVec 8)
  /-- `XFER wlen` (40_start.md R116). -/
  | xfer (wlen : BitVec 8)
  /-- `GETSTATUS` (41_status_ack_buffers.md R130). -/
  | getStatus
  /-- `ACKIDLE` (41_status_ack_buffers.md R132). -/
  | ackIdle
  /-- `WRBUF index, data` (41_status_ack_buffers.md R134). -/
  | wrBuf (index : BitVec 8) (data : Byte)
  /-- `RDBUF index` (41_status_ack_buffers.md R136). -/
  | rdBuf (index : BitVec 8)
  deriving DecidableEq, Repr

/-- The mnemonic of a command, as spec/opcode_table.json spells it. -/
def Instr.mnemonic : Instr → String
  | .init _ => "INIT"
  | .startW _ _ => "START.W"
  | .startR _ _ => "START.R"
  | .startWR _ _ _ => "START.WR"
  | .xfer _ => "XFER"
  | .getStatus => "GETSTATUS"
  | .ackIdle => "ACKIDLE"
  | .wrBuf _ _ => "WRBUF"
  | .rdBuf _ => "RDBUF"

end Sys2Proof
end

