-- ==== Sys2Proof/Decode.lean ====
section
/-! DEFINITION. Decoding a command word, the opcode table as data, and the encoder. -/

namespace Sys2Proof

/-- Why a word selects no row of the opcode map (30_encoding.md R94). -/
inductive Reserved where
  /-- `op` is 0x0 or 0x8 to 0xF. -/
  | opcode (op : BitVec 4)
  /-- `op = 0x2` with `dir = 3`. -/
  | direction
  deriving DecidableEq, Repr

/-- What a command word is: a command, or a reserved word. -/
inductive Decoded where
  | instr (i : Instr)
  | reserved (why : Reserved)
  deriving DecidableEq, Repr

/-- `op = w[31:28]` (30_encoding.md R85). -/
def opField (w : Word) : BitVec 4 := w.extractLsb' 28 4

/-- `dir = w[27:26]` (30_encoding.md R86). -/
def dirField (w : Word) : BitVec 2 := w.extractLsb' 26 2

/-- `wlen = w[25:18]` (30_encoding.md R86). -/
def wlenField (w : Word) : BitVec 8 := w.extractLsb' 18 8

/-- `rlen = w[17:10]` (30_encoding.md R86). -/
def rlenField (w : Word) : BitVec 8 := w.extractLsb' 10 8

/-- `addr = w[9:0]` (30_encoding.md R86). -/
def addrField (w : Word) : BitVec 10 := w.extractLsb' 0 10

/-- `timing = w[15:0]` (30_encoding.md R87). -/
def timingField (w : Word) : BitVec 16 := w.extractLsb' 0 16

/-- `index = w[15:8]` (30_encoding.md R89). -/
def indexField (w : Word) : BitVec 8 := w.extractLsb' 8 8

/-- `data = w[7:0]` (30_encoding.md R89). -/
def dataField (w : Word) : Byte := w.extractLsb' 0 8

/-- Format `S` with `op = 0x2`: `dir` selects the start command, 3 is reserved
(30_encoding.md R86, R94). -/
def decodeStart (w : Word) : Decoded :=
  match dirField w with
  | 0#2 => .instr (.startW (addrField w) (wlenField w))
  | 1#2 => .instr (.startR (addrField w) (rlenField w))
  | 2#2 => .instr (.startWR (addrField w) (wlenField w) (rlenField w))
  | _ => .reserved .direction

/-- The complete opcode map (30_encoding.md R85, R91, R94), total on all words. -/
def decode (w : Word) : Decoded :=
  match opField w with
  | 1#4 => .instr (.init (timingField w))
  | 2#4 => decodeStart w
  | 3#4 => .instr (.xfer (wlenField w))
  | 4#4 => .instr .getStatus
  | 5#4 => .instr .ackIdle
  | 6#4 => .instr (.wrBuf (indexField w) (dataField w))
  | 7#4 => .instr (.rdBuf (indexField w))
  | op => .reserved (.opcode op)

/-- The decoder on a word given as a number of `nbits` bits: bits above `nbits` are 0, and a number
that is no 32-bit word is no command (30_encoding.md R85: one length only). -/
def decodeTableWord (nbits w : Nat) : Option Instr :=
  if w % 2 ^ nbits < 2 ^ 32 then
    match decode (BitVec.ofNat 32 (w % 2 ^ nbits)) with
    | .instr i => some i
    | .reserved _ => none
  else none

/-- The word of a command, from the formats of 30_encoding.md R86 to R89; ignored bits are 0. -/
def encode : Instr → Word
  | .init t => 0x1#4 ++ 0#12 ++ t
  | .startW a wl => 0x2#4 ++ 0#2 ++ wl ++ 0#8 ++ a
  | .startR a rl => 0x2#4 ++ 1#2 ++ 0#8 ++ rl ++ a
  | .startWR a wl rl => 0x2#4 ++ 2#2 ++ wl ++ rl ++ a
  | .xfer wl => 0x3#4 ++ 0#2 ++ wl ++ 0#18
  | .getStatus => 0x4#4 ++ 0#28
  | .ackIdle => 0x5#4 ++ 0#28
  | .wrBuf i d => 0x6#4 ++ 0#12 ++ i ++ d
  | .rdBuf i => 0x7#4 ++ 0#12 ++ i ++ 0#8

/-- The bits of a command's word that are not ignored: the row's fixed bits and its operand fields
(30_encoding.md R86 to R89, R95). -/
def significantBits : Instr → Word
  | .init _ => 0xF000FFFF#32
  | .startW _ _ => 0xFFFC03FF#32
  | .startR _ _ => 0xFC03FFFF#32
  | .startWR _ _ _ => 0xFFFFFFFF#32
  | .xfer _ => 0xF3FC0000#32
  | .getStatus => 0xF0000000#32
  | .ackIdle => 0xF0000000#32
  | .wrBuf _ _ => 0xF000FFFF#32
  | .rdBuf _ => 0xF000FF00#32

/-- One row of the opcode map: a word `w` selects it when `w & mask = pattern`
(30_encoding.md R91, whose column `match` is `pattern` here). -/
structure Row where
  mnemonic : String
  pattern  : Word
  mask     : Word
  deriving DecidableEq, Repr

/-- The opcode map as the spec lists it (30_encoding.md R91). -/
def opcodeTable : List Row :=
  [ { mnemonic := "INIT", pattern := 0x10000000#32, mask := 0xF0000000#32 },
    { mnemonic := "START.W", pattern := 0x20000000#32, mask := 0xFC000000#32 },
    { mnemonic := "START.R", pattern := 0x24000000#32, mask := 0xFC000000#32 },
    { mnemonic := "START.WR", pattern := 0x28000000#32, mask := 0xFC000000#32 },
    { mnemonic := "XFER", pattern := 0x30000000#32, mask := 0xF0000000#32 },
    { mnemonic := "GETSTATUS", pattern := 0x40000000#32, mask := 0xF0000000#32 },
    { mnemonic := "ACKIDLE", pattern := 0x50000000#32, mask := 0xF0000000#32 },
    { mnemonic := "WRBUF", pattern := 0x60000000#32, mask := 0xF0000000#32 },
    { mnemonic := "RDBUF", pattern := 0x70000000#32, mask := 0xF0000000#32 } ]

end Sys2Proof
end

