-- ==== Sys2Proof/Config.lean ====
section
/-! DEFINITION. The implementation parameters of one instance (00_scope.md R8) and the free
values. -/

namespace Sys2Proof

/-- The instance kind `BUS` (00_scope.md R1, R8): two-wire or four-wire. -/
inductive BusKind where
  | tw
  | fw
  deriving DecidableEq, Repr

/-- The parameters of one instance (00_scope.md R8), fixed for the instance. The widths `LEN_W`,
`REM_W` and `TIMING_W` of the same rule are the widths of the types of State. -/
structure Params where
  bus     : BusKind
  /-- `DEPTH`, entries of each hardware FIFO. Log entry 25. -/
  depth   : Nat
  /-- `FW_CAP`, capacity of each software buffer of an `FW` instance. -/
  fwCap   : Nat
  /-- `ADDR_W`, width of the peer address. -/
  addrW   : Nat
  /-- `BASE`, address of the host port; OPEN. -/
  base    : Nat
  /-- `ENV_FAIR`, whether the adapter's environment steps are weakly fair; OPEN, read by no step,
  a premise of liveness claims (70_reset_and_hazards.md R257). Log entry 18. -/
  envFair : Bool
  deriving DecidableEq, Repr

/-- `TW_CAP`, capacity of each software buffer of a `TW` instance: `DEPTH` (00_scope.md R8). -/
def Params.twCap (p : Params) : Nat := p.depth

/-- `CAP` (00_scope.md R8): `TW_CAP` on `TW`, `FW_CAP` on `FW`. -/
def Params.cap (p : Params) : Nat :=
  match p.bus with
  | .tw => p.twCap
  | .fw => p.fwCap

/-- The default parameters (00_scope.md R8) of an instance of a given kind.
DESIGN CHOICE (unsafe): `BASE` and `ENV_FAIR` are OPEN in the spec; `BASE` is 0 and no fairness is
assumed here. Log entries 3 and 18. -/
def Params.default (bus : BusKind) : Params :=
  { bus := bus, depth := 16, fwCap := 64, addrW := 7, base := 0, envFair := false }

/-- The free byte at a position of the instance whose host port stands at a base address: what a
byte is that the spec calls unspecified (20_memory.md R62, 41_status_ack_buffers.md R136). No body:
no proof can know its value (log entries 4 and 5).
DESIGN CHOICE (unsafe for a claim that compares two states): two states with the same `BASE` at the
same position draw the same byte, which no rule of the spec says; instances with different `BASE`
draw unrelated bytes. Log entry 24. -/
opaque Config.freeByte : Nat → Nat → Byte

end Sys2Proof
end

