-- ==== Sys2Proof/Machine/State.lean ====
section
/-! DEFINITION. The state of one instance, all of it plain data, its reset value, and the reasons a
step can stop. -/

namespace Sys2Proof.Machine

/-- BusStatus (10_state.md R20), a 2-bit register with four legal codes (30_encoding.md R93). -/
inductive BusStatus where
  | idle
  | inProgress
  | finished
  | error
  deriving DecidableEq, Repr

/-- The direction of a transaction (10_state.md R26); code 3 is never stored. -/
inductive Direction where
  | write
  | read
  | writeThenRead
  deriving DecidableEq, Repr

/-- The wire phase `hw.wp` of the `TW` adapter (10_state.md R38). -/
inductive WirePhase where
  | idle
  | data
  | hold
  deriving DecidableEq, Repr

/-- The events of the ghost `wireLog` (10_state.md R52). `rw` is true for `R` (`hw.rxMode = 1`),
`ack` is true for `A`. -/
inductive WireEvent where
  /-- `S(addr, rw, ack)`: start condition plus address. -/
  | start (addr : BitVec 10) (rw ack : Bool)
  /-- `Sr(addr, rw, ack)`: repeated start plus address. -/
  | repeatedStart (addr : BitVec 10) (rw ack : Bool)
  /-- `T(byte, ack)`: byte transmitted on `TW`. -/
  | transmitted (b : Byte) (ack : Bool)
  /-- `R(byte)`: byte received on `TW`. -/
  | received (b : Byte)
  /-- `P`: stop condition. -/
  | stop
  /-- `X(txByte, rxByte)`: one full-duplex exchange on `FW`. -/
  | exchanged (tx rx : Byte)
  /-- `CS(1)`, `CS(0)`: peer select asserted, de-asserted. -/
  | peerSelect (asserted : Bool)
  deriving DecidableEq, Repr

/-- The environment's steps with their draws (44_adapter_contract.md R183): `ack`, `t`, `b`,
`linger`. No law constrains a draw. -/
inductive EnvStep where
  /-- `ENV START(ack, t)` (R184). -/
  | start (ack t : Bool)
  /-- `ENV TX(ack)` (R186). -/
  | tx (ack : Bool)
  /-- `ENV RX(b)` (R187). -/
  | rx (b : Byte)
  /-- `ENV END` (R188) and `ENV END(linger)` (R189); without automatic stop `linger` is not read. -/
  | phaseEnd (linger : Bool)
  /-- `ENV STOP(linger)` (R190). -/
  | stop (linger : Bool)
  /-- `ENV BUSYREL` (R191). -/
  | busyRel
  /-- `ENV XCHG(b)` (R193). -/
  | xchg (b : Byte)
  deriving DecidableEq, Repr

/-- One turn of one agent (00_scope.md R11, 20_memory.md R72): what the outside world or the
scheduler offers next. The order is not determined (R73), so it is data of State.
DESIGN CHOICE (safe). Log entries 1 and 2. -/
inductive Turn where
  /-- The host writes a word to an address (20_memory.md R70). -/
  | hostWrite (addr : Nat) (w : Word)
  /-- The host reads a word from an address (20_memory.md R70). -/
  | hostRead (addr : Nat)
  /-- The background agent: one `SERVICE` invocation. -/
  | service
  /-- The environment: one event with its draws. -/
  | env (e : EnvStep)
  deriving DecidableEq, Repr

/-- A byte space as (index, byte) pairs. An index not listed holds no value (20_memory.md R62). -/
abbrev Memory := List Host.Cell

/-- The interface state of the Hardware FIFO Adapter, the `hw.` registers (10_state.md R32, R36 to
R39). On `FW` only the two FIFOs exist; the other fields stay at reset (log entry 11). -/
structure Adapter where
  addr     : BitVec 10
  rxMode   : Bool
  count    : BitVec 8
  autoStop : Bool
  startReq : Bool
  stopReq  : Bool
  busy     : Bool
  nack     : Bool
  tc       : Bool
  stopDet  : Bool
  txFifo   : List Byte
  rxFifo   : List Byte
  wp       : WirePhase
  deriving DecidableEq, Repr

/-- Everything the spec gives one instance (10_state.md, 20_memory.md R60, R70), and the model's own
fields `params`, `agenda`, `draws`, `hostData`. INVENTORY.md lists each with its rule. -/
structure State where
  /-- The instance's configuration (00_scope.md R8); no step changes it. -/
  params            : Params
  initDone          : Bool
  timing            : BitVec 16
  status            : BusStatus
  peerAddress       : BitVec 10
  direction         : Direction
  writeLength       : BitVec 8
  readLength        : BitVec 8
  nextWriteIndex    : BitVec 8
  nextReadIndex     : BitVec 8
  bytesRemaining    : BitVec 9
  pendingReadLength : BitVec 8
  errLatched        : Bool
  stopIssued        : Bool
  ieNack            : Bool
  ieTc              : Bool
  ieStop            : Bool
  ieRx              : Bool
  rxThreshold       : BitVec 5
  cs                : Bool
  /-- `writeBuffer`, the space `WBUF`. -/
  wbuf              : Memory
  /-- `readBuffer`, the space `RBUF`. -/
  rbuf              : Memory
  hw                : Adapter
  /-- The register `RSP` of the host port (20_memory.md R70). -/
  rsp               : Word
  /-- Ghost (10_state.md R52), oldest event first. -/
  wireLog           : List WireEvent
  /-- Ghost (10_state.md R52). -/
  stopCount         : Nat
  /-- Ghost (10_state.md R52). -/
  fillRounds        : Nat
  /-- The model's own: the turns still to come. Log entry 1. -/
  agenda            : List Turn
  /-- The model's own: the position of the next free byte. Log entry 6. -/
  draws             : Nat
  /-- The model's own: the word the host port delivered at the host's last read. Log entry 7. -/
  hostData          : Word
  deriving DecidableEq, Repr

/-- Why a step stops with a fault. The spec's block raises none (60_exceptions.md R210); these are
the model's own, for accesses to what the spec says does not exist. -/
inductive Fault where
  /-- Raised by a host access to an address of no port register: nothing else of an address map
  exists (20_memory.md R70). Safe: the model stops. Log entry 10. -/
  | unmappedAddress (addr : Nat)
  /-- Raised by a host read of `CMD`, which is write-only (20_memory.md R70). Safe. Log entry 10. -/
  | readOfWriteOnly
  /-- Raised by a host write of `RSP`, which is read-only (20_memory.md R70). Safe. Log entry 10. -/
  | writeOfReadOnly
  /-- Raised by `SERVICE` where it would form a buffer index of `CAP` or more, which the engine
  never does from a reachable state (20_memory.md R66). Safe. Log entry 9. -/
  | bufferIndexOutOfRange
  deriving DecidableEq, Repr

/-- Why a step refuses. -/
inductive Refusal where
  /-- Raised by an arm of `exec` whose command has no meaning yet; no arm does. Safe. -/
  | notModelled (mnemonic : String)
  deriving DecidableEq, Repr

/-- The reset values of the adapter interface (10_state.md R53). -/
def Adapter.reset : Adapter :=
  { addr := 0, rxMode := false, count := 0, autoStop := false, startReq := false,
    stopReq := false, busy := false, nack := false, tc := false, stopDet := false,
    txFifo := [], rxFifo := [], wp := .idle }

/-- The state of an instance with given parameters right after hardware reset
(10_state.md R53, 70_reset_and_hazards.md R240). The model's own `draws` starts at 0 in every
instance; that two instances with the same `BASE` then draw the same free bytes is the model's
choice. DESIGN CHOICE (unsafe for a claim that compares two states). Log entry 24. -/
def State.resetWith (p : Params) : State :=
  { params := p, initDone := false, timing := 0, status := .idle,
    peerAddress := 0, direction := .write, writeLength := 0, readLength := 0,
    nextWriteIndex := 0, nextReadIndex := 0, bytesRemaining := 0, pendingReadLength := 0,
    errLatched := false, stopIssued := false,
    ieNack := false, ieTc := false, ieStop := false, ieRx := false,
    rxThreshold := 0, cs := false, wbuf := [], rbuf := [], hw := Adapter.reset, rsp := 0,
    wireLog := [], stopCount := 0, fillRounds := 0, agenda := [], draws := 0, hostData := 0 }

/-- The machine right after reset, a `TW` instance with the default parameters.
DESIGN CHOICE (unsafe): the kind is chosen per instance in the spec. Log entry 3. -/
def State.reset : State := State.resetWith (Params.default .tw)

end Sys2Proof.Machine
end

