-- ==== Sys2Proof/Machine/Ops.lean ====
section
/-! DEFINITION. The named operations over memory, the FIFOs, the cursor and the response register.
The block raises no exception and has no return from one (60_exceptions.md R210, R221, R222);
`reject`, the RejectedRequest outcome, stands in their place. -/

namespace Sys2Proof.Machine

/-- The answer of a step of this machine. -/
abbrev Result := Host.Outcome State Fault Refusal

/-- The canonical form of a byte space: indices strictly rising. An unlisted index holds no value,
so no listed byte can equal what an unlisted index reads as (20_memory.md R62). -/
abbrev Memory.wf (m : Memory) : Prop := (m.map Prod.fst).Pairwise (· < ·)

/-- Every listed index lies in 0 to `cap`-1 (20_memory.md R60). -/
abbrev Memory.within (m : Memory) (cap : Nat) : Prop := ∀ a ∈ m.map Prod.fst, a < cap

/-- `MemRead`: the byte at an index, or none where nothing has been written
(00_scope.md R10, 20_memory.md R62). -/
def Memory.read : Memory → Nat → Option Byte
  | [], _ => none
  | (b, v) :: m, a => if a = b then some v else Memory.read m a

/-- `MemWrite`: store one byte at an index (00_scope.md R10). -/
def Memory.write : Memory → Nat → Byte → Memory
  | [], a, v => [(a, v)]
  | (b, u) :: m, a, v =>
    if a < b then (a, v) :: (b, u) :: m
    else if a = b then (a, v) :: m
    else (b, u) :: Memory.write m a v

/-- The free byte an instance draws next (20_memory.md R62). Log entries 22 and 24. -/
def State.nextFreeByte (s : State) : Byte := Config.freeByte s.params.base s.draws

/-- The byte read at an index, a given free byte where nothing has been written
(20_memory.md R62, 93_implementation_defined.md U6). Log entry 4. -/
def Memory.sample (m : Memory) (a : Nat) (free : Byte) : Byte :=
  match m.read a with
  | some b => b
  | none => free

/-- `respond v`: end the command with a response word (00_scope.md R10), left in `RSP`
(20_memory.md R70). -/
def respond (v : Word) (s : State) : Result := .next { s with rsp := v }

/-- `reject`: response 0 and no other change, the RejectedRequest outcome (00_scope.md R10,
60_exceptions.md R211). -/
def reject (s : State) : Result := respond 0#32 s

/-- One round of a fill: push the write-buffer byte at `nextWriteIndex` and move the cursor
(40_start.md R112 A9, 42_service_tw.md R150). One free-byte position passes with every push. -/
def State.pushNext (s : State) : State :=
  { s with
    hw := { s.hw with
      txFifo := s.hw.txFifo ++ [s.wbuf.sample s.nextWriteIndex.toNat s.nextFreeByte] }
    nextWriteIndex := s.nextWriteIndex + 1
    bytesRemaining := s.bytesRemaining - 1
    draws := s.draws + 1 }

/-- `repeat k times` the push of a fill. -/
def State.pushMany : Nat → State → State
  | 0, s => s
  | k + 1, s => State.pushMany k s.pushNext

/-- A fill of `k` bytes; a fill that pushes at least one byte is a fill round
(40_start.md R112 A9, 10_state.md R52). -/
def State.fill (k : Nat) (s : State) : State :=
  let s' := s.pushMany k
  if 0 < k then { s' with fillRounds := s'.fillRounds + 1 } else s'

/-- One round of a drain: pop the receive FIFO into the read buffer at `nextReadIndex` and move the
cursor (42_service_tw.md R149). With an empty FIFO there is nothing to pop. -/
def State.popNext (s : State) : State :=
  match s.hw.rxFifo with
  | [] => s
  | b :: rest =>
    { s with
      hw := { s.hw with rxFifo := rest }
      rbuf := s.rbuf.write s.nextReadIndex.toNat b
      nextReadIndex := s.nextReadIndex + 1
      bytesRemaining := s.bytesRemaining - 1 }

/-- `repeat p times` the pop of a drain. -/
def State.popMany : Nat → State → State
  | 0, s => s
  | p + 1, s => State.popMany p s.popNext

/-- How many bytes a drain pops: `min(len(hw.rxFifo), readLength - nextReadIndex)`
(42_service_tw.md R149, 43_service_fw.md R166). -/
def State.drainCount (s : State) : Nat :=
  min s.hw.rxFifo.length (s.readLength.toNat - s.nextReadIndex.toNat)

/-- How many bytes a fill pushes: `min(writeLength - nextWriteIndex, DEPTH - len(hw.txFifo))`
(40_start.md R112 A9, 42_service_tw.md R150). -/
def State.fillCount (s : State) : Nat :=
  min (s.writeLength.toNat - s.nextWriteIndex.toNat) (s.params.depth - s.hw.txFifo.length)

/-- Whether the indices that a drain of `p` and a fill of `k` bytes form lie below `CAP`
(20_memory.md R66). -/
def State.indicesInRange (s : State) (p k : Nat) : Bool :=
  (p == 0 || decide (s.nextReadIndex.toNat + p ≤ s.params.cap)) &&
    (k == 0 || decide (s.nextWriteIndex.toNat + k ≤ s.params.cap))

/-- `log e`: append an event to the ghost `wireLog` (00_scope.md R10). -/
def State.log (e : WireEvent) (s : State) : State := { s with wireLog := s.wireLog ++ [e] }

/-- All four interrupt enables off, as completion and `INIT` do (10_state.md R33). -/
def State.disableSources (s : State) : State :=
  { s with ieNack := false, ieTc := false, ieStop := false, ieRx := false }

end Sys2Proof.Machine
end

