-- ==== Sys2Proof/Machine/Operands.lean ====
section
/-! DEFINITION. The operand forms: lengths, the peer address, indices, enumeration codes. -/

namespace Sys2Proof.Machine

/-- `a = w[ADDR_W-1:0]`: the address field with the bits above `ADDR_W` dropped
(30_encoding.md R90, 40_start.md R111). -/
def truncateAddress (p : Params) (addr : BitVec 10) : BitVec 10 :=
  BitVec.ofNat 10 (addr.toNat % 2 ^ p.addrW)

/-- `1 <= n <= CAP`, as unsigned 8-bit numbers (30_encoding.md R90, 40_start.md R111 V4, V5). -/
abbrev lengthInBounds (p : Params) (n : BitVec 8) : Prop := 1 ≤ n.toNat ∧ n.toNat ≤ p.cap

/-- A buffer index in 0 to `CAP`-1 (20_memory.md R66). -/
abbrev indexInBounds (p : Params) (i : BitVec 8) : Prop := i.toNat < p.cap

/-- Whether a direction uses its write length (40_start.md R111 V4). -/
def Direction.usesWriteLength : Direction → Bool
  | .write => true
  | .read => false
  | .writeThenRead => true

/-- Whether a direction uses its read length (40_start.md R111 V5). -/
def Direction.usesReadLength : Direction → Bool
  | .write => false
  | .read => true
  | .writeThenRead => true

/-- The write length a start stores: 0 where the direction does not use it (40_start.md R112 A4). -/
def storedWriteLength (d : Direction) (wl : BitVec 8) : BitVec 8 :=
  if d.usesWriteLength then wl else 0#8

/-- The read length a start stores: 0 where the direction does not use it (40_start.md R112 A4). -/
def storedReadLength (d : Direction) (rl : BitVec 8) : BitVec 8 :=
  if d.usesReadLength then rl else 0#8

/-- The codes of BusStatus (30_encoding.md R93). -/
def BusStatus.code : BusStatus → BitVec 2
  | .idle => 0#2
  | .inProgress => 1#2
  | .finished => 2#2
  | .error => 3#2

/-- The codes of the direction (30_encoding.md R93). -/
def Direction.code : Direction → BitVec 2
  | .write => 0#2
  | .read => 1#2
  | .writeThenRead => 2#2

/-- The response of `RDBUF`: bit 8 `ok`, bits 7:0 the data (30_encoding.md R92). -/
def dataResponse (v : Byte) : Word := 0#23 ++ 1#1 ++ v

end Sys2Proof.Machine
end

