-- ==== Sys2Proof/Machine/Flags.lean ====
section
/-! DEFINITION. The condition bits computed from state: busy, the reported status, the pending
vector, the enabling of the background step. -/

namespace Sys2Proof.Machine

/-- `hw.busy`: the register on `TW` (10_state.md R32), `len(hw.txFifo) > 0` on `FW` (R39). -/
def State.busLineBusy (s : State) : Bool :=
  match s.params.bus with
  | .tw => s.hw.busy
  | .fw => decide (0 < s.hw.txFifo.length)

/-- What `GETSTATUS` reports: on a busy `TW` bus raw `Idle` and raw `Finished` are reported as
`InProgress` (41_status_ack_buffers.md R130). -/
def State.reportedStatus (s : State) : BusStatus :=
  if s.params.bus = .tw ∧ s.hw.busy = true ∧ (s.status = .idle ∨ s.status = .finished) then
    .inProgress
  else s.status

/-- The receive level has reached the threshold (60_exceptions.md R215, source `RXLVL`). -/
def State.rxLevelReached (s : State) : Bool :=
  decide (1 ≤ s.rxThreshold.toNat) && decide (s.rxThreshold.toNat ≤ s.hw.rxFifo.length)

/-- The pending vector (60_exceptions.md R216): bit 0 `NACK`, 1 `TC`, 2 `STOP`, 3 `RXLVL`
(30_encoding.md R96); bits of the other kind are 0. -/
def State.irq (s : State) : BitVec 4 :=
  match s.params.bus with
  | .tw =>
    BitVec.ofBool false ++ BitVec.ofBool (s.ieStop && s.hw.stopDet)
      ++ BitVec.ofBool (s.ieTc && s.hw.tc) ++ BitVec.ofBool (s.ieNack && s.hw.nack)
  | .fw => BitVec.ofBool (s.ieRx && s.rxLevelReached) ++ 0#3

/-- The background step is enabled exactly when `initDone = 1` and `irq != 0`
(60_exceptions.md R217). -/
def State.serviceEnabled (s : State) : Bool := s.initDone && decide (s.irq ≠ 0#4)

end Sys2Proof.Machine
end

