-- ==== Sys2Proof/Machine/BufferAccess.lean ====
section
/-! DEFINITION. `WRBUF` and `RDBUF` (41_status_ack_buffers.md). -/

namespace Sys2Proof.Machine

/-- `WRBUF` (41_status_ack_buffers.md R134), accepted in every status. -/
def execWrBuf (index : BitVec 8) (data : Byte) (s : State) : Result :=
  if s.initDone = false then reject s
  else if indexInBounds s.params index then
    respond 1#32 { s with wbuf := s.wbuf.write index.toNat data }
  else reject s

/-- Whether `RDBUF` data is valid: raw `status = Finished` and an index this transaction has
written (41_status_ack_buffers.md R136). -/
abbrev State.readDataValid (index : BitVec 8) (s : State) : Prop :=
  s.status = .finished ∧ index.toNat < s.nextReadIndex.toNat

/-- `RDBUF` (41_status_ack_buffers.md R136): the stored byte where it is valid, a free byte
(`draw Byte`) elsewhere. A free-byte position passes with every accepted `RDBUF`.
Log entry 5. -/
def execRdBuf (index : BitVec 8) (s : State) : Result :=
  if s.initDone = false then reject s
  else if indexInBounds s.params index then
    respond
      (dataResponse
        (if s.readDataValid index then s.rbuf.sample index.toNat s.nextFreeByte
          else s.nextFreeByte))
      { s with draws := s.draws + 1 }
  else reject s

end Sys2Proof.Machine
end

