-- ==== Sys2Proof/Machine/Start.lean ====
section
/-! DEFINITION. `INIT`, the two-wire start commands and the four-wire start command
(40_start.md). -/

namespace Sys2Proof.Machine

/-- `INIT` (40_start.md R110). -/
def execInit (timing : BitVec 16) (s : State) : Result :=
  if s.initDone = true then reject s
  else respond 1#32
    { s.disableSources with
      initDone := true
      timing := timing
      status := .idle
      hw := { s.hw with txFifo := [], rxFifo := [] } }

/-- The checks V0 to V5 of a two-wire start (40_start.md R111), after the check that the instance
has the command at all (30_encoding.md R94). -/
abbrev State.admitsTwStart (d : Direction) (wl rl : BitVec 8) (s : State) : Prop :=
  s.params.bus = .tw ∧
  s.initDone = true ∧
  s.status = .idle ∧
  s.hw.busy = false ∧
  (s.hw.stopReq = false ∧ s.hw.tc = false ∧ s.hw.stopDet = false) ∧
  (d = .read ∨ lengthInBounds s.params wl) ∧
  (d = .write ∨ lengthInBounds s.params rl)

/-- A1 to A8 of a successful two-wire start (40_start.md R112). -/
def State.twStartRegisters (d : Direction) (wl rl : BitVec 8) (addr : BitVec 10) (s : State) :
    State :=
  { s with
    status := .inProgress
    nextWriteIndex := 0
    nextReadIndex := 0
    errLatched := false
    stopIssued := false
    peerAddress := truncateAddress s.params addr
    direction := d
    writeLength := storedWriteLength d wl
    readLength := storedReadLength d rl
    pendingReadLength := if d = .writeThenRead then rl else 0#8
    bytesRemaining :=
      (storedWriteLength d wl).setWidth 9 + (storedReadLength d rl).setWidth 9
    hw := { s.hw with
      txFifo := []
      rxFifo := []
      nack := false
      addr := truncateAddress s.params addr
      rxMode := decide (d = .read)
      count := if d = .read then rl else wl
      autoStop := decide (d ≠ .writeThenRead) } }

/-- A9: push the first chunk of the write buffer (40_start.md R112, R116). -/
def State.firstFill (s : State) : State := s.fill s.fillCount

/-- A10 and A11: enable the sources, then request the start condition (40_start.md R112). -/
def State.twStartRequest (d : Direction) (s : State) : State :=
  { s with
    ieNack := true
    ieStop := true
    ieTc := decide (d = .writeThenRead)
    hw := { s.hw with startReq := true } }

/-- The two-wire start of a direction: R111, then R112 (40_start.md). -/
def twStart (d : Direction) (wl rl : BitVec 8) (addr : BitVec 10) (s : State) : Result :=
  if s.admitsTwStart d wl rl then
    respond 1#32 (((s.twStartRegisters d wl rl addr).firstFill).twStartRequest d)
  else reject s

/-- `START.W` (40_start.md R113). -/
def execStartW (addr : BitVec 10) (wlen : BitVec 8) (s : State) : Result :=
  twStart .write wlen 0#8 addr s

/-- `START.R` (40_start.md R114). -/
def execStartR (addr : BitVec 10) (rlen : BitVec 8) (s : State) : Result :=
  twStart .read 0#8 rlen addr s

/-- `START.WR` (40_start.md R115). -/
def execStartWR (addr : BitVec 10) (wlen rlen : BitVec 8) (s : State) : Result :=
  twStart .writeThenRead wlen rlen addr s

/-- The checks V0, V1, V2, V4 of `XFER` (40_start.md R116), after the check that the instance has
the command at all (30_encoding.md R94). -/
abbrev State.admitsXfer (n : BitVec 8) (s : State) : Prop :=
  s.params.bus = .fw ∧
  s.initDone = true ∧
  s.status = .idle ∧
  s.busLineBusy = false ∧
  lengthInBounds s.params n

/-- A1 to A8 of a successful `XFER`; the peer select is asserted before any byte is pushed
(40_start.md R116). -/
def State.xferRegisters (n : BitVec 8) (s : State) : State :=
  ({ s with
    status := .inProgress
    nextWriteIndex := 0
    nextReadIndex := 0
    errLatched := false
    writeLength := n
    readLength := n
    bytesRemaining := n.setWidth 9 + n.setWidth 9
    hw := { s.hw with txFifo := [], rxFifo := [] }
    cs := true } : State).log (.peerSelect true)

/-- A10 of a successful `XFER` after a first fill of `k` bytes (40_start.md R116). -/
def State.xferRequest (k : Nat) (s : State) : State :=
  { s with rxThreshold := BitVec.ofNat 5 k, ieRx := true }

/-- `XFER` (40_start.md R116). -/
def execXfer (wlen : BitVec 8) (s : State) : Result :=
  if s.admitsXfer wlen then
    respond 1#32
      (((s.xferRegisters wlen).firstFill).xferRequest (s.xferRegisters wlen).fillCount)
  else reject s

end Sys2Proof.Machine
end

