-- ==== Sys2Proof/Machine/Status.lean ====
section
/-! DEFINITION. `GETSTATUS` and `ACKIDLE` (41_status_ack_buffers.md). -/

namespace Sys2Proof.Machine

/-- `GETSTATUS` (41_status_ack_buffers.md R130). -/
def execGetStatus (s : State) : Result :=
  if s.initDone = false then reject s
  else respond (s.reportedStatus.code.setWidth 32) s

/-- `ACKIDLE` (41_status_ack_buffers.md R132): the raw status is tested. -/
def execAckIdle (s : State) : Result :=
  if s.initDone = false then reject s
  else if s.status = .inProgress then respond 0#32 s
  else respond 1#32 { s with status := .idle }

end Sys2Proof.Machine
end

