-- ==== Sys2Proof/Machine/Dispatch.lean ====
section
/-! DEFINITION. One arm per command: the foreground's atomic step for each (00_scope.md R11). -/

namespace Sys2Proof.Machine

def exec (i : Instr) (s : State) : Host.Outcome State Fault Refusal :=
  match i with
  | .init timing => Sys2Proof.Machine.execInit timing s
  | .startW addr wlen => Sys2Proof.Machine.execStartW addr wlen s
  | .startR addr rlen => Sys2Proof.Machine.execStartR addr rlen s
  | .startWR addr wlen rlen => Sys2Proof.Machine.execStartWR addr wlen rlen s
  | .xfer wlen => Sys2Proof.Machine.execXfer wlen s
  | .getStatus => Sys2Proof.Machine.execGetStatus s
  | .ackIdle => Sys2Proof.Machine.execAckIdle s
  | .wrBuf index data => Sys2Proof.Machine.execWrBuf index data s
  | .rdBuf index => Sys2Proof.Machine.execRdBuf index s

end Sys2Proof.Machine
end

