-- ==== Sys2Proof/Machine/Environment.lean ====
section
/-! DEFINITION. The environment steps of the adapter contract (44_adapter_contract.md). -/

namespace Sys2Proof.Machine

/-- The precondition of an environment step (44_adapter_contract.md R184 to R193). A step exists
only on the instance kind whose section lists it (R192, R194). -/
def State.envEnabled (s : State) : EnvStep → Bool
  | .start _ _ =>
    decide (s.params.bus = .tw ∧ s.hw.startReq = true ∧ (s.hw.wp = .idle ∨ s.hw.wp = .hold))
  | .tx _ =>
    decide (s.params.bus = .tw ∧ s.hw.wp = .data ∧ s.hw.rxMode = false ∧
      0 < s.hw.count.toNat ∧ 0 < s.hw.txFifo.length)
  | .rx _ =>
    decide (s.params.bus = .tw ∧ s.hw.wp = .data ∧ s.hw.rxMode = true ∧
      0 < s.hw.count.toNat ∧ s.hw.rxFifo.length < s.params.depth)
  | .phaseEnd _ => decide (s.params.bus = .tw ∧ s.hw.wp = .data ∧ s.hw.count.toNat = 0)
  | .stop _ =>
    decide (s.params.bus = .tw ∧ s.hw.stopReq = true ∧ (s.hw.wp = .data ∨ s.hw.wp = .hold))
  | .busyRel =>
    decide (s.params.bus = .tw ∧ s.hw.wp = .idle ∧ s.hw.busy = true ∧ s.hw.startReq = false)
  | .xchg _ =>
    decide (s.params.bus = .fw ∧ 0 < s.hw.txFifo.length ∧ s.hw.rxFifo.length < s.params.depth)

/-- `ENV START(ack, t)` (44_adapter_contract.md R184). -/
def State.envStart (ack t : Bool) (s : State) : State :=
  let event : WireEvent :=
    if s.hw.wp = .hold then .repeatedStart s.hw.addr s.hw.rxMode ack
    else .start s.hw.addr s.hw.rxMode ack
  let s' := s.log event
  if ack = true then
    { s' with hw := { s'.hw with startReq := false, busy := true, wp := .data } }
  else
    { s' with
      hw := { s'.hw with
        startReq := false
        busy := true
        nack := true
        tc := s'.hw.tc || (!s'.hw.autoStop && t)
        wp := .hold } }

/-- `ENV TX(ack)` (44_adapter_contract.md R186). -/
def State.envTx (ack : Bool) (s : State) : State :=
  match s.hw.txFifo with
  | [] => s
  | v :: rest =>
    let s' := s.log (.transmitted v ack)
    if ack = true then
      { s' with hw := { s'.hw with txFifo := rest, count := s'.hw.count - 1 } }
    else
      { s' with hw := { s'.hw with txFifo := rest, nack := true, wp := .hold } }

/-- `ENV RX(b)` (44_adapter_contract.md R187). -/
def State.envRx (b : Byte) (s : State) : State :=
  let s' := s.log (.received b)
  { s' with hw := { s'.hw with rxFifo := s'.hw.rxFifo ++ [b], count := s'.hw.count - 1 } }

/-- A stop condition on the wire: logged, flagged, the wire idle, `hw.busy` as drawn
(44_adapter_contract.md R189, R190). -/
def State.envStopCondition (linger : Bool) (s : State) : State :=
  let s' := s.log .stop
  { s' with hw := { s'.hw with stopDet := true, wp := .idle, busy := linger } }

/-- `ENV END`: the event without automatic stop (44_adapter_contract.md R188), the stop condition
with it (R189). -/
def State.envPhaseEnd (linger : Bool) (s : State) : State :=
  if s.hw.autoStop = false then { s with hw := { s.hw with tc := true, wp := .hold } }
  else s.envStopCondition linger

/-- `ENV STOP(linger)` (44_adapter_contract.md R190). -/
def State.envStop (linger : Bool) (s : State) : State :=
  ({ s with hw := { s.hw with stopReq := false } } : State).envStopCondition linger

/-- `ENV BUSYREL` (44_adapter_contract.md R191). -/
def State.envBusyRel (s : State) : State := { s with hw := { s.hw with busy := false } }

/-- `ENV XCHG(b)` (44_adapter_contract.md R193). -/
def State.envXchg (b : Byte) (s : State) : State :=
  match s.hw.txFifo with
  | [] => s
  | v :: rest =>
    let s' := s.log (.exchanged v b)
    { s' with hw := { s'.hw with txFifo := rest, rxFifo := s'.hw.rxFifo ++ [b] } }

/-- The effect of an environment step whose precondition holds. -/
def State.envApply (e : EnvStep) (s : State) : State :=
  match e with
  | .start ack t => s.envStart ack t
  | .tx ack => s.envTx ack
  | .rx b => s.envRx b
  | .phaseEnd linger => s.envPhaseEnd linger
  | .stop linger => s.envStop linger
  | .busyRel => s.envBusyRel
  | .xchg b => s.envXchg b

end Sys2Proof.Machine
end

