-- ==== Sys2Proof/Machine/ServiceTw.lean ====
section
/-! DEFINITION. The two-wire background service step (42_service_tw.md). -/

namespace Sys2Proof.Machine

/-- Part `N`, negative-acknowledgement: latch the error, clear the flag, request one stop
condition (42_service_tw.md R147). -/
def State.partN (s : State) : State :=
  if s.ieNack = true ∧ s.hw.nack = true then
    let s' : State := { s with errLatched := true, hw := { s.hw with nack := false } }
    if s.stopIssued = false then
      { s' with
        stopIssued := true
        stopCount := s'.stopCount + 1
        hw := { s'.hw with stopReq := true } }
    else s'
  else s

/-- Part `T`, all bytes transferred: consume the event and, with no error latched, arm the read
phase by a repeated start (42_service_tw.md R148). -/
def State.partT (s : State) : State :=
  if s.ieTc = true ∧ s.hw.tc = true then
    let s' : State := { s with ieTc := false, hw := { s.hw with tc := false } }
    let s'' : State :=
      if s'.errLatched = false then
        { s' with
          hw := { s'.hw with
            rxMode := true
            count := s'.pendingReadLength
            autoStop := true
            startReq := true } }
      else s'
    { s'' with pendingReadLength := 0 }
  else s

/-- Part `D`, drain (42_service_tw.md R149, 43_service_fw.md R166). -/
def State.partD (s : State) : State := s.popMany s.drainCount

/-- Part `F`, fill (42_service_tw.md R150). -/
def State.partFTw (s : State) : State := s.fill s.fillCount

/-- Part `C`, completion on the stop-detected signal (42_service_tw.md R152). -/
def State.partCTw (s : State) : State :=
  if s.ieStop = true ∧ s.hw.stopDet = true then
    { s.disableSources with
      hw := { s.hw with stopDet := false }
      status := if s.errLatched = true then .error else .finished }
  else s

/-- One `SERVICE` step on `TW`: the parts `N`, `T`, `D`, `F`, `C` in this order
(42_service_tw.md R146). -/
def serviceTw (s : State) : State := s.partN.partT.partD.partFTw.partCTw

end Sys2Proof.Machine
end

