-- ==== Sys2Proof/Machine/ServiceFw.lean ====
section
/-! DEFINITION. The four-wire background service step (43_service_fw.md), and `SERVICE` of an
instance of either kind. -/

namespace Sys2Proof.Machine

/-- How many bytes the symmetric fill pushes after a drain of `p`:
`min(p, writeLength - nextWriteIndex, DEPTH - len(hw.txFifo))` (43_service_fw.md R167). -/
def State.symmetricFillCount (p : Nat) (s : State) : Nat := min p s.fillCount

/-- Part `F`, symmetric fill after a drain of `p` bytes (43_service_fw.md R167). -/
def State.partFFw (p : Nat) (s : State) : State :=
  let k := s.symmetricFillCount p
  let s' := s.fill k
  if 0 < k then { s' with rxThreshold := BitVec.ofNat 5 k } else s'

/-- Part `C`, completion by the cursor; the peer select is released (43_service_fw.md R169). -/
def State.partCFw (s : State) : State :=
  if s.bytesRemaining = 0 then
    ({ s.disableSources with status := .finished, cs := false } : State).log (.peerSelect false)
  else s

/-- One `SERVICE` step on `FW`: the parts `D`, `F`, `C` in this order (43_service_fw.md R165). -/
def serviceFw (s : State) : State := (s.partD.partFFw s.drainCount).partCFw

/-- One `SERVICE` step of an instance. A step that would form a buffer index beyond `CAP`, which no
reachable state makes, faults (20_memory.md R66). DESIGN CHOICE (safe). Log entry 9. -/
def service (s : State) : Result :=
  match s.params.bus with
  | .tw =>
    if s.indicesInRange s.drainCount s.fillCount then .next (serviceTw s)
    else .fault .bufferIndexOutOfRange
  | .fw =>
    if s.indicesInRange s.drainCount (s.symmetricFillCount s.drainCount) then
      .next (serviceFw s)
    else .fault .bufferIndexOutOfRange

end Sys2Proof.Machine
end

