-- ==== Sys2Proof/Machine/Turns.lean ====
section
/-! DEFINITION. One turn of one agent: the host port, the background, the environment. -/

namespace Sys2Proof.Machine

/-- Execute the command word `w` as one foreground step: a command runs, a reserved word changes no
state and responds 0 (30_encoding.md R91, R94). -/
def runCommand (w : Word) (s : State) : Result :=
  match decode w with
  | .instr i => exec i s
  | .reserved _ => reject s

/-- A host write (20_memory.md R70): `CMD` at `BASE + 0` executes the word; `RSP` at `BASE + 4` is
read-only; nothing else exists. -/
def portWrite (addr : Nat) (w : Word) (s : State) : Result :=
  if addr = s.params.base then runCommand w s
  else if addr = s.params.base + 4 then .fault .writeOfReadOnly
  else .fault (.unmappedAddress addr)

/-- A host read (20_memory.md R70): `RSP` at `BASE + 4` delivers the response of the most recent
command with no side effect; `CMD` is write-only; nothing else exists. -/
def portRead (addr : Nat) (s : State) : Result :=
  if addr = s.params.base + 4 then .next { s with hostData := s.rsp }
  else if addr = s.params.base then .fault .readOfWriteOnly
  else .fault (.unmappedAddress addr)

/-- A turn of the background: one `SERVICE` step where it is enabled (60_exceptions.md R217); where
it is not, no such step exists and the turn passes. DESIGN CHOICE (safe). Log entry 1. -/
def runService (s : State) : Result := if s.serviceEnabled then service s else .next s

/-- A turn of the environment: its step where the precondition holds; where it does not, the turn
passes. DESIGN CHOICE (safe). Log entry 1. -/
def runEnv (e : EnvStep) (s : State) : Result :=
  if s.envEnabled e then .next (s.envApply e) else .next s

/-- One turn of one agent (20_memory.md R72, R73). -/
def runTurn (t : Turn) (s : State) : Result :=
  match t with
  | .hostWrite addr w => portWrite addr w s
  | .hostRead addr => portRead addr s
  | .service => runService s
  | .env e => runEnv e s

/-- The turn that writes the command word `w` to this instance's `CMD`. -/
def commandTurn (s : State) (w : Word) : Turn := .hostWrite s.params.base w

end Sys2Proof.Machine
end

