-- ==== Sys2Proof/Machine/Step.lean ====
section
/-! DEFINITION. One step of the instance, and the place a command word is put for the next step. -/

namespace Sys2Proof.Machine

/-- One step: the first turn of the agenda is taken. With no turn to take, the block waits
(70_reset_and_hazards.md R240). DESIGN CHOICE (safe). Log entry 1. -/
def step (s : State) : Host.Outcome State Fault Refusal :=
  match s.agenda with
  | [] => .next s
  | t :: rest => runTurn t { s with agenda := rest }

/-- The state in which the host's next access writes this word to `CMD`: the block fetches no
instructions (10_state.md R25), commands come from outside. Log entry 2. -/
def State.withFetchWord (s : State) (nbits w : Nat) : State :=
  { s with agenda := commandTurn s (BitVec.ofNat 32 (w % 2 ^ nbits)) :: s.agenda }

end Sys2Proof.Machine
end

