-- ==== Sys2Proof/Machine/Assembler.lean ====
section
/-! DEFINITION. The text form of a command and the pseudo-operations (30_encoding.md R97, R98). -/

namespace Sys2Proof.Machine

/-- The text form of a command, values in decimal (30_encoding.md R97). -/
def commandText : Instr → String
  | .init t => "INIT timing=" ++ toString t.toNat
  | .startW a wl => "START.W addr=" ++ toString a.toNat ++ ", wlen=" ++ toString wl.toNat
  | .startR a rl => "START.R addr=" ++ toString a.toNat ++ ", rlen=" ++ toString rl.toNat
  | .startWR a wl rl =>
    "START.WR addr=" ++ toString a.toNat ++ ", wlen=" ++ toString wl.toNat ++ ", rlen="
      ++ toString rl.toNat
  | .xfer wl => "XFER wlen=" ++ toString wl.toNat
  | .getStatus => "GETSTATUS"
  | .ackIdle => "ACKIDLE"
  | .wrBuf i d => "WRBUF index=" ++ toString i.toNat ++ ", data=" ++ toString d.toNat
  | .rdBuf i => "RDBUF index=" ++ toString i.toNat

/-- A command with its expected response (30_encoding.md R97). -/
def commandLine (i : Instr) (response : Word) : String :=
  commandText i ++ " -> " ++ toString response.toNat

/-- A one-bit draw in the text form. -/
def bitText (b : Bool) : String := if b = true then "1" else "0"

/-- The text form of a background step (30_encoding.md R97). -/
def serviceText : String := "SERVICE"

/-- The text form of an environment step, draws in decimal (30_encoding.md R97). -/
def envText : EnvStep → String
  | .start ack t => "ENV START(ack=" ++ bitText ack ++ ", t=" ++ bitText t ++ ")"
  | .tx ack => "ENV TX(ack=" ++ bitText ack ++ ")"
  | .rx b => "ENV RX(" ++ toString b.toNat ++ ")"
  | .phaseEnd linger => "ENV END(linger=" ++ bitText linger ++ ")"
  | .stop linger => "ENV STOP(linger=" ++ bitText linger ++ ")"
  | .busyRel => "ENV BUSYREL"
  | .xchg b => "ENV XCHG(" ++ toString b.toNat ++ ")"

/-- `LOAD` from index `i` on (30_encoding.md R98). -/
def loadFrom (i : Nat) : List Byte → List Instr
  | [] => []
  | b :: bytes => .wrBuf (BitVec.ofNat 8 i) b :: loadFrom (i + 1) bytes

/-- `LOAD b0, b1, ...` (30_encoding.md R98). -/
def pseudoLoad (bytes : List Byte) : List Instr := loadFrom 0 bytes

/-- `FETCH n` (30_encoding.md R98). -/
def pseudoFetch (n : Nat) : List Instr :=
  (List.range n).map fun i => .rdBuf (BitVec.ofNat 8 i)

/-- `WRITE addr, n` (30_encoding.md R98). -/
def pseudoWrite (addr : BitVec 10) (n : BitVec 8) : List Instr := [.startW addr n]

/-- `READ addr, n` (30_encoding.md R98). -/
def pseudoRead (addr : BitVec 10) (n : BitVec 8) : List Instr := [.startR addr n]

/-- `WRITEREAD addr, n, m` (30_encoding.md R98). -/
def pseudoWriteRead (addr : BitVec 10) (n m : BitVec 8) : List Instr := [.startWR addr n m]

/-- A list of commands run one after another with no step of another agent between them. -/
def execAll : List Instr → State → Result
  | [], s => .next s
  | i :: is, s =>
    match exec i s with
    | .next s' => execAll is s'
    | .fault r => .fault r
    | .refused r => .refused r

/-- A list of turns, in order. -/
def runTurns : List Turn → State → Result
  | [], s => .next s
  | t :: ts, s =>
    match runTurn t s with
    | .next s' => runTurns ts s'
    | .fault r => .fault r
    | .refused r => .refused r

/-- `SYNC` (30_encoding.md R98): repeat `GETSTATUS` until the response is not 1. `gaps` are the
turns that other agents take between two polls; with no gap left the last poll ends it. -/
def pseudoSync : List (List Turn) → State → Result
  | [], s => execGetStatus s
  | gap :: gaps, s =>
    match execGetStatus s with
    | .next s' =>
      if s'.rsp = 1#32 then
        match runTurns gap s' with
        | .next s'' => pseudoSync gaps s''
        | .fault r => .fault r
        | .refused r => .refused r
      else .next s'
    | .fault r => .fault r
    | .refused r => .refused r

end Sys2Proof.Machine
end

