-- ==== Sys2Proof/Machine/System.lean ====
section
/-! DEFINITION. Any number of instances, each with all state for itself (60_exceptions.md R232). -/

namespace Sys2Proof.Machine

/-- Several instances and the order in which they take steps. The order is not observable
(60_exceptions.md R223); it is data as the agenda of one instance is. Log entry 17. -/
structure System where
  instances : List State
  order     : List Nat
  deriving DecidableEq, Repr

/-- Each instance has its own host port, two 32-bit registers at its `BASE` (60_exceptions.md R232,
20_memory.md R70): no two ports overlap. The instances then have different `BASE`, so their free
bytes are unrelated (log entry 24). -/
abbrev System.ownPorts (sys : System) : Prop :=
  sys.instances.Pairwise fun s t =>
    s.params.base + 8 ≤ t.params.base ∨ t.params.base + 8 ≤ s.params.base

/-- One step of the instance the order names next; no other instance's state is read or written
(60_exceptions.md R232). A number of no instance passes. -/
def systemStep (sys : System) : Host.Outcome System Fault Refusal :=
  match sys.order with
  | [] => .next sys
  | k :: rest =>
    match sys.instances[k]? with
    | none => .next { sys with order := rest }
    | some s =>
      match step s with
      | .next s' => .next { instances := sys.instances.set k s', order := rest }
      | .fault r => .fault r
      | .refused r => .refused r

end Sys2Proof.Machine
end

