-- ==== Sys2Proof/WellFormed.lean ====
section
/-! DEFINITION. What makes a parameter record legal and a command one of an instance's kind. -/

namespace Sys2Proof

/-- The ranges of the parameters (00_scope.md R8): `50 <= FW_CAP <= 255`, `1 <= ADDR_W <= 10`.
DESIGN CHOICE (safe): `DEPTH` may be 1 to 31, what the 5 bits of `rxThreshold` can hold
(10_state.md R35); the spec gives the one value 16. Log entry 25. -/
abbrev Params.wf (p : Params) : Prop :=
  (50 ≤ p.fwCap ∧ p.fwCap ≤ 255) ∧ (1 ≤ p.addrW ∧ p.addrW ≤ 10) ∧ (1 ≤ p.depth ∧ p.depth ≤ 31)

/-- The `kinds` column of the opcode map (30_encoding.md R91): a command an instance of this kind
has. A command of the other kind is a reserved word there (R94), which `exec` answers with
response 0 and no state change. -/
def Instr.wellFormed (bus : BusKind) : Instr → Bool
  | .init _ => true
  | .startW _ _ => bus == .tw
  | .startR _ _ => bus == .tw
  | .startWR _ _ _ => bus == .tw
  | .xfer _ => bus == .fw
  | .getStatus => true
  | .ackIdle => true
  | .wrBuf _ _ => true
  | .rdBuf _ => true

/-- The four start commands (40_start.md R117). -/
def Instr.isStart : Instr → Bool
  | .startW _ _ => true
  | .startR _ _ => true
  | .startWR _ _ _ => true
  | .xfer _ => true
  | .init _ => false
  | .getStatus => false
  | .ackIdle => false
  | .wrBuf _ _ => false
  | .rdBuf _ => false

end Sys2Proof
end

