-- ==== Sys2Proof/Safety.lean ====
section
/-! DEFINITION. What the claims speak of: the invariant of the reachable states, runs, fair
executions, legal edges of the status, the rank that a liveness claim counts down. -/

namespace Sys2Proof.Machine

/-- The cursor bounds (10_state.md R28). -/
abbrev State.cursorBounds (s : State) : Prop :=
  s.nextWriteIndex.toNat ≤ s.writeLength.toNat ∧ s.writeLength.toNat ≤ s.params.cap ∧
  s.nextReadIndex.toNat ≤ s.readLength.toNat ∧ s.readLength.toNat ≤ s.params.cap ∧
  (s.status = .inProgress →
    s.bytesRemaining.toNat =
      (s.writeLength.toNat - s.nextWriteIndex.toNat)
        + (s.readLength.toNat - s.nextReadIndex.toNat))

/-- Both buffers canonical and inside 0 to `CAP`-1 (20_memory.md R60), the read buffer written below
the cursor; both FIFOs of at most `DEPTH` entries (10_state.md R37). -/
abbrev State.storageOk (s : State) : Prop :=
  (s.wbuf.wf ∧ s.wbuf.within s.params.cap) ∧ (s.rbuf.wf ∧ s.rbuf.within s.params.cap) ∧
  (∀ i < s.nextReadIndex.toNat, (s.rbuf.read i).isSome = true) ∧
  s.hw.txFifo.length ≤ s.params.depth ∧ s.hw.rxFifo.length ≤ s.params.depth

/-- No transaction: nothing enabled, requested or flagged, the wire idle (10_state.md R55 (a) to
(c)). -/
abbrev State.quiet (s : State) : Prop :=
  (s.ieNack = false ∧ s.ieTc = false ∧ s.ieStop = false ∧ s.ieRx = false) ∧
  (s.hw.startReq = false ∧ s.hw.stopReq = false) ∧
  (s.hw.nack = false ∧ s.hw.tc = false ∧ s.hw.stopDet = false) ∧
  s.hw.wp = .idle

/-- The registers of the other kind on a `TW` instance. -/
abbrev State.fwRegistersClear (s : State) : Prop :=
  s.ieRx = false ∧ s.cs = false ∧ s.rxThreshold = 0

/-- The registers of the other kind on an `FW` instance, and its error latch (43_service_fw.md
R168). -/
abbrev State.twRegistersClear (s : State) : Prop :=
  (s.peerAddress = 0 ∧ s.direction = .write ∧ s.pendingReadLength = 0) ∧
  (s.errLatched = false ∧ s.stopIssued = false) ∧
  (s.ieNack = false ∧ s.ieTc = false ∧ s.ieStop = false) ∧
  (s.hw.addr = 0 ∧ s.hw.rxMode = false ∧ s.hw.count = 0 ∧ s.hw.autoStop = false) ∧
  (s.hw.startReq = false ∧ s.hw.stopReq = false ∧ s.hw.busy = false) ∧
  (s.hw.nack = false ∧ s.hw.tc = false ∧ s.hw.stopDet = false) ∧
  s.hw.wp = .idle

/-- No flag is pending and no stop is requested. -/
abbrev State.noFlag (s : State) : Prop :=
  s.hw.stopReq = false ∧ s.hw.nack = false ∧ s.hw.tc = false ∧ s.hw.stopDet = false

/-- The bytes the current phase still has to move are where they can move (10_state.md R36): in the
transmit FIFO, or still to come from the peer. -/
abbrev State.phaseBytes (s : State) : Prop :=
  (s.hw.rxMode = false → s.hw.count.toNat = s.hw.txFifo.length ∧ s.hw.rxFifo = []) ∧
  (s.hw.rxMode = true →
    s.hw.rxFifo.length + s.hw.count.toNat = s.readLength.toNat ∧ s.hw.txFifo = [])

/-- A `TW` transaction whose phase has not begun on the wire: the start condition is requested. -/
abbrev State.twStartPending (s : State) : Prop :=
  s.hw.wp = .idle ∧ s.hw.startReq = true ∧ s.hw.busy = false ∧ s.noFlag ∧
  s.errLatched = false ∧ (s.hw.autoStop = false → s.ieTc = true) ∧ s.phaseBytes ∧
  s.hw.rxFifo = []

/-- A `TW` transaction whose repeated start is requested (42_service_tw.md R148). -/
abbrev State.twRestartPending (s : State) : Prop :=
  s.hw.wp = .hold ∧ s.hw.startReq = true ∧ s.hw.busy = true ∧ s.noFlag ∧
  s.errLatched = false ∧ s.ieTc = false ∧ s.hw.rxMode = true ∧ s.phaseBytes ∧ s.hw.rxFifo = []

/-- A `TW` transaction with bytes moving on the wire. -/
abbrev State.twMoving (s : State) : Prop :=
  s.hw.wp = .data ∧ s.hw.startReq = false ∧ s.hw.busy = true ∧ s.noFlag ∧
  s.errLatched = false ∧ (s.hw.autoStop = false → s.ieTc = true) ∧ s.phaseBytes

/-- A `TW` transaction held after a negative-acknowledgement not yet serviced. -/
abbrev State.twRejected (s : State) : Prop :=
  s.hw.wp = .hold ∧ s.hw.startReq = false ∧ s.hw.busy = true ∧ s.hw.nack = true ∧
  (s.hw.tc = true → s.ieTc = true) ∧ s.hw.stopReq = false ∧ s.hw.stopDet = false ∧
  s.errLatched = false ∧ s.hw.rxFifo = []

/-- A `TW` transaction held at the end of its write phase, the event not yet serviced. -/
abbrev State.twPhaseDone (s : State) : Prop :=
  s.hw.wp = .hold ∧ s.hw.startReq = false ∧ s.hw.busy = true ∧ s.hw.nack = false ∧
  s.hw.tc = true ∧ s.ieTc = true ∧ s.hw.stopReq = false ∧ s.hw.stopDet = false ∧
  s.errLatched = false ∧ s.hw.rxFifo = [] ∧ s.hw.txFifo = []

/-- A `TW` transaction with the error latched and the stop condition requested. -/
abbrev State.twStopping (s : State) : Prop :=
  s.hw.wp = .hold ∧ s.hw.startReq = false ∧ s.hw.busy = true ∧ s.hw.nack = false ∧
  s.hw.tc = false ∧ s.hw.stopReq = true ∧ s.hw.stopDet = false ∧ s.errLatched = true ∧
  s.hw.rxFifo = []

/-- A `TW` transaction whose stop condition has been generated and not yet serviced. -/
abbrev State.twStopped (s : State) : Prop :=
  s.hw.wp = .idle ∧ s.hw.startReq = false ∧ s.hw.nack = false ∧ s.hw.tc = false ∧
  s.hw.stopReq = false ∧ s.hw.stopDet = true ∧
  (s.errLatched = true → s.hw.rxFifo = []) ∧
  (s.errLatched = false →
    s.hw.rxFifo.length = s.readLength.toNat ∧ s.hw.txFifo = [] ∧ s.hw.autoStop = true)

/-- A running `TW` transaction (10_state.md R25): the sequencing state and what the wire is at. -/
abbrev State.twRunning (s : State) : Prop :=
  (s.ieNack = true ∧ s.ieStop = true) ∧
  (s.nextWriteIndex = s.writeLength ∧ s.nextReadIndex = 0) ∧
  (s.writeLength = 0 ↔ s.direction = .read) ∧ (s.readLength = 0 ↔ s.direction = .write) ∧
  (s.hw.autoStop = false ↔ s.direction = .writeThenRead ∧ s.hw.rxMode = false) ∧
  (s.direction = .read → s.hw.rxMode = true) ∧ (s.direction = .write → s.hw.rxMode = false) ∧
  (s.ieTc = true → s.hw.autoStop = false ∧ s.pendingReadLength = s.readLength) ∧
  (s.twStartPending ∨ s.twRestartPending ∨ s.twMoving ∨ s.twRejected ∨ s.twPhaseDone ∨
    s.twStopping ∨ s.twStopped)

/-- The invariant of a `TW` instance. -/
abbrev State.twInv (s : State) : Prop :=
  s.fwRegistersClear ∧
  s.peerAddress.toNat < 2 ^ s.params.addrW ∧ s.hw.addr = s.peerAddress ∧
  s.stopIssued = s.errLatched ∧
  (s.status = .error → s.errLatched = true) ∧
  (s.status = .finished → s.errLatched = false ∧ s.nextReadIndex = s.readLength) ∧
  (s.status = .inProgress → s.twRunning)

/-- A running `FW` transfer (10_state.md R55 (e)): every pushed byte is in a FIFO or has come back,
and the chunk outstanding is what the threshold waits for (43_service_fw.md R167). -/
abbrev State.fwRunning (s : State) : Prop :=
  s.ieRx = true ∧ 1 ≤ s.writeLength.toNat ∧
  s.nextReadIndex.toNat + (s.hw.txFifo.length + s.hw.rxFifo.length) = s.nextWriteIndex.toNat ∧
  s.rxThreshold.toNat = s.hw.txFifo.length + s.hw.rxFifo.length ∧
  1 ≤ s.rxThreshold.toNat ∧ s.rxThreshold.toNat ≤ s.params.depth ∧
  (s.nextWriteIndex = s.writeLength ∨ s.rxThreshold.toNat = s.params.depth)

/-- The invariant of an `FW` instance. -/
abbrev State.fwInv (s : State) : Prop :=
  s.twRegistersClear ∧ s.writeLength = s.readLength ∧
  s.status ≠ .error ∧ (s.cs = true ↔ s.status = .inProgress) ∧
  (s.status ≠ .inProgress → s.hw.txFifo = [] ∧ s.hw.rxFifo = []) ∧
  (s.status = .finished → s.nextReadIndex = s.readLength) ∧
  (s.status = .inProgress → s.fwRunning)

/-- The invariant of the reachable states: 10_state.md R28 and R55, with what makes them
inductive. -/
abbrev State.Inv (s : State) : Prop :=
  s.params.wf ∧ s.cursorBounds ∧ s.storageOk ∧
  (s.initDone = false → s.status = .idle) ∧
  (s.status ≠ .inProgress → s.quiet) ∧
  (s.params.bus = .tw → s.twInv) ∧ (s.params.bus = .fw → s.fwInv)

/-- The states of the runs from reset: legal parameters, any agenda, and any further turns arriving
at any time (20_memory.md R72, R73). -/
inductive Reachable (p : Params) : State → Prop where
  | reset : Reachable p (State.resetWith p)
  | arrive (s : State) (agenda : List Turn) :
      Reachable p s → Reachable p { s with agenda := agenda }
  | step (s s' : State) : Reachable p s → step s = .next s' → Reachable p s'

/-- The edges of the status register (10_state.md R21). -/
inductive StatusEdge : BusStatus → BusStatus → Prop where
  | start : StatusEdge .idle .inProgress
  | finish : StatusEdge .inProgress .finished
  | fail : StatusEdge .inProgress .error
  | ackFinished : StatusEdge .finished .idle
  | ackError : StatusEdge .error .idle

/-- An upper bound on the steps of the environment and the background that a running transaction
still takes (44_adapter_contract.md R195, 70_reset_and_hazards.md R257). -/
def State.rank (s : State) : Nat :=
  match s.params.bus with
  | .tw =>
    if s.hw.stopDet = true then 1 + (if s.hw.busy = true then 1 else 0)
    else if s.hw.stopReq = true then 3
    else if s.hw.nack = true then 4
    else if s.hw.tc = true then 7 + s.pendingReadLength.toNat
    else
      (if s.hw.startReq = true then 6 else 5) + s.hw.count.toNat
        + (if s.hw.autoStop = true then 0 else 3 + s.pendingReadLength.toNat)
  | .fw => 2 * s.bytesRemaining.toNat + s.hw.txFifo.length

/-- The steps that exist in a state (20_memory.md R73): the host may always access its port, the
background and the environment have a step where it is enabled. -/
def State.offers (s : State) : Turn → Bool
  | .hostWrite _ _ => true
  | .hostRead _ => true
  | .service => s.serviceEnabled
  | .env e => s.envEnabled e

/-- A turn of the background or of the environment: what carries a transaction on. -/
def Turn.advances : Turn → Bool
  | .hostWrite _ _ => false
  | .hostRead _ => false
  | .service => true
  | .env _ => true

/-- A turn that is a `WRBUF` command. -/
def Turn.isWrBuf : Turn → Bool
  | .hostWrite _ w =>
    match decode w with
    | .instr (.wrBuf _ _) => true
    | .instr _ => false
    | .reserved _ => false
  | .hostRead _ => false
  | .service => false
  | .env _ => false

/-- A wire event in which the peer rejected the address or a byte (44_adapter_contract.md R184,
R186). -/
def WireEvent.isNack : WireEvent → Bool
  | .start _ _ ack => !ack
  | .repeatedStart _ _ ack => !ack
  | .transmitted _ ack => !ack
  | .received _ => false
  | .stop => false
  | .exchanged _ _ => false
  | .peerSelect _ => false

/-- A repeated start on the wire (44_adapter_contract.md R184). -/
def WireEvent.isRepeatedStart : WireEvent → Bool
  | .start _ _ _ => false
  | .repeatedStart _ _ _ => true
  | .transmitted _ _ => false
  | .received _ => false
  | .stop => false
  | .exchanged _ _ => false
  | .peerSelect _ => false

/-- A byte received on the wire (44_adapter_contract.md R187). -/
def WireEvent.isReceived : WireEvent → Bool
  | .start _ _ _ => false
  | .repeatedStart _ _ _ => false
  | .transmitted _ _ => false
  | .received _ => true
  | .stop => false
  | .exchanged _ _ => false
  | .peerSelect _ => false

/-- A run of existing steps, in any interleaving of the agents, in which the transaction is in
progress before every step. -/
inductive TransactionRun : List Turn → State → State → Prop where
  | nil (s : State) : TransactionRun [] s s
  | cons (t : Turn) (ts : List Turn) (s s' u : State) :
      s.status = .inProgress → s.offers t = true → runTurn t s = .next s' →
      TransactionRun ts s' u → TransactionRun (t :: ts) s u

/-- The environment's events, whatever they draw (44_adapter_contract.md R184 to R193). -/
inductive EnvEvent where
  | start
  | tx
  | rx
  | phaseEnd
  | stop
  | busyRel
  | xchg
  deriving DecidableEq, Repr

/-- The event of an environment step. -/
def EnvStep.event : EnvStep → EnvEvent
  | .start _ _ => .start
  | .tx _ => .tx
  | .rx _ => .rx
  | .phaseEnd _ => .phaseEnd
  | .stop _ => .stop
  | .busyRel => .busyRel
  | .xchg _ => .xchg

/-- The step that a state's next step takes: its first turn, where that turn's step exists. -/
def State.takes (s : State) (t : Turn) : Prop :=
  s.agenda.head? = some t ∧ s.offers t = true

/-- An infinite execution (20_memory.md R72): every state is the next state of the one before it,
with whatever turns have been scheduled since. Which agent steps next is not determined (R73). -/
def Execution (σ : Nat → State) : Prop :=
  ∀ n : Nat, ∃ (s' : State) (agenda : List Turn),
    step (σ n) = .next s' ∧ σ (n + 1) = { s' with agenda := agenda }

/-- The background is weakly fair: an interrupt that stays pending is eventually serviced
(20_memory.md R73, 70_reset_and_hazards.md R257 (b)). -/
def BackgroundFair (σ : Nat → State) : Prop :=
  ∀ n : Nat, (∀ m : Nat, n ≤ m → (σ m).serviceEnabled = true) →
    ∃ m : Nat, n ≤ m ∧ (σ m).takes .service

/-- The premise `ENV_FAIR`: an environment event that stays enabled is eventually taken
(70_reset_and_hazards.md R257 (a), 44_adapter_contract.md R195).
DESIGN CHOICE: the event is taken with some draws, not with each (R183). Log entry 18. -/
def EnvironmentFair (σ : Nat → State) : Prop :=
  ∀ (n : Nat) (e : EnvStep), (∀ m : Nat, n ≤ m → (σ m).envEnabled e = true) →
    ∃ (m : Nat) (e' : EnvStep), n ≤ m ∧ e'.event = e.event ∧ (σ m).takes (.env e')

/-- The executions the spec admits of an instance: the background weakly fair always, the
environment where the instance's parameter `ENV_FAIR` says so (20_memory.md R73, 00_scope.md R8,
92_eei_decisions.md D28). Log entry 18. -/
def LawfulExecution (σ : Nat → State) : Prop :=
  Execution σ ∧ BackgroundFair σ ∧ ((σ 0).params.envFair = true → EnvironmentFair σ)

/-- The checks V0 to V3 of a two-wire start (40_start.md R111). -/
abbrev State.readyTw (s : State) : Prop :=
  s.params.bus = .tw ∧ s.initDone = true ∧ s.status = .idle ∧ s.hw.busy = false ∧
  s.hw.stopReq = false ∧ s.hw.tc = false ∧ s.hw.stopDet = false

/-- The checks V0 to V2 of `XFER` (40_start.md R116). -/
abbrev State.readyFw (s : State) : Prop :=
  s.params.bus = .fw ∧ s.initDone = true ∧ s.status = .idle ∧ s.hw.txFifo = []

end Sys2Proof.Machine
end

