-- ==== Sys2Proof/Certificates/Slice0/Obligations.lean ====
section
/-! DEFINITION. The statements for the provers, one per docstring's rule or rules of the spec. -/

open Sys2Proof Sys2Proof.Machine

/-! ### Encoding -/

/-- Decoding the word of a command gives the command back (30_encoding.md R85 to R91). -/
def Obligations.DecodeEncodeRoundTrip : Prop := ∀ i : Instr, decode (encode i) = .instr i

/-- A word that decodes to a command is the command's word but for ignored bits
(30_encoding.md R86 to R89, R95). -/
def Obligations.EncodeDecodeKeepsSignificantBits : Prop :=
  ∀ (w : Word) (i : Instr), decode w = .instr i → encode i = w &&& significantBits i

/-- Words that differ in ignored bits alone decode to the same command (30_encoding.md R95). -/
def Obligations.IgnoredBitsNeverChangeMeaning : Prop :=
  ∀ (w w' : Word) (i : Instr), decode w = .instr i →
    w' &&& significantBits i = w &&& significantBits i → decode w' = .instr i

/-- The decoder is the opcode map: a word selects exactly the row of the command it decodes to, and
a reserved word selects no row (30_encoding.md R91). -/
def Obligations.DecoderFollowsOpcodeMap : Prop :=
  (∀ (w : Word) (i : Instr), decode w = .instr i →
    ∀ r ∈ opcodeTable, (w &&& r.mask = r.pattern ↔ r.mnemonic = i.mnemonic)) ∧
  (∀ (w : Word) (why : Reserved), decode w = .reserved why →
    ∀ r ∈ opcodeTable, w &&& r.mask ≠ r.pattern)

/-- A few words of the spec's examples decode to the commands they stand for (40_start.md R110,
R113 to R116, 41_status_ack_buffers.md R134, R136, 95_test_vectors.md). -/
def Obligations.ExampleWordsDecode : Prop :=
  decode 0x10000190#32 = .instr (.init 0x0190#16) ∧
  decode 0x200C002A#32 = .instr (.startW 0x2A#10 3#8) ∧
  decode 0x24000450#32 = .instr (.startR 0x50#10 1#8) ∧
  decode 0x280C0C50#32 = .instr (.startWR 0x50#10 3#8 3#8) ∧
  decode 0x30C80000#32 = .instr (.xfer 50#8) ∧
  decode 0x600002A2#32 = .instr (.wrBuf 2#8 0xA2#8) ∧
  decode 0x70000100#32 = .instr (.rdBuf 1#8) ∧
  decode 0x00000000#32 = .reserved (.opcode 0#4) ∧
  decode 0x2C040450#32 = .reserved .direction

/-! ### The step, the port, the turns -/

/-- A command word at the head of the agenda runs as its command: the step is `exec` of it on the
state with the access consumed (20_memory.md R70, 30_encoding.md R91; the agenda is the model's
choice, log entries 1 and 2). -/
def Obligations.StepRunsDecodedCommand : Prop :=
  ∀ (s : State) (w : Word) (i : Instr) (rest : List Turn),
    s.agenda = .hostWrite s.params.base w :: rest → decode w = .instr i →
    step s = exec i { s with agenda := rest }

/-- A reserved word changes no state and responds 0: an unassigned `op`, `dir = 3`, a command of the
other kind (30_encoding.md R94). -/
def Obligations.ReservedWordChangesNothing : Prop :=
  ∀ (s : State) (w : Word),
    ((w.extractLsb' 28 4 = 0#4 ∨ 8 ≤ (w.extractLsb' 28 4).toNat) ∨
      (w.extractLsb' 28 4 = 2#4 ∧ w.extractLsb' 26 2 = 3#2) ∨
      (w.extractLsb' 28 4 = 2#4 ∧ s.params.bus = .fw) ∨
      (w.extractLsb' 28 4 = 3#4 ∧ s.params.bus = .tw)) →
    portWrite s.params.base w s = .next { s with rsp := 0#32 }

/-- The host port (20_memory.md R70): a read of `BASE + 4` delivers the last response and changes
nothing else. That other accesses fault is the model's choice (log entry 10). -/
def Obligations.PortReadDeliversResponse : Prop :=
  ∀ (s : State),
    portRead (s.params.base + 4) s = .next { s with hostData := s.rsp } ∧
    portRead s.params.base s = .fault .readOfWriteOnly ∧
    (∀ w : Word, portWrite (s.params.base + 4) w s = .fault .writeOfReadOnly) ∧
    (∀ (a : Nat) (w : Word), a ≠ s.params.base → a ≠ s.params.base + 4 →
      portRead a s = .fault (.unmappedAddress a) ∧
      portWrite a w s = .fault (.unmappedAddress a))

/-- How a step takes a turn of each agent, the model's choice (log entry 1): the turn is consumed; a
host access is made at the port, whatever its address and its word; an enabled step of the background or the
environment is taken, one that does not exist passes; and with no turn the block waits
(20_memory.md R70, R72, R73). -/
def Obligations.StepTakesTurns : Prop :=
  ∀ (s : State),
    (s.agenda = [] → step s = .next s) ∧
    (∀ a w rest, s.agenda = .hostWrite a w :: rest →
      step s = portWrite a w { s with agenda := rest }) ∧
    (∀ a rest, s.agenda = .hostRead a :: rest →
      step s = portRead a { s with agenda := rest }) ∧
    (∀ rest, s.agenda = .service :: rest →
      step s = if s.serviceEnabled then service { s with agenda := rest }
        else .next { s with agenda := rest }) ∧
    (∀ e rest, s.agenda = .env e :: rest →
      step s = .next (if s.envEnabled e then ({ s with agenda := rest } : State).envApply e
        else { s with agenda := rest }))

/-- The pending vector and the enabling of the background step (60_exceptions.md R216, R217). -/
def Obligations.PendingVectorBits : Prop :=
  ∀ (s : State),
    (s.params.bus = .tw →
      s.irq.getLsbD 0 = (s.ieNack && s.hw.nack) ∧ s.irq.getLsbD 1 = (s.ieTc && s.hw.tc) ∧
      s.irq.getLsbD 2 = (s.ieStop && s.hw.stopDet) ∧ s.irq.getLsbD 3 = false) ∧
    (s.params.bus = .fw →
      s.irq.getLsbD 0 = false ∧ s.irq.getLsbD 1 = false ∧ s.irq.getLsbD 2 = false ∧
      s.irq.getLsbD 3 =
        (s.ieRx && (decide (1 ≤ s.rxThreshold.toNat) &&
          decide (s.rxThreshold.toNat ≤ s.hw.rxFifo.length)))) ∧
    (s.serviceEnabled = true ↔ s.initDone = true ∧ s.irq ≠ 0#4)

/-! ### Reset -/

/-- The reset value of every piece of state (10_state.md R53). -/
def Obligations.ResetValues : Prop :=
  ∀ p : Params,
    let s := State.resetWith p
    s.initDone = false ∧ s.timing = 0#16 ∧ s.status = .idle ∧
    (s.peerAddress = 0#10 ∧ s.direction = .write ∧ s.writeLength = 0#8 ∧ s.readLength = 0#8) ∧
    (s.nextWriteIndex = 0#8 ∧ s.nextReadIndex = 0#8 ∧ s.bytesRemaining = 0#9) ∧
    s.pendingReadLength = 0#8 ∧ s.errLatched = false ∧ s.stopIssued = false ∧
    (s.ieNack = false ∧ s.ieTc = false ∧ s.ieStop = false ∧ s.ieRx = false) ∧
    s.rxThreshold = 0#5 ∧ s.cs = false ∧
    (∀ i : Nat, s.wbuf.read i = none ∧ s.rbuf.read i = none) ∧
    (s.hw.addr = 0#10 ∧ s.hw.count = 0#8) ∧
    (s.hw.rxMode = false ∧ s.hw.autoStop = false ∧ s.hw.startReq = false ∧
      s.hw.stopReq = false) ∧
    (s.hw.busy = false ∧ s.hw.nack = false ∧ s.hw.tc = false ∧ s.hw.stopDet = false) ∧
    (s.hw.txFifo = [] ∧ s.hw.rxFifo = []) ∧ s.hw.wp = .idle ∧
    (s.wireLog = [] ∧ s.stopCount = 0 ∧ s.fillRounds = 0) ∧ s.rsp = 0#32

/-- The invariant holds right after reset, for legal parameters (10_state.md R28, R53, R55). -/
def Obligations.ResetMeetsTheInvariant : Prop :=
  ∀ p : Params, p.wf → (State.resetWith p).Inv

/-! ### The commands: what each does where it runs, and where it is rejected -/

/-- `INIT` (10_state.md R54, 70_reset_and_hazards.md R243): before it every other command is
rejected, the first one leaves the state of R54, a second one is rejected. -/
def Obligations.InitRunsOnce : Prop :=
  (∀ (s : State) (t : BitVec 16), s.initDone = false →
    exec (.init t) s = .next
      { s with
        initDone := true, timing := t, status := .idle
        ieNack := false, ieTc := false, ieStop := false, ieRx := false
        hw := { s.hw with txFifo := [], rxFifo := [] }
        rsp := 1#32 }) ∧
  (∀ (s : State) (t : BitVec 16), s.initDone = true →
    exec (.init t) s = .next { s with rsp := 0#32 }) ∧
  (∀ (s : State) (i : Instr), s.initDone = false → (∀ t, i ≠ .init t) →
    exec i s = .next { s with rsp := 0#32 })

/-- `START.W` (40_start.md R113 with R111 and R112): its encoding, the state it leaves where the
checks pass, and the rejection where one fails. Nothing else changes but the
model's own position of the next free byte (log entry 22), which a push passes. -/
def Obligations.StartWriteRunsOrIsRejected : Prop :=
  (∀ w : Word, w.extractLsb' 26 6 = 0b001000#6 →
    decode w = .instr (.startW (w.extractLsb' 0 10) (w.extractLsb' 18 8))) ∧
  ∀ (s : State) (a : BitVec 10) (n : BitVec 8),
    (s.readyTw ∧ 1 ≤ n.toNat ∧ n.toNat ≤ s.params.depth →
      ∃ (bytes : List Byte) (d : Nat),
        exec (.startW a n) s = .next
          { s with
            status := .inProgress
            nextWriteIndex := n, nextReadIndex := 0#8, bytesRemaining := 0#9
            errLatched := false, stopIssued := false
            peerAddress := BitVec.ofNat 10 (a.toNat % 2 ^ s.params.addrW)
            direction := .write, writeLength := n, readLength := 0#8
            pendingReadLength := 0#8
            ieNack := true, ieStop := true, ieTc := false
            hw := { s.hw with
              txFifo := bytes, rxFifo := [], nack := false
              addr := BitVec.ofNat 10 (a.toNat % 2 ^ s.params.addrW)
              rxMode := false, count := n, autoStop := true, startReq := true }
            fillRounds := s.fillRounds + 1, draws := d, rsp := 1#32 } ∧
        bytes.length = n.toNat ∧
        ∀ (k : Nat) (b : Byte), k < n.toNat → s.wbuf.read k = some b → bytes[k]? = some b) ∧
    (¬ (s.readyTw ∧ 1 ≤ n.toNat ∧ n.toNat ≤ s.params.depth) →
      exec (.startW a n) s = .next { s with rsp := 0#32 })

/-- `START.R` (40_start.md R114 with R111 and R112): its encoding, the state it leaves where the
checks pass, and the rejection where one fails. Nothing else changes. -/
def Obligations.StartReadRunsOrIsRejected : Prop :=
  (∀ w : Word, w.extractLsb' 26 6 = 0b001001#6 →
    decode w = .instr (.startR (w.extractLsb' 0 10) (w.extractLsb' 10 8))) ∧
  ∀ (s : State) (a : BitVec 10) (m : BitVec 8),
    (s.readyTw ∧ 1 ≤ m.toNat ∧ m.toNat ≤ s.params.depth →
      exec (.startR a m) s = .next
        { s with
          status := .inProgress
          nextWriteIndex := 0#8, nextReadIndex := 0#8, bytesRemaining := m.setWidth 9
          errLatched := false, stopIssued := false
          peerAddress := BitVec.ofNat 10 (a.toNat % 2 ^ s.params.addrW)
          direction := .read, writeLength := 0#8, readLength := m
          pendingReadLength := 0#8
          ieNack := true, ieStop := true, ieTc := false
          hw := { s.hw with
            txFifo := [], rxFifo := [], nack := false
            addr := BitVec.ofNat 10 (a.toNat % 2 ^ s.params.addrW)
            rxMode := true, count := m, autoStop := true, startReq := true }
          rsp := 1#32 }) ∧
    (¬ (s.readyTw ∧ 1 ≤ m.toNat ∧ m.toNat ≤ s.params.depth) →
      exec (.startR a m) s = .next { s with rsp := 0#32 })

/-- `START.WR` (40_start.md R115 with R111 and R112): its encoding, the state it leaves where the
checks pass, and the rejection where one fails. Nothing else changes but the
model's own position of the next free byte (log entry 22), which a push passes. -/
def Obligations.StartWriteReadRunsOrIsRejected : Prop :=
  (∀ w : Word, w.extractLsb' 26 6 = 0b001010#6 →
    decode w =
      .instr (.startWR (w.extractLsb' 0 10) (w.extractLsb' 18 8) (w.extractLsb' 10 8))) ∧
  ∀ (s : State) (a : BitVec 10) (n m : BitVec 8),
    (s.readyTw ∧ (1 ≤ n.toNat ∧ n.toNat ≤ s.params.depth) ∧
        (1 ≤ m.toNat ∧ m.toNat ≤ s.params.depth) →
      ∃ (bytes : List Byte) (d : Nat),
        exec (.startWR a n m) s = .next
          { s with
            status := .inProgress
            nextWriteIndex := n, nextReadIndex := 0#8, bytesRemaining := m.setWidth 9
            errLatched := false, stopIssued := false
            peerAddress := BitVec.ofNat 10 (a.toNat % 2 ^ s.params.addrW)
            direction := .writeThenRead, writeLength := n, readLength := m
            pendingReadLength := m
            ieNack := true, ieStop := true, ieTc := true
            hw := { s.hw with
              txFifo := bytes, rxFifo := [], nack := false
              addr := BitVec.ofNat 10 (a.toNat % 2 ^ s.params.addrW)
              rxMode := false, count := n, autoStop := false, startReq := true }
            fillRounds := s.fillRounds + 1, draws := d, rsp := 1#32 } ∧
        bytes.length = n.toNat ∧
        ∀ (k : Nat) (b : Byte), k < n.toNat → s.wbuf.read k = some b → bytes[k]? = some b) ∧
    (¬ (s.readyTw ∧ (1 ≤ n.toNat ∧ n.toNat ≤ s.params.depth) ∧
        (1 ≤ m.toNat ∧ m.toNat ≤ s.params.depth)) →
      exec (.startWR a n m) s = .next { s with rsp := 0#32 })

/-- `XFER` (40_start.md R116): its encoding, the state it leaves where the checks pass, and the
rejection where one fails. Nothing else changes but the
model's own position of the next free byte (log entry 22), which a push passes. -/
def Obligations.XferRunsOrIsRejected : Prop :=
  (∀ w : Word, w.extractLsb' 28 4 = 3#4 → decode w = .instr (.xfer (w.extractLsb' 18 8))) ∧
  ∀ (s : State) (n : BitVec 8),
    (s.params.wf → s.readyFw ∧ 1 ≤ n.toNat ∧ n.toNat ≤ s.params.fwCap →
      ∃ (bytes : List Byte) (d : Nat),
        exec (.xfer n) s = .next
          { s with
            status := .inProgress
            nextWriteIndex := BitVec.ofNat 8 (min n.toNat s.params.depth), nextReadIndex := 0#8
            bytesRemaining := BitVec.ofNat 9 (2 * n.toNat - min n.toNat s.params.depth)
            errLatched := false, writeLength := n, readLength := n
            cs := true, rxThreshold := BitVec.ofNat 5 (min n.toNat s.params.depth), ieRx := true
            hw := { s.hw with txFifo := bytes, rxFifo := [] }
            wireLog := s.wireLog ++ [.peerSelect true]
            fillRounds := s.fillRounds + 1, draws := d, rsp := 1#32 } ∧
        bytes.length = min n.toNat s.params.depth ∧
        ∀ (k : Nat) (b : Byte), k < min n.toNat s.params.depth → s.wbuf.read k = some b →
          bytes[k]? = some b) ∧
    (¬ (s.readyFw ∧ 1 ≤ n.toNat ∧ n.toNat ≤ s.params.fwCap) →
      exec (.xfer n) s = .next { s with rsp := 0#32 })

/-- No double start, and the length bound (40_start.md R117): a start command while a transaction is
in progress, or with a used write length of 0 or above `CAP`, changes nothing and responds 0; and
whenever a start command responds 0 it has changed nothing at all. -/
def Obligations.RejectedStartChangesNothing : Prop :=
  ∀ (s : State) (i : Instr), i.isStart = true →
    (s.status ≠ .idle → exec i s = .next { s with rsp := 0#32 }) ∧
    (∀ (n : BitVec 8), ((∃ a, i = .startW a n) ∨ (∃ a m, i = .startWR a n m) ∨ i = .xfer n) →
      n.toNat = 0 ∨ s.params.cap < n.toNat → exec i s = .next { s with rsp := 0#32 }) ∧
    (∀ t, exec i s = .next t → t.rsp = 0#32 → t = { s with rsp := 0#32 })

/-- `GETSTATUS` (41_status_ack_buffers.md R130): its encoding, the response, and no other change. -/
def Obligations.GetStatusReports : Prop :=
  (∀ w : Word, w.extractLsb' 28 4 = 4#4 → decode w = .instr .getStatus) ∧
  ∀ (s : State),
    (s.initDone = true →
      exec .getStatus s = .next
        { s with
          rsp :=
            if s.params.bus = .tw ∧ s.hw.busy = true ∧ (s.status = .idle ∨ s.status = .finished)
            then 1#32
            else match s.status with
              | .idle => 0#32
              | .inProgress => 1#32
              | .finished => 2#32
              | .error => 3#32 }) ∧
    (s.initDone = false → exec .getStatus s = .next { s with rsp := 0#32 })

/-- `ACKIDLE` (41_status_ack_buffers.md R132): its encoding; it tests the raw status and writes
`status` alone. -/
def Obligations.AckIdleReleasesTerminalStatus : Prop :=
  (∀ w : Word, w.extractLsb' 28 4 = 5#4 → decode w = .instr .ackIdle) ∧
  ∀ (s : State),
    (s.initDone = true → s.status ≠ .inProgress →
      exec .ackIdle s = .next { s with status := .idle, rsp := 1#32 }) ∧
    (s.initDone = true → s.status = .inProgress →
      exec .ackIdle s = .next { s with rsp := 0#32 }) ∧
    (s.initDone = false → exec .ackIdle s = .next { s with rsp := 0#32 })

/-- `WRBUF` (41_status_ack_buffers.md R134): its encoding; in every status it stores the byte at its
index and leaves every other write-buffer byte and all else alone; an index out of range changes
nothing. -/
def Obligations.WriteBufferStoresOneByte : Prop :=
  (∀ w : Word, w.extractLsb' 28 4 = 6#4 →
    decode w = .instr (.wrBuf (w.extractLsb' 8 8) (w.extractLsb' 0 8))) ∧
  ∀ (s : State) (i : BitVec 8) (b : Byte),
    (s.initDone = true → i.toNat < s.params.cap →
      ∃ m : Memory,
        exec (.wrBuf i b) s = .next { s with wbuf := m, rsp := 1#32 } ∧
        m.read i.toNat = some b ∧ ∀ a : Nat, a ≠ i.toNat → m.read a = s.wbuf.read a) ∧
    (s.initDone = false ∨ s.params.cap ≤ i.toNat →
      exec (.wrBuf i b) s = .next { s with rsp := 0#32 })

/-- `RDBUF` (41_status_ack_buffers.md R136): its encoding; the stored byte in raw `Finished` below
the cursor; a response with `ok = 1` and a free data field elsewhere; 0 for an index out of range.
Nothing else changes but the model's own position of the next free byte (log entry 22). -/
def Obligations.ReadBufferRespondsWithData : Prop :=
  (∀ w : Word, w.extractLsb' 28 4 = 7#4 → decode w = .instr (.rdBuf (w.extractLsb' 8 8))) ∧
  ∀ (s : State) (i : BitVec 8),
    (s.initDone = true → i.toNat < s.params.cap →
      ∃ (v : Byte) (d : Nat),
        exec (.rdBuf i) s = .next { s with rsp := 0x100#32 ||| v.setWidth 32, draws := d } ∧
        ∀ b, s.status = .finished → i.toNat < s.nextReadIndex.toNat →
          s.rbuf.read i.toNat = some b → v = b) ∧
    (s.initDone = false ∨ s.params.cap ≤ i.toNat →
      exec (.rdBuf i) s = .next { s with rsp := 0#32 })

/-- What a foreground command never writes (60_exceptions.md R225, 20_memory.md R69): the read
buffer; the error latch and `hw.nack` but to clear them; `hw.tc`, `hw.stopDet`, `hw.stopReq`,
`hw.busy` and the wire phase; the count of stop requests; the parameters; and the write buffer
unless it is `WRBUF`. -/
def Obligations.CommandsLeaveBackgroundStateAlone : Prop :=
  ∀ (s t : State) (i : Instr), exec i s = .next t →
    t.params = s.params ∧ t.rbuf = s.rbuf ∧ t.stopCount = s.stopCount ∧ t.agenda = s.agenda ∧
    t.hostData = s.hostData ∧
    (t.errLatched = s.errLatched ∨ t.errLatched = false) ∧
    (t.stopIssued = s.stopIssued ∨ t.stopIssued = false) ∧
    (t.cs = s.cs ∨ t.cs = true) ∧
    (t.hw.busy = s.hw.busy ∧ t.hw.wp = s.hw.wp ∧ t.hw.stopReq = s.hw.stopReq ∧
      t.hw.tc = s.hw.tc ∧ t.hw.stopDet = s.hw.stopDet) ∧
    (t.hw.nack = s.hw.nack ∨ t.hw.nack = false) ∧
    ((∀ j b, i ≠ .wrBuf j b) → t.wbuf = s.wbuf) ∧
    ((∀ x, i ≠ .init x) → t.initDone = s.initDone ∧ t.timing = s.timing)

/-! ### The background service step -/

/-- Part `N` (42_service_tw.md R147): a pending negative-acknowledgement latches the error, is
cleared, and requests one stop condition; with none pending nothing of this changes. -/
def Obligations.NackLatchesErrorAndRequestsOneStop : Prop :=
  ∀ (s t : State), s.params.bus = .tw → service s = .next t →
    (s.ieNack = true ∧ s.hw.nack = true →
      t.errLatched = true ∧ t.hw.nack = false ∧
      (s.stopIssued = false →
        t.hw.stopReq = true ∧ t.stopIssued = true ∧ t.stopCount = s.stopCount + 1) ∧
      (s.stopIssued = true →
        t.hw.stopReq = s.hw.stopReq ∧ t.stopIssued = true ∧ t.stopCount = s.stopCount)) ∧
    (¬ (s.ieNack = true ∧ s.hw.nack = true) →
      t.errLatched = s.errLatched ∧ t.hw.nack = s.hw.nack ∧ t.hw.stopReq = s.hw.stopReq ∧
      t.stopIssued = s.stopIssued ∧ t.stopCount = s.stopCount) ∧
    (¬ (s.ieStop = true ∧ s.hw.stopDet = true) → t.status = s.status)

/-- Part `T` (42_service_tw.md R148): the event is consumed; with no error latched the read phase is
armed by a repeated start, with one it is not; the address stays. That a negative-acknowledgement
pending together with the event suppresses the repeated start rests on decision D38
(92_eei_decisions.md, 93_implementation_defined.md U8). -/
def Obligations.TransferCompleteArmsReadPhase : Prop :=
  ∀ (s t : State), s.params.bus = .tw → service s = .next t →
    t.hw.addr = s.hw.addr ∧
    (s.ieTc = true ∧ s.hw.tc = true →
      t.ieTc = false ∧ t.hw.tc = false ∧ t.pendingReadLength = 0#8 ∧
      (s.errLatched = false ∧ ¬ (s.ieNack = true ∧ s.hw.nack = true) →
        t.hw.rxMode = true ∧ t.hw.count = s.pendingReadLength ∧ t.hw.autoStop = true ∧
        t.hw.startReq = true) ∧
      (s.errLatched = true ∨ (s.ieNack = true ∧ s.hw.nack = true) →
        t.hw.rxMode = s.hw.rxMode ∧ t.hw.count = s.hw.count ∧
        t.hw.autoStop = s.hw.autoStop ∧ t.hw.startReq = s.hw.startReq)) ∧
    (¬ (s.ieTc = true ∧ s.hw.tc = true) →
      t.hw.tc = s.hw.tc ∧ t.pendingReadLength = s.pendingReadLength ∧
      t.hw.rxMode = s.hw.rxMode ∧ t.hw.count = s.hw.count ∧ t.hw.autoStop = s.hw.autoStop ∧
      t.hw.startReq = s.hw.startReq ∧ (s.hw.stopDet = false → t.ieTc = s.ieTc))

/-- Part `C` on `TW` (42_service_tw.md R152): on the stop-detected signal the sources are disabled
and the status becomes `Error` where a negative-acknowledgement was latched, this step's included,
`Finished` where none was; without it the status, the flag and the enables of this part stay. -/
def Obligations.StopDetectedCompletesTransaction : Prop :=
  ∀ (s t : State), s.params.bus = .tw → service s = .next t →
    (s.ieStop = true ∧ s.hw.stopDet = true →
      t.hw.stopDet = false ∧
      t.ieNack = false ∧ t.ieTc = false ∧ t.ieStop = false ∧ t.ieRx = false ∧
      t.status =
        if s.errLatched = true ∨ (s.ieNack = true ∧ s.hw.nack = true) then .error
        else .finished) ∧
    (¬ (s.ieStop = true ∧ s.hw.stopDet = true) →
      t.hw.stopDet = s.hw.stopDet ∧ t.ieNack = s.ieNack ∧ t.ieStop = s.ieStop ∧
      t.ieRx = s.ieRx ∧ t.status = s.status)

/-- What no part of the `TW` service step does (42_service_tw.md R151): it writes no transaction
register, no parameter of the phase's address, neither `cs` nor `rxThreshold`, not the write buffer;
nor the wire's side of the adapter, the log, or the host port. -/
def Obligations.TwServiceFrame : Prop :=
  ∀ (s t : State), s.params.bus = .tw → service s = .next t →
    t.peerAddress = s.peerAddress ∧ t.direction = s.direction ∧
    t.writeLength = s.writeLength ∧ t.readLength = s.readLength ∧ t.hw.addr = s.hw.addr ∧
    t.cs = s.cs ∧ t.rxThreshold = s.rxThreshold ∧ t.wbuf = s.wbuf ∧
    (t.ieRx = s.ieRx ∨ (s.ieStop = true ∧ s.hw.stopDet = true ∧ t.ieRx = false)) ∧
    (t.status = s.status ∨ (s.ieStop = true ∧ s.hw.stopDet = true)) ∧
    t.params = s.params ∧ t.initDone = s.initDone ∧ t.timing = s.timing ∧ t.rsp = s.rsp ∧
    t.hostData = s.hostData ∧ t.agenda = s.agenda ∧ t.wireLog = s.wireLog ∧
    t.hw.busy = s.hw.busy ∧ t.hw.wp = s.hw.wp

/-- Part `D` of either kind (42_service_tw.md R149, 43_service_fw.md R166): the received bytes, at
most as many as are still expected, move in arrival order into the read buffer at the cursor; no
other read-buffer byte changes. -/
def Obligations.DrainStoresReceivedBytes : Prop :=
  ∀ (s t : State), s.params.wf → service s = .next t →
    let p := min s.hw.rxFifo.length (s.readLength.toNat - s.nextReadIndex.toNat)
    t.hw.rxFifo = s.hw.rxFifo.drop p ∧
    t.nextReadIndex = s.nextReadIndex + BitVec.ofNat 8 p ∧
    (∀ k : Nat, k < p → t.rbuf.read (s.nextReadIndex.toNat + k) = s.hw.rxFifo[k]?) ∧
    (∀ a : Nat, a < s.nextReadIndex.toNat ∨ s.nextReadIndex.toNat + p ≤ a →
      t.rbuf.read a = s.rbuf.read a)

/-- Part `F` of either kind (42_service_tw.md R150, 43_service_fw.md R167): the next unsent
write-buffer bytes enter the transmit FIFO in index order, on `FW` no more than were just drained;
the cursor, the fill rounds and, on `FW`, the threshold follow. -/
def Obligations.FillPushesNextBytes : Prop :=
  ∀ (s t : State), s.params.wf → service s = .next t →
    let p := min s.hw.rxFifo.length (s.readLength.toNat - s.nextReadIndex.toNat)
    let room := min (s.writeLength.toNat - s.nextWriteIndex.toNat)
      (s.params.depth - s.hw.txFifo.length)
    let k := match s.params.bus with
      | .tw => room
      | .fw => min p room
    (∃ bytes : List Byte,
      t.hw.txFifo = s.hw.txFifo ++ bytes ∧ bytes.length = k ∧
      ∀ (j : Nat) (b : Byte), j < k → s.wbuf.read (s.nextWriteIndex.toNat + j) = some b →
        bytes[j]? = some b) ∧
    t.nextWriteIndex = s.nextWriteIndex + BitVec.ofNat 8 k ∧
    t.bytesRemaining = s.bytesRemaining - BitVec.ofNat 9 p - BitVec.ofNat 9 k ∧
    t.fillRounds = s.fillRounds + (if k = 0 then 0 else 1) ∧
    (s.params.bus = .fw →
      t.rxThreshold = if k = 0 then s.rxThreshold else BitVec.ofNat 5 k)

/-- Part `C` on `FW` (43_service_fw.md R169): with `bytesRemaining` at 0 after the drain and the
fill, the sources are disabled, the status is `Finished` and the peer select is released; otherwise
none of this changes. -/
def Obligations.CursorCompletesFourWireTransfer : Prop :=
  ∀ (s t : State), s.params.bus = .fw → service s = .next t →
    (t.bytesRemaining = 0#9 →
      t.ieNack = false ∧ t.ieTc = false ∧ t.ieStop = false ∧ t.ieRx = false ∧
      t.status = .finished ∧ t.cs = false ∧ t.wireLog = s.wireLog ++ [.peerSelect false]) ∧
    (t.bytesRemaining ≠ 0#9 →
      t.ieNack = s.ieNack ∧ t.ieTc = s.ieTc ∧ t.ieStop = s.ieStop ∧ t.ieRx = s.ieRx ∧
      t.status = s.status ∧ t.cs = s.cs ∧ t.wireLog = s.wireLog)

/-- What the `FW` service step leaves alone (43_service_fw.md R166 to R169, what its parts write):
with the fields its parts write put back, the state is the one before. -/
def Obligations.FwServiceFrame : Prop :=
  ∀ (s t : State), s.params.bus = .fw → service s = .next t →
    { t with
      rbuf := s.rbuf
      hw := { t.hw with txFifo := s.hw.txFifo, rxFifo := s.hw.rxFifo }
      nextReadIndex := s.nextReadIndex, nextWriteIndex := s.nextWriteIndex
      bytesRemaining := s.bytesRemaining, rxThreshold := s.rxThreshold
      fillRounds := s.fillRounds, draws := s.draws
      ieNack := s.ieNack, ieTc := s.ieTc, ieStop := s.ieStop, ieRx := s.ieRx
      status := s.status, cs := s.cs, wireLog := s.wireLog } = s

/-- An enabled background step of a state with the invariant is taken: it answers a next state, so
the engine never forms a buffer index of `CAP` or more (20_memory.md R66). -/
def Obligations.EnabledServiceNeverFaults : Prop :=
  ∀ s : State, s.Inv → s.serviceEnabled = true → ∃ t, runTurn .service s = .next t

/-! ### The environment -/

/-- `ENV START(ack, t)` (44_adapter_contract.md R184). -/
def Obligations.EnvStartSendsAddress : Prop :=
  ∀ (s : State) (ack t : Bool), s.params.bus = .tw → s.hw.startReq = true →
    (s.hw.wp = .idle ∨ s.hw.wp = .hold) →
    runEnv (.start ack t) s = .next
      { s with
        wireLog := s.wireLog ++
          [if s.hw.wp = .hold then .repeatedStart s.hw.addr s.hw.rxMode ack
            else .start s.hw.addr s.hw.rxMode ack]
        hw := { s.hw with
          startReq := false, busy := true
          wp := if ack = true then .data else .hold
          nack := if ack = true then s.hw.nack else true
          tc := if ack = false ∧ s.hw.autoStop = false ∧ t = true then true else s.hw.tc } }

/-- `ENV TX(ack)` (44_adapter_contract.md R186). -/
def Obligations.EnvTxMovesOneByte : Prop :=
  ∀ (s : State) (ack : Bool) (v : Byte) (rest : List Byte), s.params.bus = .tw →
    s.hw.wp = .data → s.hw.rxMode = false → 0 < s.hw.count.toNat → s.hw.txFifo = v :: rest →
    runEnv (.tx ack) s = .next
      { s with
        wireLog := s.wireLog ++ [.transmitted v ack]
        hw := { s.hw with
          txFifo := rest
          count := if ack = true then s.hw.count - 1#8 else s.hw.count
          nack := if ack = true then s.hw.nack else true
          wp := if ack = true then .data else .hold } }

/-- `ENV RX(b)` (44_adapter_contract.md R187). -/
def Obligations.EnvRxReceivesOneByte : Prop :=
  ∀ (s : State) (b : Byte), s.params.bus = .tw → s.hw.wp = .data → s.hw.rxMode = true →
    0 < s.hw.count.toNat → s.hw.rxFifo.length < s.params.depth →
    runEnv (.rx b) s = .next
      { s with
        wireLog := s.wireLog ++ [.received b]
        hw := { s.hw with rxFifo := s.hw.rxFifo ++ [b], count := s.hw.count - 1#8 } }

/-- `ENV END` (44_adapter_contract.md R188, R189): the event without automatic stop, the stop
condition with it. -/
def Obligations.EnvEndRaisesEventOrStop : Prop :=
  ∀ (s : State) (linger : Bool), s.params.bus = .tw → s.hw.wp = .data →
    s.hw.count.toNat = 0 →
    (s.hw.autoStop = false →
      runEnv (.phaseEnd linger) s = .next
        { s with hw := { s.hw with tc := true, wp := .hold } }) ∧
    (s.hw.autoStop = true →
      runEnv (.phaseEnd linger) s = .next
        { s with
          wireLog := s.wireLog ++ [.stop]
          hw := { s.hw with stopDet := true, wp := .idle, busy := linger } })

/-- `ENV STOP(linger)` and `ENV BUSYREL` (44_adapter_contract.md R190, R191). -/
def Obligations.EnvStopReleasesBus : Prop :=
  (∀ (s : State) (linger : Bool), s.params.bus = .tw → s.hw.stopReq = true →
    (s.hw.wp = .data ∨ s.hw.wp = .hold) →
    runEnv (.stop linger) s = .next
      { s with
        wireLog := s.wireLog ++ [.stop]
        hw := { s.hw with stopReq := false, stopDet := true, wp := .idle, busy := linger } }) ∧
  (∀ (s : State), s.params.bus = .tw → s.hw.wp = .idle → s.hw.busy = true →
    s.hw.startReq = false →
    runEnv .busyRel s = .next { s with hw := { s.hw with busy := false } })

/-- `ENV XCHG(b)` (44_adapter_contract.md R193): one byte out for one byte in. -/
def Obligations.EnvXchgExchangesOneByte : Prop :=
  ∀ (s : State) (b v : Byte) (rest : List Byte), s.params.bus = .fw → s.hw.txFifo = v :: rest →
    s.hw.rxFifo.length < s.params.depth →
    runEnv (.xchg b) s = .next
      { s with
        wireLog := s.wireLog ++ [.exchanged v b]
        hw := { s.hw with txFifo := rest, rxFifo := s.hw.rxFifo ++ [b] } }

/-- What the environment does and nothing else (44_adapter_contract.md R182): it never touches an
engine register, a buffer or `cs`, nor the registers it only reads; it only sets the flags, only
clears the requests, and only appends to the log. -/
def Obligations.EnvironmentNeverTouchesEngine : Prop :=
  ∀ (s t : State) (e : EnvStep), runEnv e s = .next t →
    { t with hw := s.hw, wireLog := s.wireLog } = s ∧
    t.hw.addr = s.hw.addr ∧ t.hw.rxMode = s.hw.rxMode ∧ t.hw.autoStop = s.hw.autoStop ∧
    (t.hw.startReq = true → s.hw.startReq = true) ∧
    (t.hw.stopReq = true → s.hw.stopReq = true) ∧
    (s.hw.nack = true → t.hw.nack = true) ∧ (s.hw.tc = true → t.hw.tc = true) ∧
    (s.hw.stopDet = true → t.hw.stopDet = true) ∧
    (t.hw.count = s.hw.count ∨ t.hw.count.toNat + 1 = s.hw.count.toNat) ∧
    (t.hw.txFifo = s.hw.txFifo ∨ t.hw.txFifo = s.hw.txFifo.drop 1) ∧
    (t.hw.rxFifo = s.hw.rxFifo ∨ ∃ b, t.hw.rxFifo = s.hw.rxFifo ++ [b]) ∧
    (t.wireLog = s.wireLog ∨ ∃ x, t.wireLog = s.wireLog ++ [x])

/-- No step of the environment exists where its precondition fails, nor on the other kind
(44_adapter_contract.md R184 to R194): such a turn leaves the state as it is, the model's choice of
how it passes (log entry 1). -/
def Obligations.DisabledEnvironmentTurnsPass : Prop :=
  ∀ s : State,
    (¬ (s.params.bus = .tw ∧ s.hw.startReq = true ∧ (s.hw.wp = .idle ∨ s.hw.wp = .hold)) →
      ∀ ack t : Bool, runEnv (.start ack t) s = .next s) ∧
    (¬ (s.params.bus = .tw ∧ s.hw.wp = .data ∧ s.hw.rxMode = false ∧ 0 < s.hw.count.toNat ∧
        s.hw.txFifo ≠ []) →
      ∀ ack : Bool, runEnv (.tx ack) s = .next s) ∧
    (¬ (s.params.bus = .tw ∧ s.hw.wp = .data ∧ s.hw.rxMode = true ∧ 0 < s.hw.count.toNat ∧
        s.hw.rxFifo.length < s.params.depth) →
      ∀ b : Byte, runEnv (.rx b) s = .next s) ∧
    (¬ (s.params.bus = .tw ∧ s.hw.wp = .data ∧ s.hw.count.toNat = 0) →
      ∀ linger : Bool, runEnv (.phaseEnd linger) s = .next s) ∧
    (¬ (s.params.bus = .tw ∧ s.hw.stopReq = true ∧ (s.hw.wp = .data ∨ s.hw.wp = .hold)) →
      ∀ linger : Bool, runEnv (.stop linger) s = .next s) ∧
    (¬ (s.params.bus = .tw ∧ s.hw.wp = .idle ∧ s.hw.busy = true ∧ s.hw.startReq = false) →
      runEnv .busyRel s = .next s) ∧
    (¬ (s.params.bus = .fw ∧ s.hw.txFifo ≠ [] ∧ s.hw.rxFifo.length < s.params.depth) →
      ∀ b : Byte, runEnv (.xchg b) s = .next s)

/-! ### The whole machine -/

/-- Every step, of any agent, keeps the invariant (10_state.md R28, R55, 20_memory.md R60). -/
def Obligations.StepKeepsTheInvariant : Prop :=
  ∀ s s' : State, s.Inv → step s = .next s' → s'.Inv

/-- No step changes the parameters of the instance, or undoes `INIT` (00_scope.md R8,
10_state.md R24). -/
def Obligations.StepKeepsConfiguration : Prop :=
  ∀ s s' : State, step s = .next s' →
    s'.params = s.params ∧ (s.initDone = true → s'.initDone = true ∧ s'.timing = s.timing)

/-- The cursor bounds of every reachable state (10_state.md R28). -/
def Obligations.ReachableCursorBounds : Prop :=
  ∀ (p : Params) (s : State), p.wf → Reachable p s →
    s.nextWriteIndex.toNat ≤ s.writeLength.toNat ∧ s.writeLength.toNat ≤ s.params.cap ∧
    s.nextReadIndex.toNat ≤ s.readLength.toNat ∧ s.readLength.toNat ≤ s.params.cap ∧
    (s.status = .inProgress →
      s.bytesRemaining.toNat =
        (s.writeLength.toNat - s.nextWriteIndex.toNat)
          + (s.readLength.toNat - s.nextReadIndex.toNat) ∧
      s.bytesRemaining.toNat ≤ 510)

/-- The six invariants of reachable states (10_state.md R55). -/
def Obligations.ReachableStateInvariants : Prop :=
  ∀ (p : Params) (s : State), p.wf → Reachable p s →
    (s.status ≠ .inProgress →
      s.ieNack = false ∧ s.ieTc = false ∧ s.ieStop = false ∧ s.ieRx = false) ∧
    (s.status ≠ .inProgress →
      s.hw.startReq = false ∧ s.hw.stopReq = false ∧
      s.hw.nack = false ∧ s.hw.tc = false ∧ s.hw.stopDet = false) ∧
    (s.params.bus = .tw → s.status ≠ .inProgress → s.hw.wp = .idle) ∧
    (s.stopIssued = true → s.errLatched = true) ∧
    (s.params.bus = .fw → s.status = .inProgress →
      s.hw.txFifo.length + s.hw.rxFifo.length =
        s.nextWriteIndex.toNat - s.nextReadIndex.toNat ∧
      s.hw.txFifo.length ≤ s.params.depth ∧ s.hw.rxFifo.length ≤ s.params.depth) ∧
    (s.params.bus = .fw → (s.cs = true ↔ s.status = .inProgress))

/-- The status changes only along its edges (10_state.md R21). -/
def Obligations.StatusChangesOnlyAlongEdges : Prop :=
  ∀ (p : Params) (s s' : State), p.wf → Reachable p s → step s = .next s' →
    s'.status = s.status ∨ StatusEdge s.status s'.status

/-- Who writes the status (10_state.md R22): the foreground only `Idle -> InProgress` in a start
command and `Finished`, `Error -> Idle` in `ACKIDLE`; the background only `InProgress -> Finished`
and `InProgress -> Error`; the environment never. -/
def Obligations.StatusWriters : Prop :=
  ∀ s t : State, s.Inv →
    (∀ i : Instr, exec i s = .next t → t.status ≠ s.status →
      (i.isStart = true ∧ s.status = .idle ∧ t.status = .inProgress) ∨
      (i = .ackIdle ∧ (s.status = .finished ∨ s.status = .error) ∧ t.status = .idle)) ∧
    (runTurn .service s = .next t → t.status ≠ s.status →
      s.status = .inProgress ∧ (t.status = .finished ∨ t.status = .error)) ∧
    (∀ e : EnvStep, runTurn (.env e) s = .next t → t.status = s.status)

/-- Completion monotonicity (41_status_ack_buffers.md R133): a terminal status stays until an
`ACKIDLE` succeeds, which sets it to `Idle`. -/
def Obligations.TerminalStatusIsSticky : Prop :=
  ∀ s s' : State, s.Inv → (s.status = .finished ∨ s.status = .error) → step s = .next s' →
    s'.status = s.status ∨
    (s'.status = .idle ∧ s'.rsp = 1#32 ∧
      ∃ w rest, s.agenda = .hostWrite s.params.base w :: rest ∧ decode w = .instr .ackIdle)

/-- After completion no step writes the read buffer before a start command begins a new transaction
(20_memory.md R72 (b)): a step that begins with no transaction in progress leaves every byte of it,
and the number of valid bytes unless it is a start command that succeeds. -/
def Obligations.ReadBufferStaysAfterCompletion : Prop :=
  ∀ s s' : State, s.Inv → s.status ≠ .inProgress → step s = .next s' →
    s'.rbuf = s.rbuf ∧ (s'.status ≠ .inProgress → s'.nextReadIndex = s.nextReadIndex)

/-- On `FW` no error exists: the latch is never set and `Error` is unreachable
(60_exceptions.md R213). -/
def Obligations.FourWireNeverErrors : Prop :=
  ∀ (p : Params) (s : State), p.wf → p.bus = .fw → Reachable p s →
    s.errLatched = false ∧ s.status ≠ .error

/-- The engine requests a stop condition at most once in a transaction (42_service_tw.md R147,
R153): a step that counts a request finds `stopIssued` 0 and leaves it 1, and only a start command
that begins a transaction sets it back. -/
def Obligations.StopRequestedAtMostOnce : Prop :=
  ∀ s s' : State, step s = .next s' →
    (s'.stopCount = s.stopCount ∨
      (s'.stopCount = s.stopCount + 1 ∧ s.stopIssued = false ∧ s'.stopIssued = true ∧
        s'.errLatched = true)) ∧
    (s.stopIssued = true → s'.stopIssued = false →
      s.status = .idle ∧ s'.status = .inProgress)

/-! ### Whole transactions -/

/-- Chunking correctness (43_service_fw.md R170): an `XFER` of `n` bytes that reaches `Finished`, in
any interleaving, took exactly `ceil(n / DEPTH)` fill rounds and as many `SERVICE` steps; the wire
saw the peer select asserted, `n` exchanges and the peer select released; the read buffer holds the
byte each exchange returned; and where no `WRBUF` intervenes, exchange `k` sent write-buffer byte
`k`. -/
def Obligations.FourWireChunkingIsCorrect : Prop :=
  ∀ (s t u : State) (n : BitVec 8) (ts : List Turn), s.Inv → exec (.xfer n) s = .next t →
    t.rsp = 1#32 → TransactionRun ts t u → u.status = .finished →
    u.fillRounds = s.fillRounds + (n.toNat + s.params.depth - 1) / s.params.depth ∧
    ts.count .service = (n.toNat + s.params.depth - 1) / s.params.depth ∧
    ∃ xs : List (Byte × Byte),
      xs.length = n.toNat ∧
      u.wireLog = s.wireLog ++ [.peerSelect true]
        ++ xs.map (fun x => .exchanged x.1 x.2) ++ [.peerSelect false] ∧
      (∀ k : Nat, k < n.toNat → u.rbuf.read k = (xs[k]?).map Prod.snd) ∧
      ((∀ x ∈ ts, x.isWrBuf = false) →
        ∀ (k : Nat) (b : Byte), k < n.toNat → s.wbuf.read k = some b →
          (xs[k]?).map Prod.fst = some b)

/-- A write-then-read that reaches `Finished`, in any interleaving (42_service_tw.md R153, R154,
20_memory.md R63): one start, the write-buffer bytes in order, one repeated start to the same peer,
the received bytes, one stop; the read buffer holds the received bytes in order; two `SERVICE`
steps; no stop requested by the engine. -/
def Obligations.WriteThenReadDelivers : Prop :=
  ∀ (s t u : State) (a : BitVec 10) (n m : BitVec 8) (ts : List Turn), s.Inv →
    exec (.startWR a n m) s = .next t → t.rsp = 1#32 → TransactionRun ts t u →
    u.status = .finished →
    ts.count .service = 2 ∧ u.stopCount = s.stopCount ∧
    ∃ out back : List Byte,
      out.length = n.toNat ∧ back.length = m.toNat ∧
      u.wireLog = s.wireLog ++ [.start t.peerAddress false true]
        ++ out.map (fun b => .transmitted b true)
        ++ [.repeatedStart t.peerAddress true true]
        ++ back.map (fun b => .received b) ++ [.stop] ∧
      (∀ (k : Nat) (b : Byte), k < n.toNat → s.wbuf.read k = some b → out[k]? = some b) ∧
      (∀ k : Nat, k < m.toNat → u.rbuf.read k = back[k]?)

/-- A pure write that reaches `Finished`, in any interleaving (42_service_tw.md R153, 20_memory.md
R63): one start, the write-buffer bytes in order, one stop; one `SERVICE` step; the read buffer
untouched. -/
def Obligations.PureWriteDelivers : Prop :=
  ∀ (s t u : State) (a : BitVec 10) (n : BitVec 8) (ts : List Turn), s.Inv →
    exec (.startW a n) s = .next t → t.rsp = 1#32 → TransactionRun ts t u →
    u.status = .finished →
    ts.count .service = 1 ∧ u.stopCount = s.stopCount ∧ u.rbuf = s.rbuf ∧
    ∃ out : List Byte,
      out.length = n.toNat ∧
      u.wireLog = s.wireLog ++ [.start t.peerAddress false true]
        ++ out.map (fun b => .transmitted b true) ++ [.stop] ∧
      (∀ (k : Nat) (b : Byte), k < n.toNat → s.wbuf.read k = some b → out[k]? = some b)

/-- A pure read that reaches `Finished`, in any interleaving (42_service_tw.md R153, 20_memory.md
R63): one start, the received bytes, one stop; one `SERVICE` step; the read buffer holds the
received bytes in order. -/
def Obligations.PureReadDelivers : Prop :=
  ∀ (s t u : State) (a : BitVec 10) (m : BitVec 8) (ts : List Turn), s.Inv →
    exec (.startR a m) s = .next t → t.rsp = 1#32 → TransactionRun ts t u →
    u.status = .finished →
    ts.count .service = 1 ∧ u.stopCount = s.stopCount ∧
    ∃ back : List Byte,
      back.length = m.toNat ∧
      u.wireLog = s.wireLog ++ [.start t.peerAddress true true]
        ++ back.map (fun b => .received b) ++ [.stop] ∧
      (∀ k : Nat, k < m.toNat → u.rbuf.read k = back[k]?)

/-- The error path (42_service_tw.md R155): a transaction that has ended, in any interleaving, ended
in `Error` exactly where the peer rejected the address or a byte; and then the wire saw exactly one
stop condition, its last event, which the engine requested, and no read-buffer byte was written.
The count of `SERVICE` steps, two and one more where a read phase was armed, is the model's reading
of the rules of the parts and differs from R153's two (log entry 23). -/
def Obligations.ErrorPathReleasesBusOnce : Prop :=
  ∀ (s t u : State) (i : Instr) (ts : List Turn), s.Inv → i.isStart = true →
    exec i s = .next t → t.rsp = 1#32 → TransactionRun ts t u → u.status ≠ .inProgress →
    ∃ log : List WireEvent,
      u.wireLog = s.wireLog ++ log ∧
      (u.status = .error ↔ ∃ x ∈ log, x.isNack = true) ∧
      (u.status = .error →
        log.count .stop = 1 ∧ log.getLast? = some .stop ∧ u.stopCount = s.stopCount + 1 ∧
        u.rbuf = s.rbuf ∧ u.nextReadIndex = 0#8 ∧ (∀ x ∈ log, x.isReceived = false) ∧
        ts.count .service = 2 + log.countP WireEvent.isRepeatedStart)

/-- A transaction in progress is never without a step of the background or the environment, whatever
the peer answers (44_adapter_contract.md R195). -/
def Obligations.InProgressIsNeverStuck : Prop :=
  ∀ s : State, s.Inv → s.status = .inProgress →
    ∃ t : Turn, t.advances = true ∧ s.offers t = true

/-- Every step of the background or the environment brings a transaction in progress nearer its end,
and no command sets it back (44_adapter_contract.md R195). The rank is the model's own; the
statement assumes no fairness. -/
def Obligations.ProgressRankFalls : Prop :=
  ∀ (s s' : State) (t : Turn), s.Inv → s.status = .inProgress → s.offers t = true →
    runTurn t s = .next s' →
    (t.advances = true → s'.status ≠ .inProgress ∨ s'.rank < s.rank) ∧
    (t.advances = false → s'.status = .inProgress ∧ s'.rank = s.rank)

/-- Whether a transaction ends (44_adapter_contract.md R195, 70_reset_and_hazards.md R257,
60_exceptions.md R214; what a fair execution is: log entry 18): in every lawful execution of an
instance with `ENV_FAIR`, a transaction in progress reaches `Finished` or `Error`; without
`ENV_FAIR`, a transaction whose environment takes no step may stay `InProgress` for ever. -/
def Obligations.TransactionsEndUnderFairness : Prop :=
  (∀ σ : Nat → State, LawfulExecution σ → (σ 0).Inv → (σ 0).params.envFair = true →
    ∀ n : Nat, (σ n).status = .inProgress →
      ∃ m : Nat, n < m ∧ ((σ m).status = .finished ∨ (σ m).status = .error)) ∧
  (∀ s : State, s.Inv → s.status = .inProgress → s.serviceEnabled = false →
    s.params.envFair = false → s.agenda = [] →
    ∃ σ : Nat → State, σ 0 = s ∧ LawfulExecution σ ∧ ∀ n : Nat, (σ n).status = .inProgress)

/-! ### Pseudo-operations, several instances -/

/-- `LOAD` (30_encoding.md R98) fills the write buffer from index 0 on and changes nothing else of
it. -/
def Obligations.LoadFillsWriteBuffer : Prop :=
  ∀ (s : State) (bytes : List Byte), s.params.wf → s.initDone = true →
    bytes.length ≤ s.params.cap → bytes ≠ [] →
    ∃ m : Memory,
      execAll (pseudoLoad bytes) s = .next { s with wbuf := m, rsp := 1#32 } ∧
      (∀ k : Nat, k < bytes.length → m.read k = bytes[k]?) ∧
      (∀ a : Nat, bytes.length ≤ a → m.read a = s.wbuf.read a)

/-- Instances share nothing (60_exceptions.md R232; the order as a list is the model's choice, log
entry 17): a step of one is its own step on its own state and leaves every other as it was; and
each keeps a host port of its own. -/
def Obligations.InstancesShareNothing : Prop :=
  ∀ (sys : System) (k : Nat) (rest : List Nat) (s s' : State), sys.order = k :: rest →
    sys.instances[k]? = some s → step s = .next s' →
    ∃ sys' : System,
      systemStep sys = .next sys' ∧ sys'.order = rest ∧ sys'.instances[k]? = some s' ∧
      (∀ j : Nat, j ≠ k → sys'.instances[j]? = sys.instances[j]?) ∧
      (sys.ownPorts → sys'.ownPorts)
end

