-- ==== Sys2Proof/Laws/Memory.lean ====
section
/-! SUPPORT. The laws of a byte space: a read after a write, the canonical form kept. -/

namespace Sys2Proof.Laws

open Sys2Proof.Machine

/-- A read at the index just written gives the byte written. -/
@[simp] theorem read_write_same (m : Memory) (a : Nat) (v : Byte) :
    (m.write a v).read a = some v := by
  induction m with
  | nil => simp [Memory.write, Memory.read]
  | cons c m ih =>
    obtain ⟨b, u⟩ := c
    simp only [Memory.write]
    split
    · simp [Memory.read]
    · split
      · simp [Memory.read]
      · simp [Memory.read, *]

/-- A write leaves every other index alone. -/
theorem read_write_other (m : Memory) {a b : Nat} (v : Byte) (h : b ≠ a) :
    (m.write a v).read b = m.read b := by
  induction m with
  | nil => simp [Memory.write, Memory.read, h]
  | cons c m ih =>
    obtain ⟨x, u⟩ := c
    simp only [Memory.write]
    split
    · simp [Memory.read, h]
    · split
      · subst x
        simp [Memory.read, h]
      · simp [Memory.read, ih]

/-- The listed indices after a write: those before, and the one written. -/
theorem mem_keys_write (m : Memory) (a b : Nat) (v : Byte) :
    b ∈ (m.write a v).map Prod.fst ↔ b = a ∨ b ∈ m.map Prod.fst := by
  induction m with
  | nil => simp [Memory.write]
  | cons c m ih =>
    obtain ⟨x, u⟩ := c
    simp only [Memory.write]
    split
    · simp
    · split
      · subst x
        simp
      · simp only [List.map_cons, List.mem_cons, ih]
        tauto

/-- A write keeps the canonical form. -/
theorem write_wf (m : Memory) (a : Nat) (v : Byte) (h : m.wf) : (m.write a v).wf := by
  induction m with
  | nil => simp [Memory.write, Memory.wf]
  | cons c m ih =>
    obtain ⟨x, u⟩ := c
    simp only [Memory.wf, List.map_cons, List.pairwise_cons] at h ih
    simp only [Memory.write]
    split
    · rename_i hlt
      simp only [Memory.wf, List.map_cons, List.pairwise_cons, List.mem_cons]
      refine ⟨?_, h.1, h.2⟩
      rintro b (rfl | hb)
      · exact hlt
      · exact hlt.trans (h.1 b hb)
    · split
      · subst x
        simpa [Memory.wf] using h
      · simp only [Memory.wf, List.map_cons, List.pairwise_cons]
        refine ⟨fun b hb => ?_, ih h.2⟩
        rcases (mem_keys_write m a b v).1 hb with rfl | hb
        · omega
        · exact h.1 b hb

/-- A write inside the space keeps every listed index inside it. -/
theorem write_within (m : Memory) (a cap : Nat) (v : Byte) (h : m.within cap) (ha : a < cap) :
    (m.write a v).within cap := by
  intro b hb
  rcases (mem_keys_write m a b v).1 hb with rfl | hb
  · exact ha
  · exact h b hb

/-- An index outside the space holds no value. -/
theorem read_outside (m : Memory) (a cap : Nat) (h : m.within cap) (ha : cap ≤ a) :
    m.read a = none := by
  induction m with
  | nil => rfl
  | cons c m ih =>
    obtain ⟨x, u⟩ := c
    have hx : x < cap := h x (by simp)
    have hm : Memory.within m cap := fun b hb => h b (by simp [hb])
    simp only [Memory.read]
    rw [if_neg (by omega)]
    exact ih hm

/-- A read that finds a byte samples that byte. -/
theorem sample_of_read {m : Memory} {a : Nat} {b : Byte} (d : Byte) (h : m.read a = some b) :
    m.sample a d = b := by
  simp [Memory.sample, h]

end Sys2Proof.Laws
end

