-- ==== Sys2Proof/Laws/State.lean ====
section
/-! SUPPORT. One lemma per field of State for each named update, so that no proof unfolds one. -/

namespace Sys2Proof.Laws

open Sys2Proof.Machine

variable (s : State)

@[simp] theorem log_params (e : WireEvent) :
    (s.log e).params = s.params := rfl
@[simp] theorem log_initDone (e : WireEvent) :
    (s.log e).initDone = s.initDone := rfl
@[simp] theorem log_timing (e : WireEvent) :
    (s.log e).timing = s.timing := rfl
@[simp] theorem log_status (e : WireEvent) :
    (s.log e).status = s.status := rfl
@[simp] theorem log_peerAddress (e : WireEvent) :
    (s.log e).peerAddress = s.peerAddress := rfl
@[simp] theorem log_direction (e : WireEvent) :
    (s.log e).direction = s.direction := rfl
@[simp] theorem log_writeLength (e : WireEvent) :
    (s.log e).writeLength = s.writeLength := rfl
@[simp] theorem log_readLength (e : WireEvent) :
    (s.log e).readLength = s.readLength := rfl
@[simp] theorem log_nextWriteIndex (e : WireEvent) :
    (s.log e).nextWriteIndex = s.nextWriteIndex := rfl
@[simp] theorem log_nextReadIndex (e : WireEvent) :
    (s.log e).nextReadIndex = s.nextReadIndex := rfl
@[simp] theorem log_bytesRemaining (e : WireEvent) :
    (s.log e).bytesRemaining = s.bytesRemaining := rfl
@[simp] theorem log_pendingReadLength (e : WireEvent) :
    (s.log e).pendingReadLength = s.pendingReadLength := rfl
@[simp] theorem log_errLatched (e : WireEvent) :
    (s.log e).errLatched = s.errLatched := rfl
@[simp] theorem log_stopIssued (e : WireEvent) :
    (s.log e).stopIssued = s.stopIssued := rfl
@[simp] theorem log_ieNack (e : WireEvent) :
    (s.log e).ieNack = s.ieNack := rfl
@[simp] theorem log_ieTc (e : WireEvent) :
    (s.log e).ieTc = s.ieTc := rfl
@[simp] theorem log_ieStop (e : WireEvent) :
    (s.log e).ieStop = s.ieStop := rfl
@[simp] theorem log_ieRx (e : WireEvent) :
    (s.log e).ieRx = s.ieRx := rfl
@[simp] theorem log_rxThreshold (e : WireEvent) :
    (s.log e).rxThreshold = s.rxThreshold := rfl
@[simp] theorem log_cs (e : WireEvent) :
    (s.log e).cs = s.cs := rfl
@[simp] theorem log_wbuf (e : WireEvent) :
    (s.log e).wbuf = s.wbuf := rfl
@[simp] theorem log_rbuf (e : WireEvent) :
    (s.log e).rbuf = s.rbuf := rfl
@[simp] theorem log_hw (e : WireEvent) :
    (s.log e).hw = s.hw := rfl
@[simp] theorem log_rsp (e : WireEvent) :
    (s.log e).rsp = s.rsp := rfl
@[simp] theorem log_wireLog (e : WireEvent) :
    (s.log e).wireLog = s.wireLog ++ [e] := rfl
@[simp] theorem log_stopCount (e : WireEvent) :
    (s.log e).stopCount = s.stopCount := rfl
@[simp] theorem log_fillRounds (e : WireEvent) :
    (s.log e).fillRounds = s.fillRounds := rfl
@[simp] theorem log_agenda (e : WireEvent) :
    (s.log e).agenda = s.agenda := rfl
@[simp] theorem log_draws (e : WireEvent) :
    (s.log e).draws = s.draws := rfl
@[simp] theorem log_hostData (e : WireEvent) :
    (s.log e).hostData = s.hostData := rfl

@[simp] theorem disableSources_params :
    (s.disableSources).params = s.params := rfl
@[simp] theorem disableSources_initDone :
    (s.disableSources).initDone = s.initDone := rfl
@[simp] theorem disableSources_timing :
    (s.disableSources).timing = s.timing := rfl
@[simp] theorem disableSources_status :
    (s.disableSources).status = s.status := rfl
@[simp] theorem disableSources_peerAddress :
    (s.disableSources).peerAddress = s.peerAddress := rfl
@[simp] theorem disableSources_direction :
    (s.disableSources).direction = s.direction := rfl
@[simp] theorem disableSources_writeLength :
    (s.disableSources).writeLength = s.writeLength := rfl
@[simp] theorem disableSources_readLength :
    (s.disableSources).readLength = s.readLength := rfl
@[simp] theorem disableSources_nextWriteIndex :
    (s.disableSources).nextWriteIndex = s.nextWriteIndex := rfl
@[simp] theorem disableSources_nextReadIndex :
    (s.disableSources).nextReadIndex = s.nextReadIndex := rfl
@[simp] theorem disableSources_bytesRemaining :
    (s.disableSources).bytesRemaining = s.bytesRemaining := rfl
@[simp] theorem disableSources_pendingReadLength :
    (s.disableSources).pendingReadLength = s.pendingReadLength := rfl
@[simp] theorem disableSources_errLatched :
    (s.disableSources).errLatched = s.errLatched := rfl
@[simp] theorem disableSources_stopIssued :
    (s.disableSources).stopIssued = s.stopIssued := rfl
@[simp] theorem disableSources_ieNack :
    (s.disableSources).ieNack = false := rfl
@[simp] theorem disableSources_ieTc :
    (s.disableSources).ieTc = false := rfl
@[simp] theorem disableSources_ieStop :
    (s.disableSources).ieStop = false := rfl
@[simp] theorem disableSources_ieRx :
    (s.disableSources).ieRx = false := rfl
@[simp] theorem disableSources_rxThreshold :
    (s.disableSources).rxThreshold = s.rxThreshold := rfl
@[simp] theorem disableSources_cs :
    (s.disableSources).cs = s.cs := rfl
@[simp] theorem disableSources_wbuf :
    (s.disableSources).wbuf = s.wbuf := rfl
@[simp] theorem disableSources_rbuf :
    (s.disableSources).rbuf = s.rbuf := rfl
@[simp] theorem disableSources_hw :
    (s.disableSources).hw = s.hw := rfl
@[simp] theorem disableSources_rsp :
    (s.disableSources).rsp = s.rsp := rfl
@[simp] theorem disableSources_wireLog :
    (s.disableSources).wireLog = s.wireLog := rfl
@[simp] theorem disableSources_stopCount :
    (s.disableSources).stopCount = s.stopCount := rfl
@[simp] theorem disableSources_fillRounds :
    (s.disableSources).fillRounds = s.fillRounds := rfl
@[simp] theorem disableSources_agenda :
    (s.disableSources).agenda = s.agenda := rfl
@[simp] theorem disableSources_draws :
    (s.disableSources).draws = s.draws := rfl
@[simp] theorem disableSources_hostData :
    (s.disableSources).hostData = s.hostData := rfl

@[simp] theorem pushNext_params :
    (s.pushNext).params = s.params := rfl
@[simp] theorem pushNext_initDone :
    (s.pushNext).initDone = s.initDone := rfl
@[simp] theorem pushNext_timing :
    (s.pushNext).timing = s.timing := rfl
@[simp] theorem pushNext_status :
    (s.pushNext).status = s.status := rfl
@[simp] theorem pushNext_peerAddress :
    (s.pushNext).peerAddress = s.peerAddress := rfl
@[simp] theorem pushNext_direction :
    (s.pushNext).direction = s.direction := rfl
@[simp] theorem pushNext_writeLength :
    (s.pushNext).writeLength = s.writeLength := rfl
@[simp] theorem pushNext_readLength :
    (s.pushNext).readLength = s.readLength := rfl
@[simp] theorem pushNext_nextWriteIndex :
    (s.pushNext).nextWriteIndex = s.nextWriteIndex + 1 := rfl
@[simp] theorem pushNext_nextReadIndex :
    (s.pushNext).nextReadIndex = s.nextReadIndex := rfl
@[simp] theorem pushNext_bytesRemaining :
    (s.pushNext).bytesRemaining = s.bytesRemaining - 1 := rfl
@[simp] theorem pushNext_pendingReadLength :
    (s.pushNext).pendingReadLength = s.pendingReadLength := rfl
@[simp] theorem pushNext_errLatched :
    (s.pushNext).errLatched = s.errLatched := rfl
@[simp] theorem pushNext_stopIssued :
    (s.pushNext).stopIssued = s.stopIssued := rfl
@[simp] theorem pushNext_ieNack :
    (s.pushNext).ieNack = s.ieNack := rfl
@[simp] theorem pushNext_ieTc :
    (s.pushNext).ieTc = s.ieTc := rfl
@[simp] theorem pushNext_ieStop :
    (s.pushNext).ieStop = s.ieStop := rfl
@[simp] theorem pushNext_ieRx :
    (s.pushNext).ieRx = s.ieRx := rfl
@[simp] theorem pushNext_rxThreshold :
    (s.pushNext).rxThreshold = s.rxThreshold := rfl
@[simp] theorem pushNext_cs :
    (s.pushNext).cs = s.cs := rfl
@[simp] theorem pushNext_wbuf :
    (s.pushNext).wbuf = s.wbuf := rfl
@[simp] theorem pushNext_rbuf :
    (s.pushNext).rbuf = s.rbuf := rfl
@[simp] theorem pushNext_hw :
    (s.pushNext).hw = { s.hw with
      txFifo := s.hw.txFifo ++ [s.wbuf.sample s.nextWriteIndex.toNat s.nextFreeByte] } := rfl
@[simp] theorem pushNext_rsp :
    (s.pushNext).rsp = s.rsp := rfl
@[simp] theorem pushNext_wireLog :
    (s.pushNext).wireLog = s.wireLog := rfl
@[simp] theorem pushNext_stopCount :
    (s.pushNext).stopCount = s.stopCount := rfl
@[simp] theorem pushNext_fillRounds :
    (s.pushNext).fillRounds = s.fillRounds := rfl
@[simp] theorem pushNext_agenda :
    (s.pushNext).agenda = s.agenda := rfl
@[simp] theorem pushNext_draws :
    (s.pushNext).draws = s.draws + 1 := rfl
@[simp] theorem pushNext_hostData :
    (s.pushNext).hostData = s.hostData := rfl

@[simp] theorem twStartRequest_params (d : Direction) :
    (s.twStartRequest d).params = s.params := rfl
@[simp] theorem twStartRequest_initDone (d : Direction) :
    (s.twStartRequest d).initDone = s.initDone := rfl
@[simp] theorem twStartRequest_timing (d : Direction) :
    (s.twStartRequest d).timing = s.timing := rfl
@[simp] theorem twStartRequest_status (d : Direction) :
    (s.twStartRequest d).status = s.status := rfl
@[simp] theorem twStartRequest_peerAddress (d : Direction) :
    (s.twStartRequest d).peerAddress = s.peerAddress := rfl
@[simp] theorem twStartRequest_direction (d : Direction) :
    (s.twStartRequest d).direction = s.direction := rfl
@[simp] theorem twStartRequest_writeLength (d : Direction) :
    (s.twStartRequest d).writeLength = s.writeLength := rfl
@[simp] theorem twStartRequest_readLength (d : Direction) :
    (s.twStartRequest d).readLength = s.readLength := rfl
@[simp] theorem twStartRequest_nextWriteIndex (d : Direction) :
    (s.twStartRequest d).nextWriteIndex = s.nextWriteIndex := rfl
@[simp] theorem twStartRequest_nextReadIndex (d : Direction) :
    (s.twStartRequest d).nextReadIndex = s.nextReadIndex := rfl
@[simp] theorem twStartRequest_bytesRemaining (d : Direction) :
    (s.twStartRequest d).bytesRemaining = s.bytesRemaining := rfl
@[simp] theorem twStartRequest_pendingReadLength (d : Direction) :
    (s.twStartRequest d).pendingReadLength = s.pendingReadLength := rfl
@[simp] theorem twStartRequest_errLatched (d : Direction) :
    (s.twStartRequest d).errLatched = s.errLatched := rfl
@[simp] theorem twStartRequest_stopIssued (d : Direction) :
    (s.twStartRequest d).stopIssued = s.stopIssued := rfl
@[simp] theorem twStartRequest_ieNack (d : Direction) :
    (s.twStartRequest d).ieNack = true := rfl
@[simp] theorem twStartRequest_ieTc (d : Direction) :
    (s.twStartRequest d).ieTc = decide (d = .writeThenRead) := rfl
@[simp] theorem twStartRequest_ieStop (d : Direction) :
    (s.twStartRequest d).ieStop = true := rfl
@[simp] theorem twStartRequest_ieRx (d : Direction) :
    (s.twStartRequest d).ieRx = s.ieRx := rfl
@[simp] theorem twStartRequest_rxThreshold (d : Direction) :
    (s.twStartRequest d).rxThreshold = s.rxThreshold := rfl
@[simp] theorem twStartRequest_cs (d : Direction) :
    (s.twStartRequest d).cs = s.cs := rfl
@[simp] theorem twStartRequest_wbuf (d : Direction) :
    (s.twStartRequest d).wbuf = s.wbuf := rfl
@[simp] theorem twStartRequest_rbuf (d : Direction) :
    (s.twStartRequest d).rbuf = s.rbuf := rfl
@[simp] theorem twStartRequest_hw (d : Direction) :
    (s.twStartRequest d).hw = { s.hw with startReq := true } := rfl
@[simp] theorem twStartRequest_rsp (d : Direction) :
    (s.twStartRequest d).rsp = s.rsp := rfl
@[simp] theorem twStartRequest_wireLog (d : Direction) :
    (s.twStartRequest d).wireLog = s.wireLog := rfl
@[simp] theorem twStartRequest_stopCount (d : Direction) :
    (s.twStartRequest d).stopCount = s.stopCount := rfl
@[simp] theorem twStartRequest_fillRounds (d : Direction) :
    (s.twStartRequest d).fillRounds = s.fillRounds := rfl
@[simp] theorem twStartRequest_agenda (d : Direction) :
    (s.twStartRequest d).agenda = s.agenda := rfl
@[simp] theorem twStartRequest_draws (d : Direction) :
    (s.twStartRequest d).draws = s.draws := rfl
@[simp] theorem twStartRequest_hostData (d : Direction) :
    (s.twStartRequest d).hostData = s.hostData := rfl

@[simp] theorem xferRequest_params (k : Nat) :
    (s.xferRequest k).params = s.params := rfl
@[simp] theorem xferRequest_initDone (k : Nat) :
    (s.xferRequest k).initDone = s.initDone := rfl
@[simp] theorem xferRequest_timing (k : Nat) :
    (s.xferRequest k).timing = s.timing := rfl
@[simp] theorem xferRequest_status (k : Nat) :
    (s.xferRequest k).status = s.status := rfl
@[simp] theorem xferRequest_peerAddress (k : Nat) :
    (s.xferRequest k).peerAddress = s.peerAddress := rfl
@[simp] theorem xferRequest_direction (k : Nat) :
    (s.xferRequest k).direction = s.direction := rfl
@[simp] theorem xferRequest_writeLength (k : Nat) :
    (s.xferRequest k).writeLength = s.writeLength := rfl
@[simp] theorem xferRequest_readLength (k : Nat) :
    (s.xferRequest k).readLength = s.readLength := rfl
@[simp] theorem xferRequest_nextWriteIndex (k : Nat) :
    (s.xferRequest k).nextWriteIndex = s.nextWriteIndex := rfl
@[simp] theorem xferRequest_nextReadIndex (k : Nat) :
    (s.xferRequest k).nextReadIndex = s.nextReadIndex := rfl
@[simp] theorem xferRequest_bytesRemaining (k : Nat) :
    (s.xferRequest k).bytesRemaining = s.bytesRemaining := rfl
@[simp] theorem xferRequest_pendingReadLength (k : Nat) :
    (s.xferRequest k).pendingReadLength = s.pendingReadLength := rfl
@[simp] theorem xferRequest_errLatched (k : Nat) :
    (s.xferRequest k).errLatched = s.errLatched := rfl
@[simp] theorem xferRequest_stopIssued (k : Nat) :
    (s.xferRequest k).stopIssued = s.stopIssued := rfl
@[simp] theorem xferRequest_ieNack (k : Nat) :
    (s.xferRequest k).ieNack = s.ieNack := rfl
@[simp] theorem xferRequest_ieTc (k : Nat) :
    (s.xferRequest k).ieTc = s.ieTc := rfl
@[simp] theorem xferRequest_ieStop (k : Nat) :
    (s.xferRequest k).ieStop = s.ieStop := rfl
@[simp] theorem xferRequest_ieRx (k : Nat) :
    (s.xferRequest k).ieRx = true := rfl
@[simp] theorem xferRequest_rxThreshold (k : Nat) :
    (s.xferRequest k).rxThreshold = BitVec.ofNat 5 k := rfl
@[simp] theorem xferRequest_cs (k : Nat) :
    (s.xferRequest k).cs = s.cs := rfl
@[simp] theorem xferRequest_wbuf (k : Nat) :
    (s.xferRequest k).wbuf = s.wbuf := rfl
@[simp] theorem xferRequest_rbuf (k : Nat) :
    (s.xferRequest k).rbuf = s.rbuf := rfl
@[simp] theorem xferRequest_hw (k : Nat) :
    (s.xferRequest k).hw = s.hw := rfl
@[simp] theorem xferRequest_rsp (k : Nat) :
    (s.xferRequest k).rsp = s.rsp := rfl
@[simp] theorem xferRequest_wireLog (k : Nat) :
    (s.xferRequest k).wireLog = s.wireLog := rfl
@[simp] theorem xferRequest_stopCount (k : Nat) :
    (s.xferRequest k).stopCount = s.stopCount := rfl
@[simp] theorem xferRequest_fillRounds (k : Nat) :
    (s.xferRequest k).fillRounds = s.fillRounds := rfl
@[simp] theorem xferRequest_agenda (k : Nat) :
    (s.xferRequest k).agenda = s.agenda := rfl
@[simp] theorem xferRequest_draws (k : Nat) :
    (s.xferRequest k).draws = s.draws := rfl
@[simp] theorem xferRequest_hostData (k : Nat) :
    (s.xferRequest k).hostData = s.hostData := rfl

end Sys2Proof.Laws
end

