-- ==== Sys2Proof/Laws/Ops.lean ====
section
/-! SUPPORT. What the shared operations do, each said once: fills and drains in closed form, the
responses, the counts. -/

namespace Sys2Proof.Laws

open Sys2Proof.Machine

/-- The bytes a fill of `k` pushes from index `i` on, with the free bytes of the instance at `base`
from position `d` on. -/
def pushed (base : Nat) (m : Memory) (i : BitVec 8) (d : Nat) : Nat → List Byte
  | 0 => []
  | k + 1 => m.sample i.toNat (Config.freeByte base d) :: pushed base m (i + 1) (d + 1) k

/-- The read buffer after a drain stores `bytes` from index `i` on. -/
def stored (m : Memory) (i : BitVec 8) : List Byte → Memory
  | [] => m
  | b :: bytes => stored (m.write i.toNat b) (i + 1) bytes

theorem index_succ (x : BitVec 8) (k : Nat) :
    x + 1#8 + BitVec.ofNat 8 k = x + BitVec.ofNat 8 (k + 1) := by
  rw [BitVec.ofNat_add, BitVec.add_assoc, BitVec.add_comm (1#8)]

theorem remaining_succ (x : BitVec 9) (k : Nat) :
    x - 1#9 - BitVec.ofNat 9 k = x - BitVec.ofNat 9 (k + 1) := by
  rw [BitVec.ofNat_add]
  bv_omega

/-- The next index, where it does not wrap. -/
theorem index_toNat_succ (i : BitVec 8) (h : i.toNat < 255) : (i + 1#8).toNat = i.toNat + 1 := by
  bv_omega

@[simp] theorem pushed_length (base : Nat) (m : Memory) (i : BitVec 8) (d k : Nat) :
    (pushed base m i d k).length = k := by
  induction k generalizing i d with
  | zero => rfl
  | succ k ih => simp [pushed, ih]

/-- Byte `j` of a fill is the write-buffer byte at `i + j`, where the index does not wrap. -/
theorem pushed_getElem? (base : Nat) (m : Memory) (i : BitVec 8) (d k j : Nat) (hj : j < k)
    (hw : i.toNat + k ≤ 256) :
    (pushed base m i d k)[j]? = some (m.sample (i.toNat + j) (Config.freeByte base (d + j))) := by
  induction k generalizing i d j with
  | zero => omega
  | succ k ih =>
    cases j with
    | zero => simp [pushed]
    | succ j =>
      have hi := index_toNat_succ i (by omega)
      simp only [pushed, List.getElem?_cons_succ]
      rw [show i + 1 = i + 1#8 from rfl, ih (i + 1#8) (d + 1) j (by omega) (by omega), hi]
      rw [show i.toNat + 1 + j = i.toNat + (j + 1) by omega,
        show d + 1 + j = d + (j + 1) by omega]

/-- A repeated push, in closed form. -/
theorem pushMany_eq (k : Nat) (s : State) :
    s.pushMany k =
      { s with
        hw := { s.hw with
          txFifo :=
            s.hw.txFifo ++ pushed s.params.base s.wbuf s.nextWriteIndex s.draws k }
        nextWriteIndex := s.nextWriteIndex + BitVec.ofNat 8 k
        bytesRemaining := s.bytesRemaining - BitVec.ofNat 9 k
        draws := s.draws + k } := by
  induction k generalizing s with
  | zero => simp [State.pushMany, pushed]
  | succ k ih =>
    simp [State.pushMany, ih, pushed, State.nextFreeByte, index_succ, remaining_succ, Nat.add_assoc,
      Nat.add_comm 1 k]

/-- A fill, in closed form: everything it can do. -/
theorem fill_eq (k : Nat) (s : State) :
    s.fill k =
      { s with
        hw := { s.hw with
          txFifo :=
            s.hw.txFifo ++ pushed s.params.base s.wbuf s.nextWriteIndex s.draws k }
        nextWriteIndex := s.nextWriteIndex + BitVec.ofNat 8 k
        bytesRemaining := s.bytesRemaining - BitVec.ofNat 9 k
        draws := s.draws + k
        fillRounds := s.fillRounds + (if 0 < k then 1 else 0) } := by
  simp only [State.fill, pushMany_eq]
  split <;> simp_all

/-- A repeated pop of no more bytes than are there, in closed form. -/
theorem popMany_eq (p : Nat) (s : State) (h : p ≤ s.hw.rxFifo.length) :
    s.popMany p =
      { s with
        hw := { s.hw with rxFifo := s.hw.rxFifo.drop p }
        rbuf := stored s.rbuf s.nextReadIndex (s.hw.rxFifo.take p)
        nextReadIndex := s.nextReadIndex + BitVec.ofNat 8 p
        bytesRemaining := s.bytesRemaining - BitVec.ofNat 9 p } := by
  induction p generalizing s with
  | zero => simp [State.popMany, stored]
  | succ p ih =>
    cases hr : s.hw.rxFifo with
    | nil => simp [hr] at h
    | cons b rest =>
      have hp : p ≤ rest.length := by simpa [hr] using h
      simp only [State.popMany, State.popNext, hr]
      rw [ih _ (by simpa using hp)]
      simp [stored, index_succ, remaining_succ]

theorem drainCount_le (s : State) : s.drainCount ≤ s.hw.rxFifo.length := Nat.min_le_left _ _

/-- Part `D`, in closed form: everything it can do (42_service_tw.md R149). -/
theorem partD_eq (s : State) :
    s.partD =
      { s with
        hw := { s.hw with rxFifo := s.hw.rxFifo.drop s.drainCount }
        rbuf := stored s.rbuf s.nextReadIndex (s.hw.rxFifo.take s.drainCount)
        nextReadIndex := s.nextReadIndex + BitVec.ofNat 8 s.drainCount
        bytesRemaining := s.bytesRemaining - BitVec.ofNat 9 s.drainCount } :=
  popMany_eq _ _ (drainCount_le s)

/-- A drain leaves the indices below its first alone, where the index does not wrap. -/
theorem stored_read_below (bytes : List Byte) (m : Memory) (i : BitVec 8) (a : Nat)
    (ha : a < i.toNat) (hw : i.toNat + bytes.length ≤ 256) :
    (stored m i bytes).read a = m.read a := by
  induction bytes generalizing m i with
  | nil => rfl
  | cons b bytes ih =>
    simp only [List.length_cons] at hw
    simp only [stored]
    cases bytes with
    | nil => exact read_write_other m b (by omega)
    | cons c bytes =>
      have hi := index_toNat_succ i (by simp at hw; omega)
      rw [show i + 1 = i + 1#8 from rfl, ih _ _ (by omega) (by omega)]
      exact read_write_other m b (by omega)

/-- A drain leaves the indices beyond its last alone, where the index does not wrap. -/
theorem stored_read_above (bytes : List Byte) (m : Memory) (i : BitVec 8) (a : Nat)
    (ha : i.toNat + bytes.length ≤ a) (hw : i.toNat + bytes.length ≤ 256) :
    (stored m i bytes).read a = m.read a := by
  induction bytes generalizing m i with
  | nil => rfl
  | cons b bytes ih =>
    simp only [List.length_cons] at hw ha
    simp only [stored]
    cases bytes with
    | nil => exact read_write_other m b (by omega)
    | cons c bytes =>
      have hi := index_toNat_succ i (by simp at hw; omega)
      rw [show i + 1 = i + 1#8 from rfl, ih _ _ (by omega) (by omega)]
      exact read_write_other m b (by omega)

/-- A drain stores its byte `j` at index `i + j`, where the index does not wrap. -/
theorem stored_read_inside (bytes : List Byte) (m : Memory) (i : BitVec 8) (j : Nat)
    (hj : j < bytes.length) (hw : i.toNat + bytes.length ≤ 256) :
    (stored m i bytes).read (i.toNat + j) = bytes[j]? := by
  induction bytes generalizing m i j with
  | nil => simp at hj
  | cons b bytes ih =>
    simp only [List.length_cons] at hw hj
    simp only [stored]
    cases bytes with
    | nil =>
      obtain rfl : j = 0 := by simp at hj; omega
      simp [stored]
    | cons c bytes =>
      have hi := index_toNat_succ i (by simp at hw; omega)
      rw [show i + 1 = i + 1#8 from rfl]
      cases j with
      | zero =>
        rw [Nat.add_zero, stored_read_below _ _ _ _ (by omega) (by omega)]
        simp
      | succ j =>
        have := ih (m.write i.toNat b) (i + 1#8) j (by omega) (by omega)
        rw [hi] at this
        rw [show i.toNat + (j + 1) = i.toNat + 1 + j by omega, this]
        rfl

/-- A drain keeps the canonical form of the read buffer. -/
theorem stored_wf (bytes : List Byte) (m : Memory) (i : BitVec 8) (h : m.wf) :
    (stored m i bytes).wf := by
  induction bytes generalizing m i with
  | nil => exact h
  | cons b bytes ih => exact ih _ _ (write_wf m _ b h)

/-- A drain inside the space keeps every listed index inside it. -/
theorem stored_within (bytes : List Byte) (m : Memory) (i : BitVec 8) (cap : Nat)
    (h : m.within cap) (hi : i.toNat + bytes.length ≤ cap) (hw : cap ≤ 256) :
    (stored m i bytes).within cap := by
  induction bytes generalizing m i with
  | nil => exact h
  | cons b bytes ih =>
    simp only [List.length_cons] at hi
    have hm := write_within m i.toNat cap b h (by omega)
    cases bytes with
    | nil => exact hm
    | cons c bytes =>
      have hs := index_toNat_succ i (by simp at hi; omega)
      exact ih _ _ hm (by rw [show i + 1 = i + 1#8 from rfl, hs]; omega)

/-- `respond` answers a next state, and what it holds. -/
theorem respond_eq (v : Word) (s : State) : respond v s = .next { s with rsp := v } := rfl

/-- `reject` answers a next state that differs in the response alone. -/
theorem reject_eq (s : State) : reject s = .next { s with rsp := 0#32 } := rfl

end Sys2Proof.Laws
end

