-- ==== Sys2Proof/Laws/PerInstr.lean ====
section
/-! SUPPORT. Per-command families: what holds of each command as syntax. -/

namespace Sys2Proof.Laws

/-- The word of a command selects the row of the opcode map that bears its mnemonic
(30_encoding.md R91). -/
def EncodeSelectsRow.Statement (i : Instr) : Prop :=
  ∃ r ∈ opcodeTable, r.mnemonic = i.mnemonic ∧ encode i &&& r.mask = r.pattern

theorem EncodeSelectsRow.init (timing : BitVec 16) :
    EncodeSelectsRow.Statement (.init timing) := by
  refine ⟨_, .head _, rfl, ?_⟩
  apply BitVec.eq_of_getLsbD_eq
  intro j hj
  simp only [encode, BitVec.getLsbD_and, BitVec.getLsbD_append]
  interval_cases j <;> simp

theorem EncodeSelectsRow.startW (addr : BitVec 10) (wlen : BitVec 8) :
    EncodeSelectsRow.Statement (.startW addr wlen) := by
  refine ⟨_, .tail _ (.head _), rfl, ?_⟩
  apply BitVec.eq_of_getLsbD_eq
  intro j hj
  simp only [encode, BitVec.getLsbD_and, BitVec.getLsbD_append]
  interval_cases j <;> simp

theorem EncodeSelectsRow.startR (addr : BitVec 10) (rlen : BitVec 8) :
    EncodeSelectsRow.Statement (.startR addr rlen) := by
  refine ⟨_, .tail _ (.tail _ (.head _)), rfl, ?_⟩
  apply BitVec.eq_of_getLsbD_eq
  intro j hj
  simp only [encode, BitVec.getLsbD_and, BitVec.getLsbD_append]
  interval_cases j <;> simp

theorem EncodeSelectsRow.startWR (addr : BitVec 10) (wlen : BitVec 8) (rlen : BitVec 8) :
    EncodeSelectsRow.Statement (.startWR addr wlen rlen) := by
  refine ⟨_, .tail _ (.tail _ (.tail _ (.head _))), rfl, ?_⟩
  apply BitVec.eq_of_getLsbD_eq
  intro j hj
  simp only [encode, BitVec.getLsbD_and, BitVec.getLsbD_append]
  interval_cases j <;> simp

theorem EncodeSelectsRow.xfer (wlen : BitVec 8) :
    EncodeSelectsRow.Statement (.xfer wlen) := by
  refine ⟨_, .tail _ (.tail _ (.tail _ (.tail _ (.head _)))), rfl, ?_⟩
  apply BitVec.eq_of_getLsbD_eq
  intro j hj
  simp only [encode, BitVec.getLsbD_and, BitVec.getLsbD_append]
  interval_cases j <;> simp

theorem EncodeSelectsRow.getStatus :
    EncodeSelectsRow.Statement .getStatus := by
  refine ⟨_, .tail _ (.tail _ (.tail _ (.tail _ (.tail _ (.head _))))), rfl, ?_⟩
  decide

theorem EncodeSelectsRow.ackIdle :
    EncodeSelectsRow.Statement .ackIdle := by
  refine ⟨_, .tail _ (.tail _ (.tail _ (.tail _ (.tail _ (.tail _ (.head _)))))), rfl, ?_⟩
  decide

theorem EncodeSelectsRow.wrBuf (index : BitVec 8) (data : Byte) :
    EncodeSelectsRow.Statement (.wrBuf index data) := by
  refine ⟨_, .tail _ (.tail _ (.tail _ (.tail _ (.tail _ (.tail _ (.tail _ (.head _))))))), rfl, ?_⟩
  apply BitVec.eq_of_getLsbD_eq
  intro j hj
  simp only [encode, BitVec.getLsbD_and, BitVec.getLsbD_append]
  interval_cases j <;> simp

theorem EncodeSelectsRow.rdBuf (index : BitVec 8) :
    EncodeSelectsRow.Statement (.rdBuf index) := by
  refine ⟨_, .tail _ (.tail _ (.tail _ (.tail _ (.tail _ (.tail _ (.tail _ (.tail _ (.head _)))))))), rfl, ?_⟩
  apply BitVec.eq_of_getLsbD_eq
  intro j hj
  simp only [encode, BitVec.getLsbD_and, BitVec.getLsbD_append]
  interval_cases j <;> simp

end Sys2Proof.Laws
end

