-- ==== Sys2Proof/Laws/Service.lean ====
section
/-! SUPPORT. The background service steps in closed form: everything they can do, each said once. -/

namespace Sys2Proof.Laws

open Sys2Proof.Machine

/-- The source `NACK` is pending (60_exceptions.md R215). -/
def nackPending (s : State) : Bool := s.ieNack && s.hw.nack

/-- The source `TC` is pending (60_exceptions.md R215). -/
def tcPending (s : State) : Bool := s.ieTc && s.hw.tc

/-- The source `STOP` is pending (60_exceptions.md R215). -/
def stopPending (s : State) : Bool := s.ieStop && s.hw.stopDet

/-- The `TW` step arms the read phase: the event with no error latched, before or in this step
(42_service_tw.md R148). -/
def armsRead (s : State) : Bool := tcPending s && !s.errLatched && !nackPending s

/-- The `TW` step requests a stop condition (42_service_tw.md R147). -/
def requestsStop (s : State) : Bool := nackPending s && !s.stopIssued

/-- Part `N`, in closed form. -/
theorem partN_eq (s : State) :
    s.partN =
      { s with
        errLatched := s.errLatched || nackPending s
        stopIssued := s.stopIssued || nackPending s
        stopCount := s.stopCount + (if requestsStop s then 1 else 0)
        hw := { s.hw with
          nack := s.hw.nack && !nackPending s
          stopReq := s.hw.stopReq || requestsStop s } } := by
  obtain ⟨⟩ := s
  rename_i hw _ _ _ _ _ _ _
  obtain ⟨⟩ := hw
  simp only [State.partN, nackPending, requestsStop]
  split
  · rename_i h
    obtain ⟨h1, h2⟩ := h
    subst h1 h2
    split <;> simp_all
  · rename_i h
    have hf : ∀ a b : Bool, ¬ (a = true ∧ b = true) → (a && b) = false := by decide
    simp [hf _ _ h]

/-- Part `T`, in closed form. -/
theorem partT_eq (s : State) :
    s.partT =
      { s with
        ieTc := s.ieTc && !tcPending s
        pendingReadLength := if tcPending s then 0 else s.pendingReadLength
        hw := { s.hw with
          tc := s.hw.tc && !tcPending s
          rxMode := s.hw.rxMode || (tcPending s && !s.errLatched)
          count := if tcPending s && !s.errLatched then s.pendingReadLength else s.hw.count
          autoStop := s.hw.autoStop || (tcPending s && !s.errLatched)
          startReq := s.hw.startReq || (tcPending s && !s.errLatched) } } := by
  obtain ⟨⟩ := s
  rename_i hw _ _ _ _ _ _ _
  obtain ⟨⟩ := hw
  simp only [State.partT, tcPending]
  split
  · rename_i h
    obtain ⟨h1, h2⟩ := h
    subst h1 h2
    split <;> simp_all
  · rename_i h
    have hf : ∀ a b : Bool, ¬ (a = true ∧ b = true) → (a && b) = false := by decide
    simp [hf _ _ h]

/-- Part `C` on `TW`, in closed form. -/
theorem partCTw_eq (s : State) :
    s.partCTw =
      { s with
        ieNack := s.ieNack && !stopPending s
        ieTc := s.ieTc && !stopPending s
        ieStop := s.ieStop && !stopPending s
        ieRx := s.ieRx && !stopPending s
        status :=
          if stopPending s then (if s.errLatched = true then .error else .finished)
          else s.status
        hw := { s.hw with stopDet := s.hw.stopDet && !stopPending s } } := by
  obtain ⟨⟩ := s
  rename_i hw _ _ _ _ _ _ _
  obtain ⟨⟩ := hw
  simp only [State.partCTw, stopPending]
  split
  · rename_i h
    obtain ⟨h1, h2⟩ := h
    subst h1 h2
    simp [State.disableSources]
  · rename_i h
    have hf : ∀ a b : Bool, ¬ (a = true ∧ b = true) → (a && b) = false := by decide
    simp [hf _ _ h]

/-- One `SERVICE` step on `TW`, in closed form: everything it can do (42_service_tw.md R146 to
R152). -/
theorem serviceTw_eq (s : State) :
    serviceTw s =
      { s with
        errLatched := s.errLatched || nackPending s
        stopIssued := s.stopIssued || nackPending s
        stopCount := s.stopCount + (if requestsStop s then 1 else 0)
        pendingReadLength := if tcPending s then 0 else s.pendingReadLength
        ieNack := s.ieNack && !stopPending s
        ieTc := s.ieTc && !tcPending s && !stopPending s
        ieStop := s.ieStop && !stopPending s
        ieRx := s.ieRx && !stopPending s
        status :=
          if stopPending s then
            (if (s.errLatched || nackPending s) = true then .error else .finished)
          else s.status
        rbuf := stored s.rbuf s.nextReadIndex (s.hw.rxFifo.take s.drainCount)
        nextReadIndex := s.nextReadIndex + BitVec.ofNat 8 s.drainCount
        nextWriteIndex := s.nextWriteIndex + BitVec.ofNat 8 s.fillCount
        bytesRemaining :=
          s.bytesRemaining - BitVec.ofNat 9 s.drainCount - BitVec.ofNat 9 s.fillCount
        draws := s.draws + s.fillCount
        fillRounds := s.fillRounds + (if 0 < s.fillCount then 1 else 0)
        hw := { s.hw with
          nack := s.hw.nack && !nackPending s
          stopReq := s.hw.stopReq || requestsStop s
          tc := s.hw.tc && !tcPending s
          stopDet := s.hw.stopDet && !stopPending s
          rxMode := s.hw.rxMode || armsRead s
          count := if armsRead s then s.pendingReadLength else s.hw.count
          autoStop := s.hw.autoStop || armsRead s
          startReq := s.hw.startReq || armsRead s
          rxFifo := s.hw.rxFifo.drop s.drainCount
          txFifo :=
            s.hw.txFifo
              ++ pushed s.params.base s.wbuf s.nextWriteIndex s.draws s.fillCount } } := by
  have ha : (tcPending s && !(s.errLatched || nackPending s)) = armsRead s := by
    simp [armsRead, Bool.and_assoc]
  have hd : s.partN.partT.drainCount = s.drainCount := by rw [partN_eq, partT_eq]; rfl
  have hf : s.partN.partT.partD.fillCount = s.fillCount := by
    rw [partN_eq, partT_eq, partD_eq]; rfl
  simp only [serviceTw, State.partFTw, hf]
  simp only [fill_eq, partCTw_eq]
  rw [partD_eq, hd, partT_eq, partN_eq]
  simp only [← ha]
  rfl

/-- The bytes still to be moved after a `SERVICE` step on `FW`. -/
def remainingFw (s : State) : BitVec 9 :=
  s.bytesRemaining - BitVec.ofNat 9 s.drainCount
    - BitVec.ofNat 9 (s.symmetricFillCount s.drainCount)

/-- The fill on `FW` counts after the drain what it counts before it. -/
theorem symmetricFillCount_partD (s : State) :
    s.partD.symmetricFillCount s.drainCount = s.symmetricFillCount s.drainCount := by
  rw [partD_eq]; rfl

/-- Part `C` on `FW`, in closed form. -/
theorem partCFw_eq (s : State) :
    s.partCFw =
      { s with
        ieNack := s.ieNack && decide (s.bytesRemaining ≠ 0)
        ieTc := s.ieTc && decide (s.bytesRemaining ≠ 0)
        ieStop := s.ieStop && decide (s.bytesRemaining ≠ 0)
        ieRx := s.ieRx && decide (s.bytesRemaining ≠ 0)
        status := if s.bytesRemaining = 0 then .finished else s.status
        cs := s.cs && decide (s.bytesRemaining ≠ 0)
        wireLog :=
          s.wireLog ++ (if s.bytesRemaining = 0 then [.peerSelect false] else []) } := by
  simp only [State.partCFw]
  split
  · rename_i h
    simp [State.disableSources, State.log, h]
  · rename_i h
    have h' : decide (s.bytesRemaining ≠ 0) = true := decide_eq_true h
    simp only [h', Bool.and_true, List.append_nil]

/-- Part `F` on `FW`, in closed form. -/
theorem partFFw_eq (p : Nat) (s : State) :
    s.partFFw p =
      { s with
        hw := { s.hw with
          txFifo :=
            s.hw.txFifo
              ++ pushed s.params.base s.wbuf s.nextWriteIndex s.draws (s.symmetricFillCount p) }
        nextWriteIndex := s.nextWriteIndex + BitVec.ofNat 8 (s.symmetricFillCount p)
        bytesRemaining := s.bytesRemaining - BitVec.ofNat 9 (s.symmetricFillCount p)
        draws := s.draws + s.symmetricFillCount p
        fillRounds := s.fillRounds + (if 0 < s.symmetricFillCount p then 1 else 0)
        rxThreshold :=
          if 0 < s.symmetricFillCount p then BitVec.ofNat 5 (s.symmetricFillCount p)
          else s.rxThreshold } := by
  simp only [State.partFFw, fill_eq]
  split <;> rfl

/-- One `SERVICE` step on `FW`, in closed form: everything it can do (43_service_fw.md R165 to
R169). -/
theorem serviceFw_eq (s : State) :
    serviceFw s =
      { s with
        rbuf := stored s.rbuf s.nextReadIndex (s.hw.rxFifo.take s.drainCount)
        nextReadIndex := s.nextReadIndex + BitVec.ofNat 8 s.drainCount
        nextWriteIndex :=
          s.nextWriteIndex + BitVec.ofNat 8 (s.symmetricFillCount s.drainCount)
        bytesRemaining := remainingFw s
        draws := s.draws + s.symmetricFillCount s.drainCount
        fillRounds :=
          s.fillRounds + (if 0 < s.symmetricFillCount s.drainCount then 1 else 0)
        rxThreshold :=
          if 0 < s.symmetricFillCount s.drainCount then
            BitVec.ofNat 5 (s.symmetricFillCount s.drainCount)
          else s.rxThreshold
        hw := { s.hw with
          rxFifo := s.hw.rxFifo.drop s.drainCount
          txFifo := s.hw.txFifo ++
            pushed s.params.base s.wbuf s.nextWriteIndex s.draws
              (s.symmetricFillCount s.drainCount) }
        ieNack := s.ieNack && decide (remainingFw s ≠ 0)
        ieTc := s.ieTc && decide (remainingFw s ≠ 0)
        ieStop := s.ieStop && decide (remainingFw s ≠ 0)
        ieRx := s.ieRx && decide (remainingFw s ≠ 0)
        status := if remainingFw s = 0 then .finished else s.status
        cs := s.cs && decide (remainingFw s ≠ 0)
        wireLog :=
          s.wireLog ++ (if remainingFw s = 0 then [.peerSelect false] else []) } := by
  simp only [serviceFw, partFFw_eq, symmetricFillCount_partD]
  simp only [partD_eq, partCFw_eq]
  rfl

/-- When `SERVICE` of a `TW` instance answers, and with what. -/
theorem service_tw_next {s t : State} (hb : s.params.bus = .tw) :
    service s = .next t ↔ s.indicesInRange s.drainCount s.fillCount = true ∧ serviceTw s = t := by
  simp only [service, hb]
  split <;> simp_all

/-- When `SERVICE` of an `FW` instance answers, and with what. -/
theorem service_fw_next {s t : State} (hb : s.params.bus = .fw) :
    service s = .next t ↔
      s.indicesInRange s.drainCount (s.symmetricFillCount s.drainCount) = true ∧
        serviceFw s = t := by
  simp only [service, hb]
  split <;> simp_all

/-- What it means that the indices of a drain of `p` and a fill of `k` lie in the buffers. -/
theorem indicesInRange_iff (s : State) (p k : Nat) :
    s.indicesInRange p k = true ↔
      (p = 0 ∨ s.nextReadIndex.toNat + p ≤ s.params.cap) ∧
        (k = 0 ∨ s.nextWriteIndex.toNat + k ≤ s.params.cap) := by
  simp [State.indicesInRange]

end Sys2Proof.Laws
end

