-- ==== Sys2Proof/Laws/Start.lean ====
section
/-! SUPPORT. The start commands in closed form: what an accepted one leaves, what a rejected one
leaves. -/

namespace Sys2Proof.Laws

open Sys2Proof.Machine

/-- The first fill of an accepted two-wire start pushes the whole stored write length
(40_start.md R112). -/
theorem twStart_fillCount {s : State} {d : Direction} {wl rl : BitVec 8} (a : BitVec 10)
    (h : s.admitsTwStart d wl rl) :
    (s.twStartRegisters d wl rl a).fillCount = (storedWriteLength d wl).toNat := by
  obtain ⟨hb, -, -, -, -, hw, -⟩ := h
  have hcap : s.params.cap = s.params.depth := by simp [Params.cap, Params.twCap, hb]
  simp only [lengthInBounds, hcap] at hw
  have hle : (storedWriteLength d wl).toNat ≤ s.params.depth := by
    cases d <;> simp_all [storedWriteLength, Direction.usesWriteLength]
  simpa [State.fillCount, State.twStartRegisters] using hle

/-- An accepted two-wire start, in closed form: everything it can do (40_start.md R112). -/
theorem twStart_accepted {s : State} {d : Direction} {wl rl : BitVec 8} (a : BitVec 10)
    (h : s.admitsTwStart d wl rl) :
    twStart d wl rl a s = .next
      { s with
        status := .inProgress
        nextWriteIndex := storedWriteLength d wl
        nextReadIndex := 0#8
        bytesRemaining := (storedReadLength d rl).setWidth 9
        errLatched := false
        stopIssued := false
        peerAddress := truncateAddress s.params a
        direction := d
        writeLength := storedWriteLength d wl
        readLength := storedReadLength d rl
        pendingReadLength := if d = .writeThenRead then rl else 0#8
        ieNack := true
        ieStop := true
        ieTc := decide (d = .writeThenRead)
        hw := { s.hw with
          txFifo := pushed s.params.base s.wbuf 0 s.draws (storedWriteLength d wl).toNat
          rxFifo := []
          nack := false
          addr := truncateAddress s.params a
          rxMode := decide (d = .read)
          count := if d = .read then rl else wl
          autoStop := decide (d ≠ .writeThenRead)
          startReq := true }
        draws := s.draws + (storedWriteLength d wl).toNat
        fillRounds := s.fillRounds + (if 0 < (storedWriteLength d wl).toNat then 1 else 0)
        rsp := 1#32 } := by
  have h8 : (0 : BitVec 8) + BitVec.ofNat 8 (storedWriteLength d wl).toNat
      = storedWriteLength d wl := by simp
  have h9 : (storedWriteLength d wl).setWidth 9 + (storedReadLength d rl).setWidth 9
      - BitVec.ofNat 9 (storedWriteLength d wl).toNat
      = (storedReadLength d rl).setWidth 9 := by bv_omega
  simp only [twStart, if_pos h, State.firstFill, twStart_fillCount a h]
  simp only [fill_eq, State.twStartRequest, State.twStartRegisters, h8, h9, respond_eq,
    List.nil_append]
  rfl

/-- A rejected two-wire start changes nothing but the response (40_start.md R117). -/
theorem twStart_rejected {s : State} {d : Direction} {wl rl : BitVec 8} (a : BitVec 10)
    (h : ¬ s.admitsTwStart d wl rl) : twStart d wl rl a s = .next { s with rsp := 0#32 } := by
  simp only [twStart, if_neg h, reject_eq]

/-- The first fill of an `XFER` pushes `min(n, DEPTH)` bytes (40_start.md R116). -/
theorem xfer_fillCount (s : State) (n : BitVec 8) :
    (s.xferRegisters n).fillCount = min n.toNat s.params.depth := by
  simp [State.fillCount, State.xferRegisters, State.log]

/-- An accepted `XFER`, in closed form: everything it can do (40_start.md R116). -/
theorem xfer_accepted {s : State} {n : BitVec 8} (h : s.admitsXfer n) :
    execXfer n s = .next
      { s with
        status := .inProgress
        nextWriteIndex := BitVec.ofNat 8 (min n.toNat s.params.depth)
        nextReadIndex := 0#8
        bytesRemaining :=
          n.setWidth 9 + n.setWidth 9 - BitVec.ofNat 9 (min n.toNat s.params.depth)
        errLatched := false
        writeLength := n
        readLength := n
        hw := { s.hw with
          txFifo := pushed s.params.base s.wbuf 0 s.draws (min n.toNat s.params.depth)
          rxFifo := [] }
        cs := true
        rxThreshold := BitVec.ofNat 5 (min n.toNat s.params.depth)
        ieRx := true
        wireLog := s.wireLog ++ [.peerSelect true]
        draws := s.draws + min n.toNat s.params.depth
        fillRounds := s.fillRounds + (if 0 < min n.toNat s.params.depth then 1 else 0)
        rsp := 1#32 } := by
  have h8 : (0 : BitVec 8) + BitVec.ofNat 8 (min n.toNat s.params.depth)
      = BitVec.ofNat 8 (min n.toNat s.params.depth) := BitVec.zero_add _
  simp only [execXfer, if_pos h, State.firstFill, xfer_fillCount]
  simp only [fill_eq, State.xferRequest, State.xferRegisters, State.log, respond_eq,
    List.nil_append, h8]
  rfl

/-- A rejected `XFER` changes nothing but the response (40_start.md R117). -/
theorem xfer_rejected {s : State} {n : BitVec 8} (h : ¬ s.admitsXfer n) :
    execXfer n s = .next { s with rsp := 0#32 } := by
  simp only [execXfer, if_neg h, reject_eq]

/-- The bus line of an `FW` instance is idle where the transmit FIFO is empty (10_state.md R39). -/
theorem busLineBusy_fw {s : State} (h : s.params.bus = .fw) :
    s.busLineBusy = false ↔ s.hw.txFifo = [] := by
  simp [State.busLineBusy, h]

end Sys2Proof.Laws
end

