-- ==== Sys2Proof/Laws/Step.lean ====
section
/-! SUPPORT. What a step, a turn, a port access and a command can do, each said once. -/

namespace Sys2Proof.Laws

open Sys2Proof.Machine

/-- With no turn to take, a step changes nothing. -/
theorem step_idle {s : State} (h : s.agenda = []) : step s = .next s := by
  simp [step, h]

/-- With a turn to take, a step is that turn on the state with the turn consumed. -/
theorem step_turn {s : State} {t : Turn} {rest : List Turn} (h : s.agenda = t :: rest) :
    step s = runTurn t { s with agenda := rest } := by
  simp [step, h]

/-- Everything a step can do. -/
theorem step_cases {s s' : State} (h : step s = .next s') :
    (s.agenda = [] ∧ s' = s) ∨
      ∃ t rest, s.agenda = t :: rest ∧ runTurn t { s with agenda := rest } = .next s' := by
  cases ha : s.agenda with
  | nil =>
    rw [step_idle ha] at h
    cases h
    exact .inl ⟨rfl, rfl⟩
  | cons t rest =>
    rw [step_turn ha] at h
    exact .inr ⟨t, rest, rfl, h⟩

/-- Everything a turn of the environment can do. -/
theorem runEnv_next {e : EnvStep} {s t : State} :
    runEnv e s = .next t ↔ t = if s.envEnabled e = true then s.envApply e else s := by
  simp only [runEnv]
  split <;> simp [eq_comm]

/-- Everything a turn of the background can do. -/
theorem runService_cases {s t : State} (h : runService s = .next t) :
    (s.serviceEnabled = true ∧ service s = .next t) ∨ (s.serviceEnabled = false ∧ t = s) := by
  simp only [runService] at h
  split at h
  · exact .inl ⟨‹_›, h⟩
  · cases h
    simp_all

/-- Everything a host write can do: a command, a reserved word, or a fault. -/
theorem portWrite_next {a : Nat} {w : Word} {s t : State} (h : portWrite a w s = .next t) :
    a = s.params.base ∧
      ((∃ i, decode w = .instr i ∧ exec i s = .next t) ∨
        ((∃ r, decode w = .reserved r) ∧ t = { s with rsp := 0#32 })) := by
  simp only [portWrite] at h
  split at h
  · refine ⟨‹_›, ?_⟩
    simp only [runCommand] at h
    split at h
    · exact .inl ⟨_, ‹_›, h⟩
    · rw [reject_eq] at h
      cases h
      exact .inr ⟨⟨_, ‹_›⟩, rfl⟩
  · split at h <;> cases h

/-- Everything a host read can do: deliver the response, or a fault. -/
theorem portRead_next {a : Nat} {s t : State} (h : portRead a s = .next t) :
    a = s.params.base + 4 ∧ t = { s with hostData := s.rsp } := by
  simp only [portRead] at h
  split at h
  · cases h
    exact ⟨‹_›, rfl⟩
  · split at h <;> cases h

/-- Every start command is a two-wire start or an `XFER`. -/
theorem isStart_cases {i : Instr} (h : i.isStart = true) :
    (∃ a n, i = .startW a n) ∨ (∃ a m, i = .startR a m) ∨ (∃ a n m, i = .startWR a n m) ∨
      ∃ n, i = .xfer n := by
  cases i <;> simp_all [Instr.isStart]

/-- A two-wire start command runs as the two-wire start of its direction. -/
theorem exec_startW (a : BitVec 10) (n : BitVec 8) (s : State) :
    exec (.startW a n) s = twStart .write n 0#8 a s := rfl

theorem exec_startR (a : BitVec 10) (m : BitVec 8) (s : State) :
    exec (.startR a m) s = twStart .read 0#8 m a s := rfl

theorem exec_startWR (a : BitVec 10) (n m : BitVec 8) (s : State) :
    exec (.startWR a n m) s = twStart .writeThenRead n m a s := rfl

theorem exec_xfer (n : BitVec 8) (s : State) : exec (.xfer n) s = execXfer n s := rfl

/-- Everything `INIT` can do (40_start.md R110). -/
theorem exec_init_cases {x : BitVec 16} {s t : State} (h : exec (.init x) s = .next t) :
    (s.initDone = true ∧ t = { s with rsp := 0#32 }) ∨
      (s.initDone = false ∧
        t = { s.disableSources with
          initDone := true, timing := x, status := .idle
          hw := { s.hw with txFifo := [], rxFifo := [] }
          rsp := 1#32 }) := by
  simp only [exec, execInit] at h
  split at h
  · rw [reject_eq] at h
    cases h
    exact .inl ⟨‹_›, rfl⟩
  · rw [respond_eq] at h
    cases h
    exact .inr ⟨by simpa using ‹¬ s.initDone = true›, rfl⟩

/-- Everything `GETSTATUS` can do: it writes the response alone (41_status_ack_buffers.md R130). -/
theorem exec_getStatus_cases {s t : State} (h : exec .getStatus s = .next t) :
    ∃ v, t = { s with rsp := v } := by
  simp only [exec, execGetStatus, reject_eq, respond_eq] at h
  split at h <;> cases h <;> exact ⟨_, rfl⟩

/-- Everything `ACKIDLE` can do (41_status_ack_buffers.md R132). -/
theorem exec_ackIdle_cases {s t : State} (h : exec .ackIdle s = .next t) :
    t = { s with rsp := 0#32 } ∨
      (s.initDone = true ∧ s.status ≠ .inProgress ∧ t = { s with status := .idle, rsp := 1#32 }) := by
  simp only [exec, execAckIdle, reject_eq, respond_eq] at h
  split at h
  · cases h
    exact .inl rfl
  · split at h <;> cases h
    · exact .inl rfl
    · exact .inr ⟨by simpa using ‹¬ s.initDone = false›, ‹_›, rfl⟩

/-- Everything `WRBUF` can do (41_status_ack_buffers.md R134). -/
theorem exec_wrBuf_cases {i : BitVec 8} {b : Byte} {s t : State}
    (h : exec (.wrBuf i b) s = .next t) :
    t = { s with rsp := 0#32 } ∨
      (s.initDone = true ∧ i.toNat < s.params.cap ∧
        t = { s with wbuf := s.wbuf.write i.toNat b, rsp := 1#32 }) := by
  simp only [exec, execWrBuf, reject_eq, respond_eq] at h
  split at h
  · cases h
    exact .inl rfl
  · split at h <;> cases h
    · exact .inr ⟨by simpa using ‹¬ s.initDone = false›, ‹_›, rfl⟩
    · exact .inl rfl

/-- Everything `RDBUF` can do: it writes the response and passes a free-byte position
(41_status_ack_buffers.md R136). -/
theorem exec_rdBuf_cases {i : BitVec 8} {s t : State} (h : exec (.rdBuf i) s = .next t) :
    ∃ v d, t = { s with rsp := v, draws := d } := by
  simp only [exec, execRdBuf, reject_eq, respond_eq] at h
  split at h
  · cases h
    exact ⟨_, _, rfl⟩
  · split at h <;> cases h <;> exact ⟨_, _, rfl⟩

/-- Every command answers a next state (60_exceptions.md R210). -/
theorem exec_answers (i : Instr) (s : State) : ∃ t, exec i s = .next t := by
  cases i <;>
    simp only [exec, execInit, execStartW, execStartR, execStartWR, twStart, execXfer,
      execGetStatus, execAckIdle, execWrBuf, execRdBuf, reject_eq, respond_eq] <;>
    (repeat' split) <;> exact ⟨_, rfl⟩

end Sys2Proof.Laws
end

