-- ==== Sys2Proof/Laws/Runs.lean ====
section
/-! SUPPORT. Runs and executions: computing one, taking one apart, and what holds of every reachable
state and of every state of an execution. -/

namespace Sys2Proof.Laws

open Sys2Proof.Machine

/-- The run of a list of existing steps while the transaction is in progress, computed. -/
def runOffered : List Turn → State → Option State
  | [], s => some s
  | t :: ts, s =>
    if s.status = .inProgress ∧ s.offers t = true then
      match runTurn t s with
      | .next s' => runOffered ts s'
      | .fault _ => none
      | .refused _ => none
    else none

/-- A computed run is a run. -/
theorem run_of_runOffered {ts : List Turn} {s u : State} (h : runOffered ts s = some u) :
    TransactionRun ts s u := by
  induction ts generalizing s with
  | nil =>
    cases h
    exact .nil _
  | cons t ts ih =>
    simp only [runOffered] at h
    split at h
    · rename_i hs
      split at h
      · exact .cons t ts s _ u hs.1 hs.2 ‹_› (ih h)
      · cases h
      · cases h
    · cases h

/-- A computed run that ends in a status shows that such a run exists. -/
theorem run_ends {ts : List Turn} {s : State} {st : BusStatus}
    (h : (runOffered ts s).map State.status = some st) :
    ∃ u, TransactionRun ts s u ∧ u.status = st := by
  cases hr : runOffered ts s with
  | none => simp [hr] at h
  | some u => exact ⟨u, run_of_runOffered hr, by simpa [hr] using h⟩

/-- A property kept by every existing step of a transaction in progress holds at the end of a run
if it holds at its beginning. -/
theorem run_induction {P : State → Prop}
    (hstep : ∀ (t : Turn) (s s' : State), s.status = .inProgress → s.offers t = true →
      runTurn t s = .next s' → P s → P s')
    {ts : List Turn} {s u : State} (hr : TransactionRun ts s u) (h : P s) : P u := by
  induction hr with
  | nil _ => exact h
  | cons t ts s s' u hp ho ht _ ih => exact ih (hstep t s s' hp ho ht h)

/-- A run cut at its first step. -/
theorem run_cons {t : Turn} {ts : List Turn} {s u : State} (h : TransactionRun (t :: ts) s u) :
    s.status = .inProgress ∧ s.offers t = true ∧
      ∃ s', runTurn t s = .next s' ∧ TransactionRun ts s' u := by
  cases h with
  | cons _ _ _ s' _ hp ho ht hr => exact ⟨hp, ho, s', ht, hr⟩

/-- A property of the state alone, not of the agenda, that reset has and every step keeps holds of
every reachable state. -/
theorem reachable_induction {p : Params} {P : State → Prop} (h0 : P (State.resetWith p))
    (ha : ∀ (s : State) (agenda : List Turn), P s → P { s with agenda := agenda })
    (hs : ∀ s s' : State, P s → step s = .next s' → P s')
    {s : State} (h : Reachable p s) : P s := by
  induction h with
  | reset => exact h0
  | arrive s agenda _ ih => exact ha s agenda ih
  | step s s' _ hn ih => exact hs s s' ih hn

/-- A property of the state alone that every step keeps holds all along an execution that begins
with it. -/
theorem execution_induction {σ : Nat → State} {P : State → Prop} (hσ : Execution σ) (h0 : P (σ 0))
    (ha : ∀ (s : State) (agenda : List Turn), P s → P { s with agenda := agenda })
    (hs : ∀ s s' : State, P s → step s = .next s' → P s') (n : Nat) : P (σ n) := by
  induction n with
  | zero => exact h0
  | succ n ih =>
    obtain ⟨s', agenda, hn, he⟩ := hσ n
    rw [he]
    exact ha s' agenda (hs _ s' ih hn)

/-- The states that the given agenda leads through, one step after the other, no turn arriving. -/
def follow (s : State) : Nat → State
  | 0 => s
  | n + 1 =>
    match step (follow s n) with
    | .next s' => s'
    | .fault _ => follow s n
    | .refused _ => follow s n

/-- Once the agenda is empty nothing moves. -/
theorem follow_settles {s : State} {k : Nat} (h : (follow s k).agenda = []) (n : Nat) :
    follow s (k + n) = follow s k := by
  induction n with
  | zero => rfl
  | succ n ih => rw [← Nat.add_assoc, follow, ih, step_idle h]

/-- Steps that all answer a next state make an execution. -/
theorem follow_execution {s : State} (h : ∀ n, step (follow s n) = .next (follow s (n + 1))) :
    Execution (follow s) :=
  fun n => ⟨_, (follow s (n + 1)).agenda, h n, rfl⟩

/-- Where nothing of the background or the environment is left to do once the agenda is empty, the
execution is lawful under any premise. -/
theorem follow_lawful {s : State} {k : Nat}
    (h : ∀ n < k, step (follow s n) = .next (follow s (n + 1)))
    (ha : (follow s k).agenda = []) (hs : (follow s k).serviceEnabled = false)
    (he : ∀ e, (follow s k).envEnabled e = false) : LawfulExecution (follow s) := by
  refine ⟨follow_execution fun n => ?_, fun n hn => ?_, fun _ n e hn => ?_⟩
  · by_cases hlt : n < k
    · exact h n hlt
    · obtain ⟨d, rfl⟩ := Nat.exists_eq_add_of_le (Nat.le_of_not_lt hlt)
      rw [Nat.add_assoc, follow_settles ha, follow_settles ha, step_idle ha]
  · have := hn (k + n) (Nat.le_add_left n k)
    rw [follow_settles ha, hs] at this
    cases this
  · have := hn (k + n) (Nat.le_add_left n k)
    rw [follow_settles ha, he] at this
    cases this

end Sys2Proof.Laws
end

