-- ==== Sys2Proof/Tests/Slice0.lean ====
section
/-! SUPPORT. Tests: refused ill-formed terms, words written out from the spec, one-step checks against
the spec's examples and test vectors, and for every statement with hypotheses a witness that meets
them. -/

namespace Sys2Proof.Tests

set_option synthInstance.maxSize 4000
set_option synthInstance.maxHeartbeats 400000
-- one theorem after the other: many at once, each waiting for the kernel, hold too many stacks
set_option Elab.async false

open Sys2Proof.Machine Sys2Proof.Laws

/-! ### Helpers -/

/-- What a function of the next state gives, where the result is a next state. -/
def after {α : Type} (r : Result) (f : State → α) : Option α :=
  match r with
  | .next s => some (f s)
  | .fault _ => none
  | .refused _ => none

/-- The state a result answers, or the given one where it answers none. -/
def nextOr (r : Result) (s : State) : State :=
  match r with
  | .next s' => s'
  | .fault _ => s
  | .refused _ => s

/-- The state after some turns. -/
def go (ts : List Turn) (s : State) : State := ts.foldl (fun s t => nextOr (runTurn t s) s) s

theorem after_next {r : Result} (h : (after r fun _ => true) = some true) : ∃ t, r = .next t := by
  cases r <;> simp_all [after]

/-- A `TW` instance after `INIT`, three bytes loaded. -/
def tw : State :=
  { State.reset with initDone := true, wbuf := [(0, 0xDE), (1, 0xAD), (2, 0xBE)] }

/-- An `FW` instance after `INIT`, seventeen bytes loaded. -/
def fw : State :=
  { State.resetWith (Params.default .fw) with
    initDone := true, wbuf := (List.range 17).map fun k => (k, BitVec.ofNat 8 k) }

/-- A full write buffer of a `TW` instance after `INIT`. -/
def twFull : State := { tw with wbuf := (List.range 16).map fun k => (k, BitVec.ofNat 8 k) }

def writing : State := nextOr (exec (.startW 0x2A 1) tw) tw
def reading : State := nextOr (exec (.startR 0x50 1) tw) tw
def writeReading : State := nextOr (exec (.startWR 0x50 1 1) tw) tw
def transferring : State := nextOr (exec (.xfer 17) fw) fw
def transferringOne : State := nextOr (exec (.xfer 1) fw) fw

/-- A write the peer rejected, not yet serviced. -/
def rejected : State := go [.env (.start true false), .env (.tx false)] writing

/-- A write-then-read at the end of its write phase, not yet serviced. -/
def phaseDone : State :=
  go [.env (.start true false), .env (.tx true), .env (.phaseEnd false)] writeReading

/-- A read whose stop condition has been generated with the bus still busy, not yet serviced. -/
def stopped : State :=
  go [.env (.start true false), .env (.rx 0x11), .env (.phaseEnd true)] reading

/-- That read completed. -/
def finished : State := go [.service] stopped

/-- A rejected write that has ended in `Error`. -/
def failed : State := go [.service, .env (.stop true), .service] rejected

/-- A transfer of one byte that has come back. -/
def exchanged : State := go [.env (.xchg 0x80)] transferringOne

/-- A two-wire instance that holds as many received bytes as its FIFO has entries. -/
def receivedFull : State :=
  { reading with hw := { reading.hw with
      wp := .data, count := 1, rxFifo := List.replicate 16 0#8 } }

/-- A transfer of 17 bytes of which the first chunk has come back. -/
def chunkBack : State :=
  go ((List.range 16).map fun k => .env (.xchg (BitVec.ofNat 8 (k + 0x80)))) transferring

/-! ### Ill-formed terms are refused -/

theorem test_startW_not_of_fw : (Instr.startW 0 1).wellFormed .fw = false := by decide
theorem test_startR_not_of_fw : (Instr.startR 0 1).wellFormed .fw = false := by decide
theorem test_startWR_not_of_fw : (Instr.startWR 0 1 1).wellFormed .fw = false := by decide
theorem test_xfer_not_of_tw : (Instr.xfer 1).wellFormed .tw = false := by decide
theorem test_fwCap_below : ¬ ({ Params.default .fw with fwCap := 49 } : Params).wf := by decide
theorem test_fwCap_above : ¬ ({ Params.default .fw with fwCap := 256 } : Params).wf := by decide
theorem test_addrW_below : ¬ ({ Params.default .tw with addrW := 0 } : Params).wf := by decide
theorem test_addrW_above : ¬ ({ Params.default .tw with addrW := 11 } : Params).wf := by decide
theorem test_depth_below : ¬ ({ Params.default .tw with depth := 0 } : Params).wf := by decide
theorem test_depth_above : ¬ ({ Params.default .tw with depth := 32 } : Params).wf := by decide
theorem test_ports_overlap : ¬ ({ instances := [tw, fw], order := [] } : System).ownPorts := by
  decide
theorem test_memory_unsorted : ¬ Memory.wf [(1, 0), (0, 0)] := by decide
theorem test_memory_repeated : ¬ Memory.wf [(1, 0), (1, 0)] := by decide
theorem test_memory_beyond : ¬ Memory.within [(16, 0)] 16 := by decide

/-! ### Words written out from the formats of 30_encoding.md -/

/-- 95_test_vectors.md TV48: `op` 1, bits 27:16 ignored, `timing` 0x0190. -/
theorem test_decode_init :
    decode 0b0001_111111111111_0000000110010000#32 = .instr (.init 0x190) := by decide
/-- 40_start.md R113: `op` 2, `dir` 0, `wlen` 3, `addr` 0x2A; `rlen` ignored. -/
theorem test_decode_startW :
    decode 0b0010_00_00000011_11111111_0000101010#32 = .instr (.startW 0x2A 3) := by decide
/-- 95_test_vectors.md TV10: `op` 2, `dir` 1, `wlen` 255 ignored, `rlen` 1, `addr` 0x50. -/
theorem test_decode_startR :
    decode 0b0010_01_11111111_00000001_0001010000#32 = .instr (.startR 0x50 1) := by decide
/-- 95_test_vectors.md TV16: `op` 2, `dir` 2, `wlen` 16, `rlen` 17, `addr` 0x50. -/
theorem test_decode_startWR :
    decode 0b0010_10_00010000_00010001_0001010000#32 = .instr (.startWR 0x50 16 17) := by decide
/-- 40_start.md R116: `op` 3, `wlen` 50; `dir`, `rlen`, `addr` ignored. -/
theorem test_decode_xfer :
    decode 0b0011_11_00110010_11111111_1111111111#32 = .instr (.xfer 50) := by decide
/-- 30_encoding.md R88: `op` 4, bits 27:0 ignored. -/
theorem test_decode_getStatus :
    decode 0b0100_1111111111111111111111111111#32 = .instr .getStatus := by decide
/-- 30_encoding.md R88: `op` 5, bits 27:0 ignored. -/
theorem test_decode_ackIdle :
    decode 0b0101_0000000000000000000000000001#32 = .instr .ackIdle := by decide
/-- 95_test_vectors.md TV37: `op` 6, `index` 15, `data` 0x55. -/
theorem test_decode_wrBuf :
    decode 0b0110_111111111111_00001111_01010101#32 = .instr (.wrBuf 15 0x55) := by decide
/-- 95_test_vectors.md TV43: `op` 7, `index` 2; bits 7:0 ignored. -/
theorem test_decode_rdBuf :
    decode 0b0111_000000000000_00000010_11111111#32 = .instr (.rdBuf 2) := by decide
/-- 95_test_vectors.md TV49, TV50: reserved words. -/
theorem test_decode_reserved :
    decode 0x00000000#32 = .reserved (.opcode 0) ∧ decode 0x80000000#32 = .reserved (.opcode 8) ∧
      decode 0xF0000000#32 = .reserved (.opcode 15) ∧
      decode 0x2C040450#32 = .reserved .direction := by decide
/-- The encoder writes the spec's example words (40_start.md R113 to R116). -/
theorem test_encode_examples :
    encode (.startW 0x2A 3) = 0x200C002A#32 ∧ encode (.startR 0x50 1) = 0x24000450#32 ∧
      encode (.startWR 0x50 3 3) = 0x280C0C50#32 ∧ encode (.xfer 50) = 0x30C80000#32 := by decide
/-- The table word of `START.WR` decodes, and the very next step runs it. -/
theorem test_table_word :
    decodeTableWord 32 0x280C0C50 = some (.startWR 0x50 3 3) ∧
      after (step (tw.withFetchWord 32 0x280C0C50)) (fun s => (s.status, s.agenda)) =
        some (.inProgress, []) := by decide

/-! ### One step each, from the spec's examples and vectors -/

/-- 95_test_vectors.md TV46. -/
theorem test_init_stores_timing :
    after (exec (.init 0xABCD) State.reset)
      (fun s => (s.rsp, s.initDone, s.timing, s.status)) = some (1, true, 0xABCD, .idle) := by
  decide
/-- 95_test_vectors.md TV47. -/
theorem test_init_twice :
    after (exec (.init 0x1234) tw) (fun s => (s.rsp, s.timing)) = some (0, 0) := by decide
/-- 40_start.md R113, its example. -/
theorem test_startW_example :
    after (exec (.startW 0x2A 3) tw)
      (fun s => (s.rsp, s.status, s.hw.txFifo, s.hw.count, s.hw.rxMode, s.hw.autoStop,
        s.nextWriteIndex, s.ieTc, s.hw.startReq)) =
      some (1, .inProgress, [0xDE, 0xAD, 0xBE], 3, false, true, 3, false, true) := by decide
/-- 95_test_vectors.md TV18: the address bits above `ADDR_W` are dropped. -/
theorem test_startW_address :
    after (exec (.startW 0x3D0 1) tw) (fun s => (s.rsp, s.peerAddress, s.hw.addr)) =
      some (1, 0x50, 0x50) := by decide
/-- 40_start.md R114, its example. -/
theorem test_startR_example :
    after (exec (.startR 0x50 1) tw)
      (fun s => (s.rsp, s.status, s.bytesRemaining, s.hw.count, s.hw.rxMode, s.hw.txFifo,
        s.fillRounds)) = some (1, .inProgress, 1, 1, true, [], 0) := by decide
/-- 95_test_vectors.md TV9. -/
theorem test_startR_too_long :
    after (exec (.startR 0x50 17) tw) (fun s => (s.rsp, s.status)) = some (0, .idle) := by decide
/-- 95_test_vectors.md TV15. -/
theorem test_startWR_full :
    after (exec (.startWR 0x50 16 16) twFull)
      (fun s => (s.rsp, s.bytesRemaining, s.nextWriteIndex, s.pendingReadLength, s.hw.count,
        s.hw.autoStop, s.ieTc)) = some (1, 16, 16, 16, 16, false, true) := by decide
/-- 95_test_vectors.md TV14. -/
theorem test_startWR_no_read :
    after (exec (.startWR 0x50 1 0) tw) (fun s => (s.rsp, s.status)) = some (0, .idle) := by decide
/-- 95_test_vectors.md TV23. -/
theorem test_xfer_two_rounds :
    after (exec (.xfer 17) fw)
      (fun s => (s.rsp, s.cs, s.nextWriteIndex, s.bytesRemaining, s.rxThreshold, s.ieRx,
        s.hw.txFifo.length)) = some (1, true, 16, 18, 16, true, 16) := by decide
/-- 95_test_vectors.md TV27. -/
theorem test_xfer_beyond_capacity :
    after (exec (.xfer 65) fw) (fun s => (s.rsp, s.cs, s.status)) = some (0, false, .idle) := by
  decide
/-- 95_test_vectors.md TV31: the override of raw `Finished`. -/
theorem test_getStatus_override :
    (finished.status, finished.hw.busy, after (exec .getStatus finished) State.rsp) =
      (.finished, true, some 1) := by decide
/-- 95_test_vectors.md TV33: no override of raw `Error`. -/
theorem test_getStatus_error :
    (failed.status, failed.hw.busy, after (exec .getStatus failed) State.rsp) =
      (.error, true, some 3) := by decide
/-- 95_test_vectors.md TV31: an early acknowledgement succeeds on the raw status. -/
theorem test_ackIdle_early :
    after (exec .ackIdle finished) (fun s => (s.rsp, s.status)) = some (1, .idle) := by decide
/-- 95_test_vectors.md TV32. -/
theorem test_ackIdle_running :
    after (exec .ackIdle writing) (fun s => (s.rsp, s.status)) = some (0, .inProgress) := by decide
/-- 95_test_vectors.md TV37. -/
theorem test_wrBuf_last :
    after (exec (.wrBuf 15 0x55) tw) (fun s => (s.rsp, s.wbuf.read 15, s.wbuf.read 2)) =
      some (1, some 0x55, some 0xBE) := by decide
/-- 95_test_vectors.md TV38. -/
theorem test_wrBuf_beyond :
    after (exec (.wrBuf 16 0x55) tw) (fun s => (s.rsp, s.wbuf.read 16)) = some (0, none) := by decide
/-- 41_status_ack_buffers.md R136: valid data in `Finished`. -/
theorem test_rdBuf_valid :
    after (exec (.rdBuf 0) finished) State.rsp = some 0x111 := by decide
/-- 95_test_vectors.md TV41. -/
theorem test_rdBuf_beyond : after (exec (.rdBuf 16) finished) State.rsp = some 0 := by decide
/-- 95_test_vectors.md TV55: both flags pending, the repeated start is suppressed. -/
theorem test_service_both_flags :
    after (runTurn .service (go [.env (.start false true)] writeReading))
      (fun s => (s.errLatched, s.hw.nack, s.hw.stopReq, s.stopIssued, s.ieTc, s.hw.tc,
        s.pendingReadLength, s.hw.startReq, s.hw.rxMode)) =
      some (true, false, true, true, false, false, 0, false, false) := by decide
/-- 43_service_fw.md R167, R170: the second round of a 17-byte transfer pushes one byte. -/
theorem test_service_symmetric_fill :
    after (runTurn .service chunkBack)
      (fun s => (s.nextReadIndex, s.nextWriteIndex, s.bytesRemaining, s.rxThreshold, s.fillRounds,
        s.hw.txFifo, s.status)) = some (16, 17, 1, 1, 2, [16], .inProgress) := by
  decide +kernel
/-- 44_adapter_contract.md R186, its example. -/
theorem test_env_tx_rejected :
    after (runEnv (.tx false)
        (go [.env (.start true false)] (nextOr (exec (.startW 0x2A 3) tw) tw)))
      (fun s => (s.hw.txFifo, s.hw.count, s.hw.nack, s.hw.wp)) =
      some ([0xAD, 0xBE], 3, true, .hold) := by decide

/-! ### Witnesses: concrete states and operands that meet the hypotheses of each statement -/

theorem witness_EncodeDecodeKeepsSignificantBits :
    decode 0x1FFF0190#32 = .instr (.init 0x190) := by decide

theorem witness_IgnoredBitsNeverChangeMeaning :
    decode 0x1FFF0190#32 = .instr (.init 0x190) ∧
      0x10000190#32 &&& significantBits (.init 0x190) =
        0x1FFF0190#32 &&& significantBits (.init 0x190) := by decide

theorem witness_DecoderFollowsOpcodeMap :
    decode 0x24000450#32 = .instr (.startR 0x50 1) ∧
      decode 0x2C040450#32 = .reserved .direction := by decide

theorem witness_StepRunsDecodedCommand :
    ({ tw with agenda := [.hostWrite 0 0x200C002A#32, .service] } : State).agenda =
        .hostWrite tw.params.base 0x200C002A#32 :: [.service] ∧
      decode 0x200C002A#32 = .instr (.startW 0x2A 3) := by decide

/-- A word of each reserved group at the ends of its range, on the kind it is reserved on. -/
theorem witness_ReservedWordChangesNothing :
    (0x0FFFFFFF#32).extractLsb' 28 4 = 0#4 ∧ 8 ≤ ((0x80000000#32).extractLsb' 28 4).toNat ∧
      8 ≤ ((0xF0000000#32).extractLsb' 28 4).toNat ∧
      ((0x2C040450#32).extractLsb' 28 4 = 2#4 ∧ (0x2C040450#32).extractLsb' 26 2 = 3#2) ∧
      ((0x20040050#32).extractLsb' 28 4 = 2#4 ∧ fw.params.bus = .fw) ∧
      ((0x30040000#32).extractLsb' 28 4 = 3#4 ∧ tw.params.bus = .tw) := by decide

/-- Addresses beside the two of the port. -/
theorem witness_PortReadDeliversResponse :
    (1 ≠ tw.params.base ∧ 1 ≠ tw.params.base + 4) ∧ (3 ≠ tw.params.base ∧ 3 ≠ tw.params.base + 4) ∧
      (5 ≠ tw.params.base ∧ 5 ≠ tw.params.base + 4) := by decide

theorem witness_StepTakesTurns :
    tw.agenda = [] ∧
      ({ tw with agenda := [.hostWrite 4 0#32] } : State).agenda = .hostWrite 4 0#32 :: [] ∧
      ({ tw with agenda := [.hostRead 4] } : State).agenda = .hostRead 4 :: [] ∧
      ({ tw with agenda := [.service] } : State).agenda = .service :: [] ∧
      ({ tw with agenda := [.env .busyRel] } : State).agenda = .env .busyRel :: [] := by decide

theorem witness_PendingVectorBits : tw.params.bus = .tw ∧ fw.params.bus = .fw := by decide

/-- The ends of the parameters' ranges. -/
theorem witness_ResetMeetsTheInvariant :
    ({ Params.default .fw with depth := 1, fwCap := 50, addrW := 1 } : Params).wf ∧
      ({ Params.default .tw with depth := 31, fwCap := 255, addrW := 10 } : Params).wf := by decide

theorem witness_InitRunsOnce :
    State.reset.initDone = false ∧ tw.initDone = true ∧
      (State.reset.initDone = false ∧ ∀ t, Instr.getStatus ≠ .init t) :=
  ⟨rfl, rfl, rfl, nofun⟩

/-- The lengths 1 and 16 run; 0 and 17 do not, nor does a length in range after `Error`. -/
theorem witness_StartWriteRunsOrIsRejected :
    (0x200C002A#32).extractLsb' 26 6 = 0b001000#6 ∧
      (tw.readyTw ∧ 1 ≤ (1#8).toNat ∧ (1#8).toNat ≤ tw.params.depth) ∧
      (tw.readyTw ∧ 1 ≤ (16#8).toNat ∧ (16#8).toNat ≤ tw.params.depth) ∧
      ¬ (tw.readyTw ∧ 1 ≤ (0#8).toNat ∧ (0#8).toNat ≤ tw.params.depth) ∧
      ¬ (tw.readyTw ∧ 1 ≤ (17#8).toNat ∧ (17#8).toNat ≤ tw.params.depth) ∧
      ¬ (failed.readyTw ∧ 1 ≤ (1#8).toNat ∧ (1#8).toNat ≤ failed.params.depth) := by decide +kernel

theorem witness_StartReadRunsOrIsRejected :
    (0x24000450#32).extractLsb' 26 6 = 0b001001#6 ∧
      (tw.readyTw ∧ 1 ≤ (1#8).toNat ∧ (1#8).toNat ≤ tw.params.depth) ∧
      (tw.readyTw ∧ 1 ≤ (16#8).toNat ∧ (16#8).toNat ≤ tw.params.depth) ∧
      ¬ (tw.readyTw ∧ 1 ≤ (0#8).toNat ∧ (0#8).toNat ≤ tw.params.depth) ∧
      ¬ (tw.readyTw ∧ 1 ≤ (17#8).toNat ∧ (17#8).toNat ≤ tw.params.depth) := by decide +kernel

theorem witness_StartWriteReadRunsOrIsRejected :
    (0x280C0C50#32).extractLsb' 26 6 = 0b001010#6 ∧
      (tw.readyTw ∧ (1 ≤ (1#8).toNat ∧ (1#8).toNat ≤ tw.params.depth) ∧
        (1 ≤ (16#8).toNat ∧ (16#8).toNat ≤ tw.params.depth)) ∧
      ¬ (tw.readyTw ∧ (1 ≤ (0#8).toNat ∧ (0#8).toNat ≤ tw.params.depth) ∧
        (1 ≤ (1#8).toNat ∧ (1#8).toNat ≤ tw.params.depth)) ∧
      ¬ (tw.readyTw ∧ (1 ≤ (1#8).toNat ∧ (1#8).toNat ≤ tw.params.depth) ∧
        (1 ≤ (17#8).toNat ∧ (17#8).toNat ≤ tw.params.depth)) := by decide +kernel

theorem witness_XferRunsOrIsRejected :
    (0x30C80000#32).extractLsb' 28 4 = 3#4 ∧ fw.params.wf ∧
      (fw.readyFw ∧ 1 ≤ (1#8).toNat ∧ (1#8).toNat ≤ fw.params.fwCap) ∧
      (fw.readyFw ∧ 1 ≤ (64#8).toNat ∧ (64#8).toNat ≤ fw.params.fwCap) ∧
      ¬ (fw.readyFw ∧ 1 ≤ (0#8).toNat ∧ (0#8).toNat ≤ fw.params.fwCap) ∧
      ¬ (fw.readyFw ∧ 1 ≤ (65#8).toNat ∧ (65#8).toNat ≤ fw.params.fwCap) := by decide +kernel

/-- Each clause: a running transaction; the lengths 0 and `CAP` + 1; a start that responds 0. -/
theorem witness_RejectedStartChangesNothing :
    (Instr.startW 0x2A 17).isStart = true ∧ writing.status ≠ .idle ∧
      (17#8).toNat = tw.params.cap + 1 ∧ (Instr.xfer 0).isStart = true ∧ (0#8).toNat = 0 ∧
      after (exec (.startW 0x2A 17) tw) State.rsp = some 0#32 := by decide +kernel

theorem witness_GetStatusReports :
    (0x4FFFFFFF#32).extractLsb' 28 4 = 4#4 ∧ tw.initDone = true ∧
      State.reset.initDone = false := by decide

theorem witness_AckIdleReleasesTerminalStatus :
    (0x50000000#32).extractLsb' 28 4 = 5#4 ∧
      (finished.initDone = true ∧ finished.status ≠ .inProgress) ∧
      (writing.initDone = true ∧ writing.status = .inProgress) ∧
      State.reset.initDone = false := by decide +kernel

theorem witness_WriteBufferStoresOneByte :
    (0x600002A2#32).extractLsb' 28 4 = 6#4 ∧ (tw.initDone = true ∧ (15#8).toNat < tw.params.cap) ∧
      tw.params.cap ≤ (16#8).toNat ∧ State.reset.initDone = false := by decide

theorem witness_ReadBufferRespondsWithData :
    (0x70000100#32).extractLsb' 28 4 = 7#4 ∧
      (finished.initDone = true ∧ (0#8).toNat < finished.params.cap ∧
        finished.status = .finished ∧ (0#8).toNat < finished.nextReadIndex.toNat ∧
        finished.rbuf.read 0 = some 0x11#8) ∧
      finished.params.cap ≤ (16#8).toNat := by decide +kernel

theorem witness_CommandsLeaveBackgroundStateAlone :
    (∃ t, exec (.startW 0x2A 3) tw = .next t) ∧ ∃ t, exec (.xfer 17) fw = .next t :=
  ⟨exec_answers _ _, exec_answers _ _⟩

/-- Pending with no stop yet requested; not pending, at the stop; and a second pending one after a
stop was requested. -/
theorem witness_NackLatchesErrorAndRequestsOneStop :
    rejected.params.bus = .tw ∧ (∃ t, service rejected = .next t) ∧
      (rejected.ieNack = true ∧ rejected.hw.nack = true ∧ rejected.stopIssued = false) ∧
      (∃ t, service { rejected with stopIssued := true } = .next t) ∧
      (∃ t, service stopped = .next t) ∧
      ¬ (stopped.ieNack = true ∧ stopped.hw.nack = true) := by
  refine ⟨by decide +kernel, after_next (by decide +kernel), by decide +kernel,
    after_next (by decide +kernel), after_next (by decide +kernel), by decide +kernel⟩

/-- The event alone; the event with a negative-acknowledgement; no event. -/
theorem witness_TransferCompleteArmsReadPhase :
    (phaseDone.params.bus = .tw ∧ ∃ t, service phaseDone = .next t) ∧
      (phaseDone.ieTc = true ∧ phaseDone.hw.tc = true ∧ phaseDone.errLatched = false ∧
        phaseDone.hw.nack = false) ∧
      (∃ t, service (go [.env (.start false true)] writeReading) = .next t) ∧
      (∃ t, service stopped = .next t) ∧ stopped.hw.tc = false := by
  refine ⟨⟨by decide +kernel, after_next (by decide +kernel)⟩, by decide +kernel,
    after_next (by decide +kernel), after_next (by decide +kernel), by decide +kernel⟩

theorem witness_StopDetectedCompletesTransaction :
    (stopped.params.bus = .tw ∧ ∃ t, service stopped = .next t) ∧
      (stopped.ieStop = true ∧ stopped.hw.stopDet = true) ∧
      (∃ t, service rejected = .next t) ∧ rejected.hw.stopDet = false := by
  refine ⟨⟨by decide +kernel, after_next (by decide +kernel)⟩, by decide +kernel,
    after_next (by decide +kernel), by decide +kernel⟩

theorem witness_TwServiceFrame : stopped.params.bus = .tw ∧ ∃ t, service stopped = .next t :=
  ⟨by decide +kernel, after_next (by decide +kernel)⟩

theorem witness_DrainStoresReceivedBytes :
    (stopped.params.wf ∧ ∃ t, service stopped = .next t) ∧
      (chunkBack.params.wf ∧ ∃ t, service chunkBack = .next t) := by
  refine ⟨⟨by decide +kernel, after_next (by decide +kernel)⟩,
    by decide +kernel, after_next (by decide +kernel)⟩

theorem witness_FillPushesNextBytes :
    (chunkBack.params.wf ∧ ∃ t, service chunkBack = .next t) ∧
      (exchanged.params.wf ∧ ∃ t, service exchanged = .next t) := by
  refine ⟨⟨by decide +kernel, after_next (by decide +kernel)⟩,
    by decide +kernel, after_next (by decide +kernel)⟩

/-- The last step of a transfer, and one that is not the last. -/
theorem witness_CursorCompletesFourWireTransfer :
    (exchanged.params.bus = .fw ∧ after (service exchanged) State.bytesRemaining = some 0#9) ∧
      (chunkBack.params.bus = .fw ∧ after (service chunkBack) State.bytesRemaining = some 1#9) := by
  decide +kernel

theorem witness_FwServiceFrame : chunkBack.params.bus = .fw ∧ ∃ t, service chunkBack = .next t :=
  ⟨by decide +kernel, after_next (by decide +kernel)⟩

theorem witness_EnabledServiceNeverFaults :
    (stopped.Inv ∧ stopped.serviceEnabled = true) ∧
      (chunkBack.Inv ∧ chunkBack.serviceEnabled = true) := by decide +kernel

/-- A start condition and a repeated start. -/
theorem witness_EnvStartSendsAddress :
    (writing.params.bus = .tw ∧ writing.hw.startReq = true ∧ writing.hw.wp = .idle) ∧
      ((go [.service] phaseDone).hw.startReq = true ∧
        (go [.service] phaseDone).hw.wp = .hold) := by decide +kernel

theorem witness_EnvTxMovesOneByte :
    (go [.env (.start true false)] writing).params.bus = .tw ∧
      (go [.env (.start true false)] writing).hw.wp = .data ∧
      (go [.env (.start true false)] writing).hw.rxMode = false ∧
      0 < (go [.env (.start true false)] writing).hw.count.toNat ∧
      (go [.env (.start true false)] writing).hw.txFifo = 0xDE#8 :: [] := by decide +kernel

theorem witness_EnvRxReceivesOneByte :
    (go [.env (.start true false)] reading).params.bus = .tw ∧
      (go [.env (.start true false)] reading).hw.wp = .data ∧
      (go [.env (.start true false)] reading).hw.rxMode = true ∧
      0 < (go [.env (.start true false)] reading).hw.count.toNat ∧
      (go [.env (.start true false)] reading).hw.rxFifo.length < reading.params.depth := by
  decide +kernel

/-- The end of a phase without automatic stop and of one with it. -/
theorem witness_EnvEndRaisesEventOrStop :
    ((go [.env (.start true false), .env (.tx true)] writeReading).hw.wp = .data ∧
      (go [.env (.start true false), .env (.tx true)] writeReading).hw.count.toNat = 0 ∧
      (go [.env (.start true false), .env (.tx true)] writeReading).hw.autoStop = false) ∧
    ((go [.env (.start true false), .env (.tx true)] writing).hw.wp = .data ∧
      (go [.env (.start true false), .env (.tx true)] writing).hw.count.toNat = 0 ∧
      (go [.env (.start true false), .env (.tx true)] writing).hw.autoStop = true) := by
  decide +kernel

theorem witness_EnvStopReleasesBus :
    ((go [.service] rejected).params.bus = .tw ∧ (go [.service] rejected).hw.stopReq = true ∧
      (go [.service] rejected).hw.wp = .hold) ∧
    (finished.params.bus = .tw ∧ finished.hw.wp = .idle ∧ finished.hw.busy = true ∧
      finished.hw.startReq = false) := by decide +kernel

theorem witness_EnvXchgExchangesOneByte :
    transferringOne.params.bus = .fw ∧ transferringOne.hw.txFifo = 0#8 :: [] ∧
      transferringOne.hw.rxFifo.length < transferringOne.params.depth := by decide +kernel

theorem witness_EnvironmentNeverTouchesEngine :
    ∃ t, runEnv (.start true false) writing = .next t := after_next (by decide +kernel)

/-- Each clause where its step does not exist: nothing requested; an empty transmit FIFO; a full
receive FIFO; bytes left to move; no stop requested; the bus free; a step of the other kind. -/
theorem witness_DisabledEnvironmentTurnsPass :
    ¬ (tw.params.bus = .tw ∧ tw.hw.startReq = true ∧ (tw.hw.wp = .idle ∨ tw.hw.wp = .hold)) ∧
    ({ writing with hw := { writing.hw with wp := .data, txFifo := [] } } : State).hw.txFifo = [] ∧
    (receivedFull.hw.wp = .data ∧ receivedFull.hw.rxMode = true ∧
      0 < receivedFull.hw.count.toNat ∧
      ¬ receivedFull.hw.rxFifo.length < receivedFull.params.depth) ∧
    ¬ (receivedFull.params.bus = .tw ∧ receivedFull.hw.wp = .data ∧
      receivedFull.hw.count.toNat = 0) ∧
    ¬ (writing.params.bus = .tw ∧ writing.hw.stopReq = true ∧
      (writing.hw.wp = .data ∨ writing.hw.wp = .hold)) ∧
    ¬ (tw.params.bus = .tw ∧ tw.hw.wp = .idle ∧ tw.hw.busy = true ∧ tw.hw.startReq = false) ∧
    (¬ (fw.params.bus = .fw ∧ fw.hw.txFifo ≠ [] ∧ fw.hw.rxFifo.length < fw.params.depth) ∧
      fw.params.bus ≠ .tw) := by decide +kernel

theorem witness_StepKeepsTheInvariant :
    ({ stopped with agenda := [.service] } : State).Inv ∧
      after (step { stopped with agenda := [.service] }) State.status = some .finished := by
  decide +kernel

theorem witness_StepKeepsConfiguration :
    (∃ s', step { tw with agenda := [.hostWrite 0 0x200C002A#32] } = .next s') ∧
      tw.initDone = true := ⟨after_next (by decide +kernel), rfl⟩

/-- A reachable state: reset, and the host's first command is `INIT`. -/
theorem witness_Reachable :
    (Params.default .tw).wf ∧
      ∃ s s' : State, Reachable (Params.default .tw) s ∧ step s = .next s' ∧ s'.initDone = true := by
  refine ⟨by decide, { State.reset with agenda := [.hostWrite 0 0x10000190#32] }, _,
    .arrive _ _ .reset, rfl, rfl⟩

theorem witness_ReachableCursorBounds :
    (Params.default .tw).wf ∧ Reachable (Params.default .tw) State.reset := ⟨by decide, .reset⟩

theorem witness_ReachableStateInvariants :
    (Params.default .fw).wf ∧ Reachable (Params.default .fw) (State.resetWith (Params.default .fw)) ∧
      (State.resetWith (Params.default .fw)).status ≠ .inProgress := ⟨by decide, .reset, by decide⟩

theorem witness_StatusChangesOnlyAlongEdges :
    (Params.default .tw).wf ∧ ∃ s s' : State, Reachable (Params.default .tw) s ∧
      step s = .next s' := by
  obtain ⟨h, s, s', hr, hs, -⟩ := witness_Reachable
  exact ⟨h, s, s', hr, hs⟩

/-- A start, an acknowledgement, a completing service step: each changes the status. -/
theorem witness_StatusWriters :
    (tw.Inv ∧ after (exec (.startW 0x2A 3) tw) State.status = some .inProgress) ∧
      (finished.Inv ∧ after (exec .ackIdle finished) State.status = some .idle) ∧
      (stopped.Inv ∧ after (runTurn .service stopped) State.status = some .finished) ∧
      (writing.Inv ∧
        after (runTurn (.env (.start true true)) writing) State.status = some .inProgress) := by
  refine ⟨?_, ?_, ?_, ?_⟩ <;> decide +kernel

theorem witness_TerminalStatusIsSticky :
    ({ finished with agenda := [.hostWrite 0 0x50000000#32] } : State).Inv ∧
      finished.status = .finished ∧
      after (step { finished with agenda := [.hostWrite 0 0x50000000#32] }) State.status =
        some .idle ∧
      (failed.Inv ∧ failed.status = .error ∧ after (step failed) State.status = some .error) := by
  decide +kernel

theorem witness_ReadBufferStaysAfterCompletion :
    ({ finished with agenda := [.service] } : State).Inv ∧ finished.status ≠ .inProgress ∧
      after (step { finished with agenda := [.service] }) State.status = some .finished := by
  decide +kernel

theorem witness_FourWireNeverErrors :
    (Params.default .fw).wf ∧ (Params.default .fw).bus = .fw ∧
      Reachable (Params.default .fw) (State.resetWith (Params.default .fw)) :=
  ⟨by decide, rfl, .reset⟩

/-- A step that counts a stop request, and a start after an error, which sets `stopIssued` back. -/
theorem witness_StopRequestedAtMostOnce :
    after (step { rejected with agenda := [.service] }) State.stopCount = some 1 ∧
      failed.stopIssued = true ∧
      after (step { failed with
        status := .idle, hw := { failed.hw with busy := false }
        agenda := [.hostWrite 0 0x200C002A#32] }) State.stopIssued = some false := by
  decide +kernel

theorem witness_FourWireChunkingIsCorrect :
    fw.Inv ∧ exec (.xfer 1) fw = .next transferringOne ∧ transferringOne.rsp = 1#32 ∧
      ∃ u, TransactionRun [.env (.xchg 0x80), .service] transferringOne u ∧
        u.status = .finished :=
  ⟨by decide +kernel, rfl, by decide +kernel, run_ends (by decide +kernel)⟩

theorem witness_WriteThenReadDelivers :
    tw.Inv ∧ exec (.startWR 0x50 1 1) tw = .next writeReading ∧ writeReading.rsp = 1#32 ∧
      ∃ u, TransactionRun
          [.env (.start true false), .env (.tx true), .env (.phaseEnd false), .service,
            .env (.start true false), .env (.rx 0x11), .env (.phaseEnd false), .service]
          writeReading u ∧ u.status = .finished :=
  ⟨by decide +kernel, rfl, by decide +kernel, run_ends (by decide +kernel)⟩

theorem witness_PureWriteDelivers :
    tw.Inv ∧ exec (.startW 0x2A 1) tw = .next writing ∧ writing.rsp = 1#32 ∧
      ∃ u, TransactionRun
          [.env (.start true false), .env (.tx true), .env (.phaseEnd false), .service] writing u ∧
        u.status = .finished :=
  ⟨by decide +kernel, rfl, by decide +kernel, run_ends (by decide +kernel)⟩

theorem witness_PureReadDelivers :
    tw.Inv ∧ exec (.startR 0x50 1) tw = .next reading ∧ reading.rsp = 1#32 ∧
      ∃ u, TransactionRun
          [.env (.start true false), .env (.rx 0x11), .env (.phaseEnd false), .service] reading u ∧
        u.status = .finished :=
  ⟨by decide +kernel, rfl, by decide +kernel, run_ends (by decide +kernel)⟩

theorem witness_ErrorPathReleasesBusOnce :
    tw.Inv ∧ (Instr.startW 0x2A 1).isStart = true ∧
      exec (.startW 0x2A 1) tw = .next writing ∧ writing.rsp = 1#32 ∧
      ∃ u, TransactionRun
          [.env (.start true false), .env (.tx false), .service, .env (.stop false), .service]
          writing u ∧ u.status = .error :=
  ⟨by decide +kernel, rfl, rfl, by decide +kernel, run_ends (by decide +kernel)⟩

/-- The other count: a read phase was armed, and the peer rejected its repeated start. -/
theorem witness_ErrorPathReleasesBusOnce_restart :
    tw.Inv ∧ (Instr.startWR 0x50 1 1).isStart = true ∧
      exec (.startWR 0x50 1 1) tw = .next writeReading ∧ writeReading.rsp = 1#32 ∧
      ∃ u, TransactionRun
          [.env (.start true false), .env (.tx true), .env (.phaseEnd false), .service,
            .env (.start false false), .service, .env (.stop false), .service]
          writeReading u ∧ u.status = .error :=
  ⟨by decide +kernel, rfl, rfl, by decide +kernel, run_ends (by decide +kernel)⟩

theorem witness_InProgressIsNeverStuck :
    (writing.Inv ∧ writing.status = .inProgress) ∧
      (transferring.Inv ∧ transferring.status = .inProgress) := by decide +kernel

/-- A turn that advances and one that does not. -/
theorem witness_ProgressRankFalls :
    (writing.Inv ∧ writing.status = .inProgress ∧
      writing.offers (.env (.start true false)) = true ∧
      after (runTurn (.env (.start true false)) writing) State.status = some .inProgress) ∧
    (writing.offers (.hostWrite 0 0x40000000#32) = true ∧
      after (runTurn (.hostWrite 0 0x40000000#32) writing) State.status = some .inProgress) := by
  decide +kernel

/-- An instance with `ENV_FAIR` on which a write of one byte is under way. -/
def fairWriting : State :=
  { writing with
    params := { writing.params with envFair := true }
    agenda := [.env (.start true false), .env (.tx true), .env (.phaseEnd false), .service] }

/-- A lawful execution with `ENV_FAIR` in progress at its start, and a stalled write without. -/
theorem witness_TransactionsEndUnderFairness :
    (LawfulExecution (follow fairWriting) ∧ (follow fairWriting 0).Inv ∧
      (follow fairWriting 0).params.envFair = true ∧
      (follow fairWriting 0).status = .inProgress) ∧
    (writing.Inv ∧ writing.status = .inProgress ∧ writing.serviceEnabled = false ∧
      writing.params.envFair = false ∧ writing.agenda = []) := by
  refine ⟨⟨follow_lawful (k := 4) ?_ ?_ ?_ ?_, ?_, ?_, ?_⟩, ?_⟩
  · intro n hn
    match n, hn with
    | 0, _ => rfl
    | 1, _ => rfl
    | 2, _ => rfl
    | 3, _ => rfl
  · rfl
  · rfl
  · intro e
    cases e <;> rfl
  · decide +kernel
  · rfl
  · rfl
  · decide +kernel

/-- A list that fills the buffer, and the shortest one. -/
theorem witness_LoadFillsWriteBuffer :
    (tw.params.wf ∧ tw.initDone = true ∧ (List.replicate 16 0#8).length ≤ tw.params.cap ∧
      List.replicate 16 0#8 ≠ []) ∧ [0#8].length ≤ tw.params.cap := by decide

/-- Two instances with ports of their own. -/
theorem witness_InstancesShareNothing :
    let fw8 : State := { fw with params := { fw.params with base := 8 } }
    let sys : System := { instances := [tw, fw8], order := [1, 0] }
    sys.order = 1 :: [0] ∧ sys.instances[1]? = some fw8 ∧ step fw8 = .next fw8 ∧ sys.ownPorts :=
  ⟨rfl, rfl, rfl, by decide⟩

end Sys2Proof.Tests
end

section
/-! PROOFS. Reset and `INIT`: the reset table (10_state.md R53), the first `INIT` and what comes
before it. -/

namespace Sys2Proof.Proofs

open Sys2Proof.Machine Sys2Proof.Laws

/-- Settles O11: the reset table is read off the state of `State.resetWith`. -/
theorem resetValues : Obligations.ResetValues := by
  intro p
  exact ⟨rfl, rfl, rfl, ⟨rfl, rfl, rfl, rfl⟩, ⟨rfl, rfl, rfl⟩, rfl, rfl, rfl,
    ⟨rfl, rfl, rfl, rfl⟩, rfl, rfl, fun _ => ⟨rfl, rfl⟩, ⟨rfl, rfl⟩, ⟨rfl, rfl, rfl, rfl⟩,
    ⟨rfl, rfl, rfl, rfl⟩, ⟨rfl, rfl⟩, rfl, ⟨rfl, rfl, rfl⟩, rfl⟩

/-- The first `INIT`, in closed form (10_state.md R54). -/
theorem exec_init_first {s : State} (t : BitVec 16) (h : s.initDone = false) :
    exec (.init t) s = .next
      { s with
        initDone := true, timing := t, status := .idle
        ieNack := false, ieTc := false, ieStop := false, ieRx := false
        hw := { s.hw with txFifo := [], rxFifo := [] }
        rsp := 1#32 } := by
  simp [exec, execInit, h, respond_eq, State.disableSources]

/-- A second `INIT` is rejected (10_state.md R54). -/
theorem exec_init_again {s : State} (t : BitVec 16) (h : s.initDone = true) :
    exec (.init t) s = .next { s with rsp := 0#32 } := by
  simp [exec, execInit, h, reject_eq]

/-- Before `INIT` every other command is rejected, each by its own check
(70_reset_and_hazards.md R243). -/
theorem exec_before_init {s : State} {i : Instr} (h : s.initDone = false)
    (hi : ∀ t, i ≠ .init t) : exec i s = .next { s with rsp := 0#32 } := by
  have hno : ¬ s.initDone = true := by simp [h]
  cases i with
  | init t => exact absurd rfl (hi t)
  | startW a n => exact twStart_rejected a fun ⟨_, hd, _⟩ => hno hd
  | startR a m => exact twStart_rejected a fun ⟨_, hd, _⟩ => hno hd
  | startWR a n m => exact twStart_rejected a fun ⟨_, hd, _⟩ => hno hd
  | xfer n => exact xfer_rejected fun ⟨_, hd, _⟩ => hno hd
  | getStatus => simp [exec, execGetStatus, h, reject_eq]
  | ackIdle => simp [exec, execAckIdle, h, reject_eq]
  | wrBuf k b => simp [exec, execWrBuf, h, reject_eq]
  | rdBuf k => simp [exec, execRdBuf, h, reject_eq]

/-- Settles O13. -/
theorem initRunsOnce : Obligations.InitRunsOnce :=
  ⟨fun _ t h => exec_init_first t h, fun _ t h => exec_init_again t h,
    fun _ _ h hi => exec_before_init h hi⟩

end Sys2Proof.Proofs
end

section
/-! PROOFS. The invariant of the reachable states: its parts, the phase a `TW` transaction is
at, and what the environment's steps keep. -/

namespace Sys2Proof.Proofs

open Sys2Proof.Machine Sys2Proof.Laws

/-! ### The parts of the invariant -/

theorem inv_quiet {s : State} (h : s.Inv) (hs : s.status ≠ .inProgress) : s.quiet := by
  obtain ⟨-, -, -, -, hq, -, -⟩ := h
  exact hq hs

theorem inv_twInv {s : State} (h : s.Inv) (hb : s.params.bus = .tw) : s.twInv := by
  obtain ⟨-, -, -, -, -, ht, -⟩ := h
  exact ht hb

theorem inv_fwInv {s : State} (h : s.Inv) (hb : s.params.bus = .fw) : s.fwInv := by
  obtain ⟨-, -, -, -, -, -, hf⟩ := h
  exact hf hb

theorem inv_twRunning {s : State} (h : s.Inv) (hb : s.params.bus = .tw)
    (hp : s.status = .inProgress) : s.twRunning := by
  obtain ⟨-, -, -, -, -, -, hr⟩ := inv_twInv h hb
  exact hr hp

theorem inv_fwRunning {s : State} (h : s.Inv) (hb : s.params.bus = .fw)
    (hp : s.status = .inProgress) : s.fwRunning := by
  obtain ⟨-, -, -, -, -, -, hr⟩ := inv_fwInv h hb
  exact hr hp

/-- What a running `TW` transaction is at: the alternatives that close `State.twRunning`. -/
def twPhase (s : State) : Prop :=
  s.twStartPending ∨ s.twRestartPending ∨ s.twMoving ∨ s.twRejected ∨ s.twPhaseDone ∨
    s.twStopping ∨ s.twStopped

theorem inv_rxRoom {s : State} (h : s.Inv) : s.hw.rxFifo.length ≤ s.params.depth := by
  obtain ⟨-, -, ⟨-, -, -, -, hr⟩, -⟩ := h
  exact hr

theorem phase_restartPending {s : State} (h : s.twRestartPending) : twPhase s := .inr (.inl h)

theorem phase_moving {s : State} (h : s.twMoving) : twPhase s := .inr (.inr (.inl h))

theorem phase_rejected {s : State} (h : s.twRejected) : twPhase s := .inr (.inr (.inr (.inl h)))

theorem phase_done {s : State} (h : s.twPhaseDone) : twPhase s :=
  .inr (.inr (.inr (.inr (.inl h))))

theorem phase_stopping {s : State} (h : s.twStopping) : twPhase s :=
  .inr (.inr (.inr (.inr (.inr (.inl h)))))

theorem phase_stopped {s : State} (h : s.twStopped) : twPhase s :=
  .inr (.inr (.inr (.inr (.inr (.inr h)))))

theorem inv_twPhase {s : State} (h : s.Inv) (hb : s.params.bus = .tw)
    (hp : s.status = .inProgress) : twPhase s := by
  obtain ⟨-, -, -, -, -, -, -, -, hph⟩ := inv_twRunning h hb hp
  exact hph

/-- Where anything is enabled, requested, flagged or moving, a transaction is in progress
(10_state.md R55 (a) to (c)). -/
theorem inProgress_of_not_quiet {s : State} (h : s.Inv) (hn : ¬ s.quiet) :
    s.status = .inProgress := by
  by_contra hs
  exact hn (inv_quiet h hs)

/-! ### Which phase the wire is at -/

/-- A start condition is requested before the phase has begun alone. -/
theorem phase_of_startReq {s : State} (h : twPhase s) (hr : s.hw.startReq = true) :
    s.twStartPending ∨ s.twRestartPending := by
  rcases h with h | h | h | h | h | h | h
  · exact .inl h
  · exact .inr h
  all_goals
    obtain ⟨-, hf, -⟩ := h
    simp [hf] at hr

/-- The wire is at its data while bytes move alone. -/
theorem moving_of_data {s : State} (h : twPhase s) (hw : s.hw.wp = .data) : s.twMoving := by
  rcases h with h | h | h | h | h | h | h
  case inr.inr.inl => exact h
  all_goals
    obtain ⟨hf, -⟩ := h
    simp [hf] at hw

/-- A stop condition is requested after a latched error alone. -/
theorem stopping_of_stopReq {s : State} (h : twPhase s) (hr : s.hw.stopReq = true) :
    s.twStopping := by
  rcases h with h | h | h | h | h | h | h
  case inr.inr.inr.inr.inr.inl => exact h
  all_goals simp_all

/-- On an idle wire with no start requested the transaction has been stopped. -/
theorem stopped_of_idle {s : State} (h : twPhase s) (hw : s.hw.wp = .idle)
    (hr : s.hw.startReq = false) : s.twStopped := by
  rcases h with h | h | h | h | h | h | h
  case inr.inr.inr.inr.inr.inr => exact h
  all_goals simp_all

/-! ### The environment -/

/-- The environment writes the adapter and the log alone; inside a `TW` transaction the invariant
holds after it if the wire is at one of the phases again. -/
theorem inv_of_wire {s : State} {hw' : Adapter} {l : List WireEvent} (h : s.Inv)
    (hb : s.params.bus = .tw) (hp : s.status = .inProgress) (ha : hw'.addr = s.hw.addr)
    (hm : hw'.rxMode = s.hw.rxMode) (hs : hw'.autoStop = s.hw.autoStop)
    (htx : hw'.txFifo.length ≤ s.hw.txFifo.length) (hrx : hw'.rxFifo.length ≤ s.params.depth)
    (hph : twPhase { s with hw := hw', wireLog := l }) :
    State.Inv { s with hw := hw', wireLog := l } := by
  obtain ⟨hie, hix, hwl, hrl, has, hrd, hwr, htc, -⟩ := inv_twRunning h hb hp
  obtain ⟨hwf, hc, ⟨hwb, hrb, hfill, htl, -⟩, hi, -, ht, -⟩ := h
  obtain ⟨hf, hpa, hpe, hst, he, hfi, -⟩ := ht hb
  refine ⟨hwf, hc, ⟨hwb, hrb, hfill, htx.trans htl, hrx⟩, hi, fun hn => absurd hp hn,
    fun _ => ⟨hf, hpa, ha.trans hpe, hst, he, hfi, fun _ => ?_⟩,
    fun hfw => absurd (hb.symm.trans hfw) (by decide)⟩
  refine ⟨hie, hix, hwl, hrl, ?_, fun hd => hm.trans (hrd hd), fun hd => hm.trans (hwr hd), ?_, hph⟩
  · simpa only [hs, hm] using has
  · simpa only [hs] using htc

/-- The address is answered: the bytes move, or the transaction is held rejected
(44_adapter_contract.md R184). -/
theorem inv_envStart {s : State} (ack t : Bool) (h : s.Inv)
    (he : s.envEnabled (.start ack t) = true) : (s.envStart ack t).Inv := by
  obtain ⟨hb, hreq, -⟩ := of_decide_eq_true he
  have hp : s.status = .inProgress := inProgress_of_not_quiet h (by simp [hreq])
  obtain ⟨-, -, -, -, has, -, -, -, -⟩ := inv_twRunning h hb hp
  obtain ⟨hnf, herr, htc, hph, hrx⟩ : s.noFlag ∧ s.errLatched = false ∧
      (s.hw.autoStop = false → s.ieTc = true) ∧ s.phaseBytes ∧ s.hw.rxFifo = [] := by
    rcases phase_of_startReq (inv_twPhase h hb hp) hreq with
      ⟨-, -, -, hnf, herr, htc, hph, hrx⟩ | ⟨-, -, -, hnf, herr, -, hm, hph, hrx⟩
    · exact ⟨hnf, herr, htc, hph, hrx⟩
    · refine ⟨hnf, herr, fun ha => ?_, hph, hrx⟩
      obtain ⟨-, hm'⟩ := has.1 ha
      simp [hm] at hm'
  obtain ⟨hsr, hna, htf, hsd⟩ := hnf
  cases ack with
  | true =>
    exact inv_of_wire h hb hp rfl rfl rfl le_rfl (inv_rxRoom h)
      (phase_moving ⟨rfl, rfl, rfl, ⟨hsr, hna, htf, hsd⟩, herr, htc, hph⟩)
  | false =>
    refine inv_of_wire h hb hp rfl rfl rfl le_rfl (inv_rxRoom h)
      (phase_rejected ⟨rfl, rfl, rfl, rfl, fun hf => htc ?_, hsr, hsd, herr, hrx⟩)
    obtain ⟨ha, -⟩ : s.hw.autoStop = false ∧ t = true := by simpa [htf] using hf
    exact ha

/-- A byte is sent: the phase has one less to move, or the transaction is held rejected
(44_adapter_contract.md R186). -/
theorem inv_envTx {s : State} (ack : Bool) (h : s.Inv)
    (he : s.envEnabled (.tx ack) = true) : (s.envTx ack).Inv := by
  obtain ⟨hb, hwp, hm, hcount, hne⟩ := of_decide_eq_true he
  have hp : s.status = .inProgress := inProgress_of_not_quiet h (by simp [hwp])
  obtain ⟨-, hreq, hbusy, ⟨hsr, hna, htf, hsd⟩, herr, htc, hsend, -⟩ :=
    moving_of_data (inv_twPhase h hb hp) hwp
  obtain ⟨hlen, hrx⟩ := hsend hm
  obtain ⟨v, rest, htx⟩ := List.exists_cons_of_length_pos hne
  have hle : rest.length ≤ s.hw.txFifo.length := by simp [htx]
  simp only [State.envTx, htx]
  cases ack with
  | true =>
    refine inv_of_wire h hb hp rfl rfl rfl hle (inv_rxRoom h)
      (phase_moving ⟨hwp, hreq, hbusy, ⟨hsr, hna, htf, hsd⟩, herr, htc, fun _ => ⟨?_, hrx⟩,
        fun hm' => ?_⟩)
    · have : s.hw.count.toNat = rest.length + 1 := by simp [hlen, htx]
      show (s.hw.count - 1).toNat = rest.length
      bv_omega
    · exact absurd (hm.symm.trans hm') (by decide)
  | false =>
    refine inv_of_wire h hb hp rfl rfl rfl hle (inv_rxRoom h)
      (phase_rejected ⟨rfl, hreq, hbusy, rfl, fun hf => ?_, hsr, hsd, herr, hrx⟩)
    exact absurd (htf.symm.trans hf) (by decide)

/-- A byte is received: it passes from what is to come to the receive FIFO
(44_adapter_contract.md R187). -/
theorem inv_envRx {s : State} (b : Byte) (h : s.Inv)
    (he : s.envEnabled (.rx b) = true) : (s.envRx b).Inv := by
  obtain ⟨hb, hwp, hm, hcount, hroom⟩ := of_decide_eq_true he
  have hp : s.status = .inProgress := inProgress_of_not_quiet h (by simp [hwp])
  obtain ⟨-, hreq, hbusy, hnf, herr, htc, -, hrecv⟩ :=
    moving_of_data (inv_twPhase h hb hp) hwp
  obtain ⟨hlen, htx⟩ := hrecv hm
  refine inv_of_wire h hb hp rfl rfl rfl le_rfl (by simpa using hroom)
    (phase_moving ⟨hwp, hreq, hbusy, hnf, herr, htc, fun hm' => ?_, fun _ => ⟨?_, htx⟩⟩)
  · exact absurd (hm.symm.trans hm') (by decide)
  · show (s.hw.rxFifo ++ [b]).length + (s.hw.count - 1).toNat = s.readLength.toNat
    rw [List.length_append, List.length_singleton]
    bv_omega

/-- A phase ends: the write phase of a write-then-read is held, any other phase is stopped with all
its bytes moved (44_adapter_contract.md R188, R189). -/
theorem inv_envPhaseEnd {s : State} (linger : Bool) (h : s.Inv)
    (he : s.envEnabled (.phaseEnd linger) = true) : (s.envPhaseEnd linger).Inv := by
  obtain ⟨hb, hwp, hcount⟩ := of_decide_eq_true he
  have hp : s.status = .inProgress := inProgress_of_not_quiet h (by simp [hwp])
  obtain ⟨-, hreq, hbusy, ⟨hsr, hna, htf, hsd⟩, herr, htc, hsend, hrecv⟩ :=
    moving_of_data (inv_twPhase h hb hp) hwp
  obtain ⟨-, -, -, hrl, has, hrd, -, -, -⟩ := inv_twRunning h hb hp
  cases ha : s.hw.autoStop with
  | false =>
    obtain ⟨-, hm⟩ := has.1 ha
    obtain ⟨hlen, hrx⟩ := hsend hm
    have htx : s.hw.txFifo = [] := List.eq_nil_of_length_eq_zero (by omega)
    simp only [State.envPhaseEnd, ha, if_true]
    exact inv_of_wire (l := s.wireLog) h hb hp rfl rfl ha.symm le_rfl (inv_rxRoom h)
      (phase_done ⟨rfl, hreq, hbusy, hna, rfl, htc ha, hsr, hsd, herr, hrx,
        htx⟩)
  | true =>
    have hdone : s.hw.rxFifo.length = s.readLength.toNat ∧ s.hw.txFifo = [] := by
      cases hm : s.hw.rxMode with
      | true =>
        obtain ⟨hlen, htx⟩ := hrecv hm
        exact ⟨by omega, htx⟩
      | false =>
        obtain ⟨hlen, hrx⟩ := hsend hm
        have hd : s.direction = .write := by
          cases hd : s.direction <;> simp_all
        exact ⟨by simp [hrx, hrl.2 hd], List.eq_nil_of_length_eq_zero (by omega)⟩
    simp only [State.envPhaseEnd, ha]
    exact inv_of_wire h hb hp rfl rfl rfl le_rfl (inv_rxRoom h)
      (phase_stopped ⟨rfl, hreq, hna, htf, hsr, rfl,
        fun hf => absurd (herr.symm.trans hf) (by decide), fun _ => ⟨hdone.1, hdone.2, ha⟩⟩)

/-- `ENV STOP`, in closed form (44_adapter_contract.md R190). -/
theorem envStop_eq (linger : Bool) (s : State) :
    s.envStop linger =
      { s with
        hw := { s.hw with stopReq := false, stopDet := true, wp := .idle, busy := linger }
        wireLog := s.wireLog ++ [.stop] } := rfl

/-- The requested stop condition is made (44_adapter_contract.md R190). -/
theorem inv_envStop {s : State} (linger : Bool) (h : s.Inv)
    (he : s.envEnabled (.stop linger) = true) : (s.envStop linger).Inv := by
  obtain ⟨hb, hsr, -⟩ := of_decide_eq_true he
  have hp : s.status = .inProgress := inProgress_of_not_quiet h (by simp [hsr])
  obtain ⟨-, hreq, -, hna, htf, -, -, herr, hrx⟩ :=
    stopping_of_stopReq (inv_twPhase h hb hp) hsr
  rw [envStop_eq]
  exact inv_of_wire h hb hp rfl rfl rfl le_rfl (inv_rxRoom h)
    (phase_stopped ⟨rfl, hreq, hna, htf, rfl, rfl, fun _ => hrx,
      fun hf => absurd (herr.symm.trans hf) (by decide)⟩)

/-- The bus may stay busy after a transaction has ended, so `BUSYREL` comes in any status. -/
theorem inv_envBusyRel {s : State} (h : s.Inv) (he : s.envEnabled .busyRel = true) :
    s.envBusyRel.Inv := by
  obtain ⟨hb, hwp, -, hreq⟩ := of_decide_eq_true he
  by_cases hp : s.status = .inProgress
  · have hst := stopped_of_idle (inv_twPhase h hb hp) hwp hreq
    exact inv_of_wire (l := s.wireLog) h hb hp rfl rfl rfl le_rfl (inv_rxRoom h)
      (phase_stopped hst)
  · obtain ⟨hwf, hc, hso, hi, hq, ht, -⟩ := h
    obtain ⟨hf, hpa, hpe, hst, herr, hfi, -⟩ := ht hb
    exact ⟨hwf, hc, hso, hi, hq,
      fun _ => ⟨hf, hpa, hpe, hst, herr, hfi, fun hp' => absurd hp' hp⟩,
      fun hfw => absurd (hb.symm.trans hfw) (by decide)⟩

/-- An exchange moves one byte of the outstanding chunk from one FIFO to the other
(44_adapter_contract.md R193). -/
theorem inv_envXchg {s : State} (b : Byte) (h : s.Inv)
    (he : s.envEnabled (.xchg b) = true) : (s.envXchg b).Inv := by
  obtain ⟨hb, hne, hroom⟩ := of_decide_eq_true he
  obtain ⟨hclear, hlen, hok, hcs, hempty, hfi, hrun⟩ := inv_fwInv h hb
  have hp : s.status = .inProgress := by
    by_contra hs
    simp [(hempty hs).1] at hne
  obtain ⟨hie, hw1, hmoved, hthr, hrest⟩ := hrun hp
  obtain ⟨hwf, hc, ⟨hwb, hrb, hfill, htl, -⟩, hi, -, -, -⟩ := h
  obtain ⟨v, rest, htx⟩ := List.exists_cons_of_length_pos hne
  have hcount : rest.length + (s.hw.rxFifo ++ [b]).length
      = s.hw.txFifo.length + s.hw.rxFifo.length := by
    simp [htx]
    omega
  simp only [State.envXchg, htx]
  refine ⟨hwf, hc, ⟨hwb, hrb, hfill, ?_, by simpa using hroom⟩, hi, fun hs => absurd hp hs,
    fun htw => absurd (hb.symm.trans htw) (by decide),
    fun _ => ⟨hclear, hlen, hok, hcs, fun hs => absurd hp hs, hfi,
      fun _ => ⟨hie, hw1, (congrArg (s.nextReadIndex.toNat + ·) hcount).trans hmoved,
        hthr.trans hcount.symm, hrest⟩⟩⟩
  simp only [htx, List.length_cons] at htl
  exact Nat.le_of_succ_le htl

/-- Every environment step whose precondition holds keeps the invariant. -/
theorem inv_envApply {s : State} (e : EnvStep) (h : s.Inv) (he : s.envEnabled e = true) :
    (s.envApply e).Inv := by
  cases e with
  | start ack t => exact inv_envStart ack t h he
  | tx ack => exact inv_envTx ack h he
  | rx b => exact inv_envRx b h he
  | phaseEnd linger => exact inv_envPhaseEnd linger h he
  | stop linger => exact inv_envStop linger h he
  | busyRel => exact inv_envBusyRel h he
  | xchg b => exact inv_envXchg b h he

/-- The environment never writes the status (10_state.md R22). -/
theorem envApply_status (e : EnvStep) (s : State) : (s.envApply e).status = s.status := by
  cases e with
  | start ack t => cases ack <;> rfl
  | tx ack =>
    simp only [State.envApply, State.envTx]
    split
    · rfl
    · cases ack <;> rfl
  | rx b => rfl
  | phaseEnd linger =>
    simp only [State.envApply, State.envPhaseEnd]
    split <;> rfl
  | stop linger => rfl
  | busyRel => rfl
  | xchg b =>
    simp only [State.envApply, State.envXchg]
    split <;> rfl

end Sys2Proof.Proofs
end

section
/-! PROOFS. The invariant under the background's steps: which phase has an event to service, and
what `SERVICE` makes of it. -/

namespace Sys2Proof.Proofs

open Sys2Proof.Machine Sys2Proof.Laws

/-! ### The cursor as numbers -/

/-- A count that fits an index is that index. -/
theorem index_ofNat_toNat {k : Nat} (h : k < 256) : (BitVec.ofNat 8 k).toNat = k := by
  rw [BitVec.toNat_ofNat]
  omega

/-- A count of at most 31 fits the receive threshold (10_state.md R35). -/
theorem threshold_ofNat_toNat {k : Nat} (h : k ≤ 31) : (BitVec.ofNat 5 k).toNat = k := by
  rw [BitVec.toNat_ofNat]
  omega

/-- An index moves by a count as numbers do, where it does not wrap. -/
theorem index_add_toNat (i : BitVec 8) (k : Nat) (h : i.toNat + k < 256) :
    (i + BitVec.ofNat 8 k).toNat = i.toNat + k := by
  rw [BitVec.toNat_add, BitVec.toNat_ofNat]
  omega

/-- The count of remaining bytes falls as numbers do, where it does not wrap. -/
theorem remaining_sub_toNat (x : BitVec 9) (k : Nat) (h : k ≤ x.toNat) :
    (x - BitVec.ofNat 9 k).toNat = x.toNat - k := by
  have := x.isLt
  rw [BitVec.toNat_sub, BitVec.toNat_ofNat]
  omega

/-- Every buffer has at most 255 bytes (00_scope.md R8). -/
theorem cap_le {p : Params} (h : p.wf) : p.cap ≤ 255 := by
  obtain ⟨⟨-, hfw⟩, -, -, hdepth⟩ := h
  cases hb : p.bus <;> simp only [Params.cap, Params.twCap, hb] <;> omega

/-- A drain stays below the read length. -/
theorem drainCount_bound {s : State} (hc : s.cursorBounds) :
    s.nextReadIndex.toNat + s.drainCount ≤ s.readLength.toNat := by
  obtain ⟨-, -, hr, -, -⟩ := hc
  have : s.drainCount ≤ s.readLength.toNat - s.nextReadIndex.toNat := Nat.min_le_right _ _
  omega

/-- The read index after a drain. -/
theorem nextReadIndex_drain {s : State} (hc : s.cursorBounds) :
    (s.nextReadIndex + BitVec.ofNat 8 s.drainCount).toNat
      = s.nextReadIndex.toNat + s.drainCount :=
  index_add_toNat _ _ (by have := drainCount_bound hc; have := s.readLength.isLt; omega)

/-- The read buffer holds a value at every index below the cursor again after bytes are stored. -/
theorem stored_filled (bytes : List Byte) (m : Memory) (i : BitVec 8)
    (hw : i.toNat + bytes.length ≤ 256) (h : ∀ j < i.toNat, (m.read j).isSome = true) :
    ∀ j < i.toNat + bytes.length, ((stored m i bytes).read j).isSome = true := by
  intro j hj
  by_cases hlt : j < i.toNat
  · rw [stored_read_below bytes m i j hlt hw]
    exact h j hlt
  · obtain ⟨d, rfl⟩ := Nat.exists_eq_add_of_le (Nat.le_of_not_lt hlt)
    have hd : d < bytes.length := by omega
    rw [stored_read_inside bytes m i d hd hw, List.getElem?_eq_getElem hd]
    rfl

/-- What a drain makes of the read buffer: canonical, inside `CAP`, filled below the cursor
(20_memory.md R60). -/
theorem drain_storage {s : State} (h : s.Inv) :
    ((stored s.rbuf s.nextReadIndex (s.hw.rxFifo.take s.drainCount)).wf ∧
      (stored s.rbuf s.nextReadIndex (s.hw.rxFifo.take s.drainCount)).within s.params.cap) ∧
    ∀ j < (s.nextReadIndex + BitVec.ofNat 8 s.drainCount).toNat,
      ((stored s.rbuf s.nextReadIndex (s.hw.rxFifo.take s.drainCount)).read j).isSome = true := by
  obtain ⟨hwf, hc, ⟨-, ⟨hrw, hrc⟩, hfill, -⟩, -⟩ := h
  have hlen : (s.hw.rxFifo.take s.drainCount).length = s.drainCount := by
    rw [List.length_take, Nat.min_eq_left (drainCount_le s)]
  have hbound := drainCount_bound hc
  have hidx := nextReadIndex_drain hc
  obtain ⟨-, -, -, hcap, -⟩ := hc
  have hcap' := cap_le hwf
  refine ⟨⟨stored_wf _ _ _ hrw, stored_within _ _ _ _ hrc (by omega) (by omega)⟩, ?_⟩
  have hall := stored_filled (s.hw.rxFifo.take s.drainCount) s.rbuf s.nextReadIndex
    (by omega) hfill
  rwa [hlen, ← hidx] at hall

/-- With the write cursor at its end a fill pushes nothing. -/
theorem fillCount_of_written {s : State} (h : s.nextWriteIndex = s.writeLength) :
    s.fillCount = 0 := by
  simp [State.fillCount, h]

/-- With nothing received a drain pops nothing. -/
theorem drainCount_of_empty {s : State} (h : s.hw.rxFifo = []) : s.drainCount = 0 := by
  simp [State.drainCount, h]

/-! ### The background on `TW` -/

/-- Where `SERVICE` is enabled on `TW`, one of its sources is pending (60_exceptions.md R216,
R217). -/
theorem pending_of_serviceEnabled_tw {s : State} (hb : s.params.bus = .tw)
    (he : s.serviceEnabled = true) :
    nackPending s = true ∨ tcPending s = true ∨ stopPending s = true := by
  by_contra hn
  obtain ⟨h1, h2, h3⟩ : nackPending s = false ∧ tcPending s = false ∧ stopPending s = false := by
    simpa only [not_or, Bool.not_eq_true] using hn
  simp only [nackPending, tcPending, stopPending] at h1 h2 h3
  simp [State.serviceEnabled, State.irq, hb, h1, h2, h3] at he

/-- Where `SERVICE` is enabled on `FW`, the receive level has reached its threshold
(60_exceptions.md R215 to R217). -/
theorem level_of_serviceEnabled_fw {s : State} (hb : s.params.bus = .fw)
    (he : s.serviceEnabled = true) :
    s.ieRx = true ∧ 1 ≤ s.rxThreshold.toNat ∧ s.rxThreshold.toNat ≤ s.hw.rxFifo.length := by
  cases hl : s.ieRx && s.rxLevelReached with
  | false => simp [State.serviceEnabled, State.irq, hb, hl] at he
  | true => simpa [State.rxLevelReached] using hl

/-- The background has a step only while a transaction is in progress. -/
theorem inProgress_of_serviceEnabled {s : State} (h : s.Inv) (he : s.serviceEnabled = true) :
    s.status = .inProgress := by
  refine inProgress_of_not_quiet h fun hq => ?_
  obtain ⟨⟨h1, h2, h3, h4⟩, -⟩ := hq
  cases hb : s.params.bus with
  | tw =>
    have := pending_of_serviceEnabled_tw hb he
    simp [nackPending, tcPending, stopPending, h1, h2, h3] at this
  | fw =>
    obtain ⟨hie, -⟩ := level_of_serviceEnabled_fw hb he
    simp [h4] at hie

/-- The phases with an event to service. -/
theorem phase_of_pending {s : State} (h : twPhase s)
    (hp : nackPending s = true ∨ tcPending s = true ∨ stopPending s = true) :
    s.twRejected ∨ s.twPhaseDone ∨ s.twStopped := by
  have hflag : s.hw.nack = true ∨ s.hw.tc = true ∨ s.hw.stopDet = true := by
    simp only [nackPending, tcPending, stopPending, Bool.and_eq_true] at hp
    tauto
  rcases h with h | h | h | h | h | h | h
  case inr.inr.inr.inl => exact .inl h
  case inr.inr.inr.inr.inl => exact .inr (.inl h)
  case inr.inr.inr.inr.inr.inr => exact .inr (.inr h)
  all_goals simp_all

/-- A `SERVICE` step on `TW` that neither moves a byte nor completes: what the parts `N` and `T`
do. -/
theorem serviceTw_flags {s : State} (hd : s.drainCount = 0) (hf : s.fillCount = 0)
    (hs : stopPending s = false) :
    serviceTw s =
      { s with
        errLatched := s.errLatched || nackPending s
        stopIssued := s.stopIssued || nackPending s
        stopCount := s.stopCount + (if requestsStop s then 1 else 0)
        pendingReadLength := if tcPending s then 0 else s.pendingReadLength
        ieTc := s.ieTc && !tcPending s
        hw := { s.hw with
          nack := s.hw.nack && !nackPending s
          stopReq := s.hw.stopReq || requestsStop s
          tc := s.hw.tc && !tcPending s
          rxMode := s.hw.rxMode || armsRead s
          count := if armsRead s then s.pendingReadLength else s.hw.count
          autoStop := s.hw.autoStop || armsRead s
          startReq := s.hw.startReq || armsRead s } } := by
  rw [serviceTw_eq]
  simp [hd, hf, hs, stored, pushed]

/-- A rejected transaction is serviced: the error is latched and the stop condition requested
(42_service_tw.md R147). -/
theorem inv_serviceTw_rejected {s : State} (h : s.Inv) (hb : s.params.bus = .tw)
    (hp : s.status = .inProgress) (hph : s.twRejected) : (serviceTw s).Inv := by
  obtain ⟨⟨hin, hist⟩, ⟨hwi, hri⟩, hwl, hrl, has, hrd, hwr, htc, -⟩ := inv_twRunning h hb hp
  obtain ⟨hwf, hc, hso, hi, -, ht, -⟩ := h
  obtain ⟨hf, hpa, hpe, hst, he, hfi, -⟩ := ht hb
  obtain ⟨hwp, hreq, hbusy, hna, htf, hsr, hsd, herr, hrx⟩ := hph
  have hN : nackPending s = true := by simp [nackPending, hin, hna]
  have hA : armsRead s = false := by simp [armsRead, hN]
  have hR : requestsStop s = true := by simp [requestsStop, hN, hst, herr]
  have hT : tcPending s = s.hw.tc := by
    cases htc' : s.hw.tc <;> simp [tcPending, htc', htf]
  rw [serviceTw_flags (drainCount_of_empty hrx) (fillCount_of_written hwi)
    (by simp [stopPending, hsd])]
  simp only [hN, hA, hR, hT, Bool.or_true, Bool.or_false, Bool.false_eq_true, if_false]
  refine ⟨hwf, hc, hso, hi, fun hn => absurd hp hn,
    fun _ => ⟨hf, hpa, hpe, rfl, fun _ => rfl, fun hfi => ?_, fun _ =>
      ⟨⟨hin, hist⟩, ⟨hwi, hri⟩, hwl, hrl, has, hrd, hwr, fun hie => ?_, phase_stopping ?_⟩⟩,
    fun hfw => absurd (hb.symm.trans hfw) (by decide)⟩
  · exact absurd (hp.symm.trans hfi) (by decide)
  · obtain ⟨hie', htc'⟩ := Bool.and_eq_true_iff.1 hie
    have htc' : s.hw.tc = false := by simpa using htc'
    simpa [htc'] using htc hie'
  · exact ⟨hwp, hreq, hbusy, by simp, by simp, rfl, hsd, rfl, hrx⟩

/-- The end of a write phase is serviced: the read phase is armed (42_service_tw.md R148). -/
theorem inv_serviceTw_phaseDone {s : State} (h : s.Inv) (hb : s.params.bus = .tw)
    (hp : s.status = .inProgress) (hph : s.twPhaseDone) : (serviceTw s).Inv := by
  obtain ⟨⟨hin, hist⟩, ⟨hwi, hri⟩, hwl, hrl, has, hrd, hwr, htc, -⟩ := inv_twRunning h hb hp
  obtain ⟨hwf, hc, hso, hi, -, ht, -⟩ := h
  obtain ⟨hf, hpa, hpe, hst, he, hfi, -⟩ := ht hb
  obtain ⟨hwp, hreq, hbusy, hna, htf, hie, hsr, hsd, herr, hrx, htx⟩ := hph
  obtain ⟨ha, hpr⟩ := htc hie
  obtain ⟨hdir, -⟩ := has.1 ha
  have hN : nackPending s = false := by simp [nackPending, hna]
  have hT : tcPending s = true := by simp [tcPending, hie, htf]
  have hA : armsRead s = true := by simp [armsRead, hN, hT, herr]
  have hR : requestsStop s = false := by simp [requestsStop, hN]
  rw [serviceTw_flags (drainCount_of_empty hrx) (fillCount_of_written hwi)
    (by simp [stopPending, hsd])]
  simp only [hN, hA, hR, hT, Bool.or_true, Bool.or_false, if_true, Bool.not_true, Bool.and_false,
    Bool.not_false, Bool.and_true]
  refine ⟨hwf, hc, hso, hi, fun hn => absurd hp hn,
    fun _ => ⟨hf, hpa, hpe, hst, he, hfi, fun _ =>
      ⟨⟨hin, hist⟩, ⟨hwi, hri⟩, hwl, hrl, ?_, fun _ => rfl, ?_, ?_, phase_restartPending ?_⟩⟩,
    fun hfw => absurd (hb.symm.trans hfw) (by decide)⟩
  · simp
  · simp [hdir]
  · simp
  · refine ⟨hwp, rfl, hbusy, ⟨hsr, hna, rfl, hsd⟩, herr, rfl, rfl, ⟨?_, fun _ => ⟨?_, htx⟩⟩, hrx⟩
    · simp
    · simp [hrx, hpr]

/-- The stop condition is serviced: the received bytes are drained and the transaction ends
(42_service_tw.md R149, R152). -/
theorem inv_serviceTw_stopped {s : State} (h : s.Inv) (hb : s.params.bus = .tw)
    (hp : s.status = .inProgress) (hph : s.twStopped) : (serviceTw s).Inv := by
  obtain ⟨⟨hin, hist⟩, ⟨hwi, hri⟩, -, -, -, -, -, -, -⟩ := inv_twRunning h hb hp
  have hdrain := drain_storage h
  obtain ⟨hwf, hc, ⟨hwb, -, -, htl, hrl⟩, hi, -, ht, -⟩ := h
  obtain ⟨⟨hrx, hcs, hth⟩, hpa, hpe, hst, he, hfi, -⟩ := ht hb
  obtain ⟨hwp, hreq, hna, htf, hsr, hsd, herrd, hdone⟩ := hph
  have hN : nackPending s = false := by simp [nackPending, hna]
  have hT : tcPending s = false := by simp [tcPending, htf]
  have hS : stopPending s = true := by simp [stopPending, hist, hsd]
  have hA : armsRead s = false := by simp [armsRead, hT]
  have hR : requestsStop s = false := by simp [requestsStop, hN]
  have hF := fillCount_of_written hwi
  have hidx := nextReadIndex_drain hc
  have hbound := drainCount_bound hc
  obtain ⟨hwc, hwcap, -, hrcap, -⟩ := hc
  have hri0 : s.nextReadIndex.toNat = 0 := by simp [hri]
  have hend : s.errLatched = false → s.drainCount = s.readLength.toNat := fun hf => by
    obtain ⟨hlen, -⟩ := hdone hf
    simp [State.drainCount, hlen, hri]
  rw [serviceTw_eq]
  simp only [hN, hA, hR, hT, hS, hF, Bool.or_false, if_true, Bool.not_true, Bool.and_false,
    Bool.not_false, Bool.and_true, pushed, List.append_nil, BitVec.add_zero, BitVec.sub_zero,
    Bool.false_eq_true, if_false]
  have hover : (if s.errLatched = true then BusStatus.error else .finished) ≠ .inProgress := by
    split <;> decide
  refine ⟨hwf, ⟨hwc, hwcap, hidx.trans_le hbound, hrcap, fun hn => absurd hn hover⟩,
    ⟨hwb, hdrain.1, hdrain.2, htl, ?_⟩, fun hn => ?_,
    fun _ => ⟨⟨rfl, rfl, rfl, rfl⟩, ⟨hreq, hsr⟩, ⟨hna, htf, rfl⟩, hwp⟩,
    fun _ => ⟨⟨rfl, hcs, hth⟩, hpa, hpe, hst, fun hn => ?_, fun hn => ⟨?_, ?_⟩,
      fun hn => absurd hn hover⟩,
    fun hfw => absurd (hb.symm.trans hfw) (by decide)⟩
  · exact (List.drop_sublist _ _).length_le.trans hrl
  · exact absurd (hp.symm.trans (hi hn)) (by decide)
  · by_contra hf
    simp [hf] at hn
  · by_contra hf
    simp [hf] at hn
  · have hf : s.errLatched = false := by
      by_contra hf
      simp [hf] at hn
    apply BitVec.eq_of_toNat_eq
    rw [hidx, hri0, hend hf, Nat.zero_add]

/-- The background step on `TW` keeps the invariant. -/
theorem inv_serviceTw {s : State} (h : s.Inv) (hb : s.params.bus = .tw)
    (he : s.serviceEnabled = true) : (serviceTw s).Inv := by
  have hp := inProgress_of_serviceEnabled h he
  rcases phase_of_pending (inv_twPhase h hb hp) (pending_of_serviceEnabled_tw hb he) with
    hph | hph | hph
  · exact inv_serviceTw_rejected h hb hp hph
  · exact inv_serviceTw_phaseDone h hb hp hph
  · exact inv_serviceTw_stopped h hb hp hph

/-! ### The background on `FW` -/

/-- What an enabled `SERVICE` on `FW` finds: the whole chunk has come back, and the drain takes all
of it (43_service_fw.md R166, R167). -/
theorem fw_chunk_back {s : State} (h : s.Inv) (hb : s.params.bus = .fw)
    (he : s.serviceEnabled = true) :
    s.hw.txFifo = [] ∧ s.drainCount = s.hw.rxFifo.length ∧
      s.drainCount = s.rxThreshold.toNat ∧
      s.nextReadIndex.toNat + s.drainCount = s.nextWriteIndex.toNat := by
  have hp := inProgress_of_serviceEnabled h he
  obtain ⟨-, -, hlevel⟩ := level_of_serviceEnabled_fw hb he
  obtain ⟨-, -, hmoved, hthr, -⟩ := inv_fwRunning h hb hp
  obtain ⟨-, hlen, -⟩ := inv_fwInv h hb
  obtain ⟨-, ⟨hwc, -⟩, -⟩ := h
  have hall : s.drainCount = s.hw.rxFifo.length := by
    rw [hlen] at hwc
    simp only [State.drainCount]
    omega
  exact ⟨List.eq_nil_of_length_eq_zero (by omega), hall, by omega, by omega⟩

/-- The symmetric fill after a whole chunk: the rest of the write, up to a full FIFO
(43_service_fw.md R167). -/
theorem fw_fill {s : State} (h : s.Inv) (hb : s.params.bus = .fw)
    (he : s.serviceEnabled = true) :
    s.symmetricFillCount s.drainCount
      = min s.params.depth (s.writeLength.toNat - s.nextWriteIndex.toNat) := by
  have hp := inProgress_of_serviceEnabled h he
  obtain ⟨htx, -, hthr, -⟩ := fw_chunk_back h hb he
  obtain ⟨-, -, -, -, -, -, hchunk⟩ := inv_fwRunning h hb hp
  simp only [State.symmetricFillCount, State.fillCount, htx, List.length_nil]
  rcases hchunk with hw | hd
  · simp [hw]
  · omega

/-- The bytes still to be moved after an enabled `SERVICE` on `FW`. -/
theorem remainingFw_toNat {s : State} (h : s.Inv) (hb : s.params.bus = .fw)
    (he : s.serviceEnabled = true) :
    (remainingFw s).toNat
      = (s.writeLength.toNat
          - (s.nextWriteIndex.toNat + s.symmetricFillCount s.drainCount))
        + (s.readLength.toNat - (s.nextReadIndex.toNat + s.drainCount)) := by
  have hp := inProgress_of_serviceEnabled h he
  have hk := fw_fill h hb he
  obtain ⟨-, hc, -⟩ := h
  have hdrain := drainCount_bound hc
  obtain ⟨hw, -, -, -, hbr⟩ := hc
  have hbr := hbr hp
  have hD := remaining_sub_toNat s.bytesRemaining s.drainCount (by omega)
  have hF := remaining_sub_toNat (s.bytesRemaining - BitVec.ofNat 9 s.drainCount)
    (s.symmetricFillCount s.drainCount) (by omega)
  rw [remainingFw, hF, hD]
  omega

/-- The last chunk has come back: it is drained and the transfer ends (43_service_fw.md R169). -/
theorem inv_serviceFw_last {s : State} (h : s.Inv) (hb : s.params.bus = .fw)
    (he : s.serviceEnabled = true) (hw : s.nextWriteIndex = s.writeLength) :
    (serviceFw s).Inv := by
  have hp := inProgress_of_serviceEnabled h he
  obtain ⟨htx, hall, -, hback⟩ := fw_chunk_back h hb he
  have hk : s.symmetricFillCount s.drainCount = 0 := by rw [fw_fill h hb he, hw]; simp
  have hrem := remainingFw_toNat h hb he
  have hdrain := drain_storage h
  obtain ⟨hclear, hlen, hok, -, -, -, -⟩ := inv_fwInv h hb
  obtain ⟨⟨hpa, hdir, hpr⟩, ⟨herr, hst⟩, ⟨hin, hit, his⟩, hhw, ⟨hsreq, hsr, hbusy⟩, hfl, hwp⟩ :=
    hclear
  obtain ⟨hwf, hc, ⟨hwb, -, -, htl, -⟩, hi, -, -, -⟩ := h
  have hridx := nextReadIndex_drain hc
  have hbound := drainCount_bound hc
  obtain ⟨hwc, hwcap, -, hrcap, -⟩ := hc
  have hend : (s.nextReadIndex + BitVec.ofNat 8 s.drainCount) = s.readLength :=
    BitVec.eq_of_toNat_eq (by rw [hridx, hback, hw, hlen])
  have hzero : remainingFw s = 0 :=
    BitVec.eq_of_toNat_eq (by rw [hrem, hback, hw, ← hlen]; simp)
  rw [serviceFw_eq]
  simp only [hk, hzero, if_true, ne_eq, not_true_eq_false, decide_false, Bool.and_false,
    lt_irrefl, if_false, pushed, List.append_nil, BitVec.add_zero]
  have hrx : s.hw.rxFifo.drop s.drainCount = [] := List.drop_eq_nil_of_le hall.ge
  refine ⟨hwf, ⟨hwc, hwcap, hridx.trans_le hbound, hrcap, nofun⟩,
    ⟨hwb, hdrain.1, hdrain.2, htl, by simp [hrx]⟩, fun hn => ?_,
    fun _ => ⟨⟨rfl, rfl, rfl, rfl⟩, ⟨hsreq, hsr⟩, hfl, hwp⟩,
    fun htw => absurd (hb.symm.trans htw) (by decide),
    fun _ => ⟨⟨⟨hpa, hdir, hpr⟩, ⟨herr, hst⟩, ⟨rfl, rfl, rfl⟩, hhw, ⟨hsreq, hsr, hbusy⟩, hfl, hwp⟩,
      hlen, nofun, ⟨nofun, nofun⟩, fun _ => ⟨htx, hrx⟩, fun _ => hend, nofun⟩⟩
  exact absurd (hp.symm.trans (hi hn)) (by decide)

/-- A chunk before the last has come back: it is drained and the next one pushed
(43_service_fw.md R166, R167). -/
theorem inv_serviceFw_next {s : State} (h : s.Inv) (hb : s.params.bus = .fw)
    (he : s.serviceEnabled = true) (hw : s.nextWriteIndex ≠ s.writeLength) :
    (serviceFw s).Inv := by
  have hp := inProgress_of_serviceEnabled h he
  obtain ⟨htx, hall, hthr, hback⟩ := fw_chunk_back h hb he
  have hk := fw_fill h hb he
  have hrem := remainingFw_toNat h hb he
  have hdrain := drain_storage h
  obtain ⟨hie, hw1, -, -, -, -, -⟩ := inv_fwRunning h hb hp
  obtain ⟨⟨hregs, hlat, ⟨hin, hit, his⟩, hhw⟩, hlen, hok, hcs, -, -, -⟩ := inv_fwInv h hb
  obtain ⟨hwf, hc, ⟨hwb, -, -, htl, -⟩, hi, -, -, -⟩ := h
  have ⟨_, _, hd1, hd31⟩ := hwf
  have hridx := nextReadIndex_drain hc
  have hbound := drainCount_bound hc
  obtain ⟨hwc, hwcap, -, hrcap, -⟩ := hc
  have hlt : s.nextWriteIndex.toNat < s.writeLength.toNat :=
    Nat.lt_of_le_of_ne hwc fun hn => hw (BitVec.eq_of_toNat_eq hn)
  have hwl := s.writeLength.isLt
  have hlenN : s.writeLength.toNat = s.readLength.toNat := by rw [hlen]
  have hmore : remainingFw s ≠ 0 := fun hz => by
    have : (remainingFw s).toNat = 0 := by rw [hz]; rfl
    omega
  have hk1 : 0 < s.symmetricFillCount s.drainCount := by omega
  have hwidx := index_add_toNat s.nextWriteIndex (s.symmetricFillCount s.drainCount) (by omega)
  have hthr' := threshold_ofNat_toNat (k := s.symmetricFillCount s.drainCount) (by omega)
  have hrx : s.hw.rxFifo.drop s.drainCount = [] := List.drop_eq_nil_of_le hall.ge
  have hkd : s.symmetricFillCount s.drainCount ≤ s.params.depth := by omega
  have hwle : (s.nextWriteIndex + BitVec.ofNat 8 (s.symmetricFillCount s.drainCount)).toNat
      ≤ s.writeLength.toNat := by omega
  have hchunk : s.nextWriteIndex + BitVec.ofNat 8 (s.symmetricFillCount s.drainCount)
      = s.writeLength ∨ s.symmetricFillCount s.drainCount = s.params.depth := by
    rw [← BitVec.toNat_inj]
    omega
  rw [serviceFw_eq]
  simp only [hmore, hk1, ne_eq, not_false_eq_true, decide_true, Bool.and_true, if_true, if_false,
    List.append_nil, htx, hrx, List.nil_append]
  refine ⟨hwf, ⟨hwle, hwcap, hridx.trans_le hbound, hrcap, fun _ => ?_⟩,
    ⟨hwb, hdrain.1, hdrain.2, ?_, Nat.zero_le _⟩, hi, fun hn => absurd hp hn,
    fun htw => absurd (hb.symm.trans htw) (by decide),
    fun _ => ⟨⟨hregs, hlat, ⟨hin, hit, his⟩, hhw⟩, hlen, hok, hcs, fun hn => absurd hp hn,
      fun hf => absurd (hp.symm.trans hf) (by decide),
      fun _ => ⟨hie, hw1, ?_, ?_, hk1.trans_eq hthr'.symm, hthr'.trans_le hkd,
        hchunk.imp_right hthr'.trans⟩⟩⟩
  · rw [hrem, hwidx, hridx]
  · simpa only [pushed_length] using hkd
  · simp only [pushed_length, List.length_nil, hwidx, hridx, hback, Nat.add_zero]
  · simp only [pushed_length, List.length_nil, hthr', Nat.add_zero]

/-- The background step on `FW` keeps the invariant. -/
theorem inv_serviceFw {s : State} (h : s.Inv) (hb : s.params.bus = .fw)
    (he : s.serviceEnabled = true) : (serviceFw s).Inv := by
  by_cases hw : s.nextWriteIndex = s.writeLength
  · exact inv_serviceFw_last h hb he hw
  · exact inv_serviceFw_next h hb he hw

end Sys2Proof.Proofs
end

section
/-! PROOFS. The invariant under the commands. -/

namespace Sys2Proof.Proofs

open Sys2Proof.Machine Sys2Proof.Laws

/-! ### The start commands -/

/-- The stored address has no bit above `ADDR_W` (30_encoding.md R90). -/
theorem truncateAddress_lt (p : Params) (a : BitVec 10) :
    (truncateAddress p a).toNat < 2 ^ p.addrW := by
  rw [truncateAddress, BitVec.toNat_ofNat]
  exact (Nat.mod_le _ _).trans_lt (Nat.mod_lt _ (Nat.two_pow_pos _))

/-- An accepted start stores lengths inside the buffers. -/
theorem storedWriteLength_le {s : State} {d : Direction} {wl rl : BitVec 8}
    (h : s.admitsTwStart d wl rl) : (storedWriteLength d wl).toNat ≤ s.params.cap := by
  obtain ⟨-, -, -, -, -, hw, -⟩ := h
  cases d <;> simp_all [storedWriteLength, Direction.usesWriteLength]

theorem storedReadLength_le {s : State} {d : Direction} {wl rl : BitVec 8}
    (h : s.admitsTwStart d wl rl) : (storedReadLength d rl).toNat ≤ s.params.cap := by
  obtain ⟨-, -, -, -, -, -, hr⟩ := h
  cases d <;> simp_all [storedReadLength, Direction.usesReadLength]

/-- A length in bounds is not 0. -/
theorem ne_zero_of_lengthInBounds {p : Params} {n : BitVec 8} (h : lengthInBounds p n) :
    n ≠ 0 := by
  rintro rfl
  obtain ⟨h1, -⟩ := h
  exact absurd h1 (by decide)

/-- The stored write length is 0 in a read alone. -/
theorem storedWriteLength_eq_zero {s : State} {d : Direction} {wl rl : BitVec 8}
    (h : s.admitsTwStart d wl rl) : storedWriteLength d wl = 0 ↔ d = .read := by
  obtain ⟨-, -, -, -, -, hw, -⟩ := h
  have hw := hw.imp_right ne_zero_of_lengthInBounds
  cases d <;> simp_all [storedWriteLength, Direction.usesWriteLength]

/-- The stored read length is 0 in a write alone. -/
theorem storedReadLength_eq_zero {s : State} {d : Direction} {wl rl : BitVec 8}
    (h : s.admitsTwStart d wl rl) : storedReadLength d rl = 0 ↔ d = .write := by
  obtain ⟨-, -, -, -, -, -, hr⟩ := h
  have hr := hr.imp_right ne_zero_of_lengthInBounds
  cases d <;> simp_all [storedReadLength, Direction.usesReadLength]

/-- A two-wire start keeps the invariant: an accepted one leaves the start condition requested
(40_start.md R112). -/
theorem inv_twStart {s t : State} {d : Direction} {wl rl : BitVec 8} {a : BitVec 10}
    (h : s.Inv) (hn : twStart d wl rl a s = .next t) : t.Inv := by
  by_cases had : s.admitsTwStart d wl rl
  swap
  · rw [twStart_rejected a had] at hn
    cases hn
    exact h
  rw [twStart_accepted a had] at hn
  cases hn
  have hwl := storedWriteLength_le had
  have hrl := storedReadLength_le had
  have hw0 := storedWriteLength_eq_zero had
  have hr0 := storedReadLength_eq_zero had
  obtain ⟨hb, hinit, hidle, hbusy, ⟨hsr, htf, hsd⟩, -, -⟩ := had
  have hcap : s.params.cap = s.params.depth := by simp [Params.cap, Params.twCap, hb]
  obtain ⟨⟨-, -, -, hix⟩, -, -, hwp⟩ := inv_quiet h (by simp [hidle])
  obtain ⟨⟨-, hcs, hth⟩, -, -, -, -, -, -⟩ := inv_twInv h hb
  obtain ⟨hwf, -, ⟨hwb, hrb, -, -, -⟩, -, -, -, -⟩ := h
  refine ⟨hwf, ⟨le_rfl, hwl, Nat.zero_le _, hrl, fun _ => ?_⟩, ⟨hwb, hrb, nofun, ?_, Nat.zero_le _⟩,
    fun hi => ?_, fun hp => absurd rfl hp,
    fun _ => ⟨⟨hix, hcs, hth⟩, truncateAddress_lt _ _, rfl, rfl, nofun, nofun, fun _ =>
      ⟨⟨rfl, rfl⟩, ⟨rfl, rfl⟩, hw0, hr0, ?_, ?_, ?_, ?_,
        .inl ⟨hwp, rfl, hbusy, ⟨hsr, rfl, htf, hsd⟩, rfl, ?_, ⟨?_, ?_⟩, rfl⟩⟩⟩,
    fun hfw => absurd (hb.symm.trans hfw) (by decide)⟩
  · show ((storedReadLength d rl).setWidth 9).toNat = _
    rw [BitVec.toNat_setWidth]
    simp
    omega
  · exact (pushed_length _ _ _ _ _).trans_le (hwl.trans_eq hcap)
  · exact absurd (hinit.symm.trans hi) (by decide)
  · cases d <;> simp
  · exact decide_eq_true
  · intro hd
    obtain rfl : d = .write := hd
    rfl
  · intro htc
    obtain rfl : d = .writeThenRead := of_decide_eq_true htc
    exact ⟨rfl, rfl⟩
  · cases d <;> simp
  · intro hm
    have hd : d ≠ .read := of_decide_eq_false hm
    refine ⟨?_, rfl⟩
    rw [pushed_length]
    cases d <;> simp_all [storedWriteLength, Direction.usesWriteLength]
  · intro hm
    obtain rfl : d = .read := of_decide_eq_true hm
    exact ⟨Nat.zero_add _, rfl⟩

/-- `XFER` keeps the invariant: an accepted one leaves its first chunk in the transmit FIFO
(40_start.md R116). -/
theorem inv_xfer {s t : State} {n : BitVec 8} (h : s.Inv) (hn : execXfer n s = .next t) :
    t.Inv := by
  by_cases had : s.admitsXfer n
  swap
  · rw [xfer_rejected had] at hn
    cases hn
    exact h
  rw [xfer_accepted had] at hn
  cases hn
  obtain ⟨hb, hinit, hidle, -, hn1, hncap⟩ := had
  obtain ⟨⟨hregs, ⟨-, hst⟩, hies, hhw⟩, -⟩ := inv_fwInv h hb
  obtain ⟨hwf, -, ⟨hwb, ⟨hrw, hrc⟩, -, -, -⟩, -, -, -, -⟩ := h
  have ⟨_, _, hd1, hd31⟩ := hwf
  have hlt := n.isLt
  have hk1 : 1 ≤ min n.toNat s.params.depth := by omega
  have hidx := index_ofNat_toNat (k := min n.toNat s.params.depth) (by omega)
  have hthr := threshold_ofNat_toNat (k := min n.toNat s.params.depth) (by omega)
  have hrem : (n.setWidth 9 + n.setWidth 9 - BitVec.ofNat 9 (min n.toNat s.params.depth)).toNat
      = (n.toNat - min n.toNat s.params.depth) + n.toNat := by
    have hsum : (n.setWidth 9 + n.setWidth 9).toNat = n.toNat + n.toNat := by
      rw [BitVec.toNat_add, BitVec.toNat_setWidth]
      omega
    rw [remaining_sub_toNat _ _ (by omega), hsum]
    omega
  have hchunk : BitVec.ofNat 8 (min n.toNat s.params.depth) = n ∨
      min n.toNat s.params.depth = s.params.depth := by
    rw [← BitVec.toNat_inj]
    omega
  refine ⟨hwf, ⟨hidx.trans_le (Nat.min_le_left _ _), hncap, Nat.zero_le _, hncap, fun _ => ?_⟩,
    ⟨hwb, ⟨hrw, hrc⟩, nofun, ?_, Nat.zero_le _⟩,
    fun hi => absurd (hinit.symm.trans hi) (by decide), fun hp => absurd rfl hp,
    fun htw => absurd (hb.symm.trans htw) (by decide),
    fun _ => ⟨⟨hregs, ⟨rfl, hst⟩, hies, hhw⟩, rfl, nofun, ⟨fun _ => rfl, fun _ => rfl⟩,
      fun hp => absurd rfl hp, nofun,
      fun _ => ⟨rfl, hn1, ?_, ?_, hk1.trans_eq hthr.symm,
        hthr.trans_le (Nat.min_le_right _ _), hchunk.imp_right hthr.trans⟩⟩⟩
  · rw [hrem, hidx]
    rfl
  · exact (pushed_length _ _ _ _ _).trans_le (Nat.min_le_right _ _)
  · rw [hidx, pushed_length]
    exact Nat.zero_add _
  · rw [hthr, pushed_length]
    rfl

/-! ### The other commands -/

/-- `INIT` keeps the invariant: before it the status is idle, and it empties the FIFOs. -/
theorem inv_init {s t : State} {x : BitVec 16} (h : s.Inv) (hn : exec (.init x) s = .next t) :
    t.Inv := by
  rcases exec_init_cases hn with ⟨-, rfl⟩ | ⟨hi, rfl⟩
  · exact h
  · obtain ⟨hwf, ⟨hwc, hwcap, hrc, hrcap, -⟩, ⟨hwb, hrb, hfill, -, -⟩, hidle, hq, ht, hf⟩ := h
    have hs := hidle hi
    obtain ⟨-, hreq, hfl, hwp⟩ := hq (by simp [hs])
    refine ⟨hwf, ⟨hwc, hwcap, hrc, hrcap, nofun⟩,
      ⟨hwb, hrb, hfill, Nat.zero_le _, Nat.zero_le _⟩, nofun,
      fun _ => ⟨⟨rfl, rfl, rfl, rfl⟩, hreq, hfl, hwp⟩, fun hb => ?_, fun hb => ?_⟩
    · obtain ⟨⟨-, hcs, hth⟩, hpa, hpe, hst, -, -, -⟩ := ht hb
      exact ⟨⟨rfl, hcs, hth⟩, hpa, hpe, hst, nofun, nofun, nofun⟩
    · obtain ⟨⟨hregs, hlat, -, hhw⟩, hlen, -, hcs, -, -, -⟩ := hf hb
      exact ⟨⟨hregs, hlat, ⟨rfl, rfl, rfl⟩, hhw⟩, hlen, nofun, by simpa [hs] using hcs,
        fun _ => ⟨rfl, rfl⟩, nofun, nofun⟩

/-- `ACKIDLE` keeps the invariant: it writes the status alone, and not during a transaction. -/
theorem inv_ackIdle {s t : State} (h : s.Inv) (hn : exec .ackIdle s = .next t) : t.Inv := by
  rcases exec_ackIdle_cases hn with rfl | ⟨-, hs, rfl⟩
  · exact h
  · obtain ⟨hwf, ⟨hwc, hwcap, hrc, hrcap, -⟩, hso, -, hq, ht, hf⟩ := h
    refine ⟨hwf, ⟨hwc, hwcap, hrc, hrcap, nofun⟩, hso, fun _ => rfl, fun _ => hq hs,
      fun hb => ?_, fun hb => ?_⟩
    · obtain ⟨hregs, hpa, hpe, hst, -, -, -⟩ := ht hb
      exact ⟨hregs, hpa, hpe, hst, nofun, nofun, nofun⟩
    · obtain ⟨hregs, hlen, -, hcs, hempty, -, -⟩ := hf hb
      exact ⟨hregs, hlen, nofun, by simpa [hs] using hcs, fun _ => hempty hs, nofun, nofun⟩

/-- `WRBUF` keeps the invariant: it writes one byte inside the write buffer. -/
theorem inv_wrBuf {s t : State} {i : BitVec 8} {b : Byte} (h : s.Inv)
    (hn : exec (.wrBuf i b) s = .next t) : t.Inv := by
  rcases exec_wrBuf_cases hn with rfl | ⟨-, hidx, rfl⟩
  · exact h
  · obtain ⟨hwf, hc, ⟨⟨hww, hwc⟩, hso⟩, hrest⟩ := h
    exact ⟨hwf, hc, ⟨⟨write_wf _ _ _ hww, write_within _ _ _ _ hwc hidx⟩, hso⟩, hrest⟩

/-- Every command keeps the invariant. -/
theorem inv_exec {s t : State} {i : Instr} (h : s.Inv) (hn : exec i s = .next t) : t.Inv := by
  cases i with
  | init x => exact inv_init h hn
  | startW a n => exact inv_twStart h hn
  | startR a m => exact inv_twStart h hn
  | startWR a n m => exact inv_twStart h hn
  | xfer n => exact inv_xfer h hn
  | getStatus =>
    obtain ⟨v, rfl⟩ := exec_getStatus_cases hn
    exact h
  | ackIdle => exact inv_ackIdle h hn
  | wrBuf i b => exact inv_wrBuf h hn
  | rdBuf i =>
    obtain ⟨v, d, rfl⟩ := exec_rdBuf_cases hn
    exact h

end Sys2Proof.Proofs
end

section
/-! PROOFS. The reachable states: the invariant along every run from reset, the bounds and the six
invariants it gives, the edges of the status. -/

namespace Sys2Proof.Proofs

open Sys2Proof.Machine Sys2Proof.Laws

/-! ### The whole step -/

/-- Reset with legal parameters meets the invariant (10_state.md R53). -/
theorem inv_reset {p : Params} (hp : p.wf) : (State.resetWith p).Inv :=
  ⟨hp, ⟨le_rfl, Nat.zero_le _, le_rfl, Nat.zero_le _, nofun⟩,
    ⟨⟨.nil, nofun⟩, ⟨.nil, nofun⟩, nofun, Nat.zero_le _, Nat.zero_le _⟩, fun _ => rfl,
    fun _ => ⟨⟨rfl, rfl, rfl, rfl⟩, ⟨rfl, rfl⟩, ⟨rfl, rfl, rfl⟩, rfl⟩,
    fun _ => ⟨⟨rfl, rfl, rfl⟩, Nat.two_pow_pos _, rfl, rfl, nofun, nofun, nofun⟩,
    fun _ => ⟨⟨⟨rfl, rfl, rfl⟩, ⟨rfl, rfl⟩, ⟨rfl, rfl, rfl⟩, ⟨rfl, rfl, rfl, rfl⟩,
      ⟨rfl, rfl, rfl⟩, ⟨rfl, rfl, rfl⟩, rfl⟩, rfl, nofun, ⟨nofun, nofun⟩, fun _ => ⟨rfl, rfl⟩,
      nofun, nofun⟩⟩

/-- A `SERVICE` step of either kind keeps the invariant. -/
theorem inv_service {s t : State} (h : s.Inv) (he : s.serviceEnabled = true)
    (hn : service s = .next t) : t.Inv := by
  cases hb : s.params.bus with
  | tw =>
    obtain ⟨-, rfl⟩ := (service_tw_next hb).1 hn
    exact inv_serviceTw h hb he
  | fw =>
    obtain ⟨-, rfl⟩ := (service_fw_next hb).1 hn
    exact inv_serviceFw h hb he

/-- A turn of any agent keeps the invariant. -/
theorem inv_runTurn {s s' : State} {t : Turn} (h : s.Inv) (hn : runTurn t s = .next s') :
    s'.Inv := by
  cases t with
  | hostWrite a w =>
    obtain ⟨-, ⟨i, -, hx⟩ | ⟨-, rfl⟩⟩ := portWrite_next hn
    · exact inv_exec h hx
    · exact h
  | hostRead a =>
    obtain ⟨-, rfl⟩ := portRead_next hn
    exact h
  | service =>
    rcases runService_cases hn with ⟨he, hx⟩ | ⟨-, rfl⟩
    · exact inv_service h he hx
    · exact h
  | env e =>
    obtain rfl := runEnv_next.1 hn
    split
    · exact inv_envApply e h ‹_›
    · exact h

/-- Every step of any agent keeps the invariant. -/
theorem inv_step {s s' : State} (h : s.Inv) (hn : step s = .next s') : s'.Inv := by
  rcases step_cases hn with ⟨-, rfl⟩ | ⟨t, rest, -, ht⟩
  · exact h
  · exact inv_runTurn (s := { s with agenda := rest }) h ht

/-- The invariant holds in every reachable state, for legal parameters. -/
theorem inv_reachable {p : Params} {s : State} (hp : p.wf) (hr : Reachable p s) : s.Inv :=
  reachable_induction (inv_reset hp) (fun _ _ h => h) (fun _ _ h hn => inv_step h hn) hr

/-! ### The bounds and the six invariants of reachable states -/

/-- Settles O43: the cursor bounds are a part of the invariant, and two lengths of at most 255 leave
at most 510 bytes. -/
theorem reachableCursorBounds : Obligations.ReachableCursorBounds := by
  intro p s hp hr
  obtain ⟨-, ⟨hw, hwc, hrd, hrc, hrem⟩, -⟩ := inv_reachable hp hr
  refine ⟨hw, hwc, hrd, hrc, fun hs => ⟨hrem hs, ?_⟩⟩
  have hwl := s.writeLength.isLt
  have hrl := s.readLength.isLt
  have := hrem hs
  omega

/-- A stop condition has been issued only with the error latched (10_state.md R55 (d)). -/
theorem errLatched_of_stopIssued {s : State} (h : s.Inv) (hs : s.stopIssued = true) :
    s.errLatched = true := by
  cases hb : s.params.bus with
  | tw =>
    obtain ⟨-, -, -, heq, -⟩ := inv_twInv h hb
    exact heq.symm.trans hs
  | fw =>
    obtain ⟨⟨-, ⟨-, hno⟩, -⟩, -⟩ := inv_fwInv h hb
    exact absurd (hno.symm.trans hs) (by decide)

/-- Settles O44: (a) to (c) are the quiet outside a transaction, (d) to (f) follow from
the invariant of its kind. -/
theorem reachableStateInvariants : Obligations.ReachableStateInvariants := by
  intro p s hp hr
  have h := inv_reachable hp hr
  refine ⟨fun hs => ?_, fun hs => ?_, fun _ hs => ?_, errLatched_of_stopIssued h,
    fun hb hs => ?_, fun hb => ?_⟩
  · obtain ⟨hie, -⟩ := inv_quiet h hs
    exact hie
  · obtain ⟨-, ⟨hreq, hstop⟩, hfl, -⟩ := inv_quiet h hs
    exact ⟨hreq, hstop, hfl⟩
  · obtain ⟨-, -, -, hwp⟩ := inv_quiet h hs
    exact hwp
  · obtain ⟨-, -, hmoved, -⟩ := inv_fwRunning h hb hs
    obtain ⟨-, -, ⟨-, -, -, htx, hrx⟩, -⟩ := h
    exact ⟨by omega, htx, hrx⟩
  · obtain ⟨-, -, -, hcs, -⟩ := inv_fwInv h hb
    exact hcs

/-! ### The edges of the status -/

/-- A two-wire start leaves the status or begins a transaction. -/
theorem twStart_status {s t : State} {d : Direction} {wl rl : BitVec 8} {a : BitVec 10}
    (hn : twStart d wl rl a s = .next t) :
    t.status = s.status ∨ StatusEdge s.status t.status := by
  by_cases had : s.admitsTwStart d wl rl
  · rw [twStart_accepted a had] at hn
    cases hn
    obtain ⟨-, -, hidle, -⟩ := had
    rw [hidle]
    exact .inr .start
  · rw [twStart_rejected a had] at hn
    cases hn
    exact .inl rfl

/-- An `XFER` leaves the status or begins a transaction. -/
theorem xfer_status {s t : State} {n : BitVec 8} (hn : execXfer n s = .next t) :
    t.status = s.status ∨ StatusEdge s.status t.status := by
  by_cases had : s.admitsXfer n
  · rw [xfer_accepted had] at hn
    cases hn
    obtain ⟨-, -, hidle, -⟩ := had
    rw [hidle]
    exact .inr .start
  · rw [xfer_rejected had] at hn
    cases hn
    exact .inl rfl

/-- An `ACKIDLE` leaves the status or releases a terminal one. -/
theorem ackIdle_status {s t : State} (hn : exec .ackIdle s = .next t) :
    t.status = s.status ∨ StatusEdge s.status t.status := by
  rcases exec_ackIdle_cases hn with rfl | ⟨-, hs, rfl⟩
  · exact .inl rfl
  · cases hst : s.status with
    | idle => exact .inl rfl
    | inProgress => exact absurd hst hs
    | finished => exact .inr .ackFinished
    | error => exact .inr .ackError

/-- A command leaves the status or takes it along an edge. Only `INIT` needs the invariant: what it
sets to `Idle` was `Idle` before. -/
theorem exec_status {s t : State} {i : Instr} (h : s.Inv) (hn : exec i s = .next t) :
    t.status = s.status ∨ StatusEdge s.status t.status := by
  cases i with
  | init x =>
    rcases exec_init_cases hn with ⟨-, rfl⟩ | ⟨hi, rfl⟩
    · exact .inl rfl
    · obtain ⟨-, -, -, hidle, -⟩ := h
      exact .inl (hidle hi).symm
  | startW a n => exact twStart_status hn
  | startR a m => exact twStart_status hn
  | startWR a n m => exact twStart_status hn
  | xfer n => exact xfer_status hn
  | getStatus =>
    obtain ⟨v, rfl⟩ := exec_getStatus_cases hn
    exact .inl rfl
  | ackIdle => exact ackIdle_status hn
  | wrBuf i b =>
    rcases exec_wrBuf_cases hn with rfl | ⟨-, -, rfl⟩ <;> exact .inl rfl
  | rdBuf i =>
    obtain ⟨v, d, rfl⟩ := exec_rdBuf_cases hn
    exact .inl rfl

/-- A `SERVICE` step leaves the status or ends the transaction. -/
theorem service_status {s t : State} (hn : service s = .next t) :
    t.status = s.status ∨ t.status = .finished ∨ t.status = .error := by
  cases hb : s.params.bus with
  | tw =>
    obtain ⟨-, rfl⟩ := (service_tw_next hb).1 hn
    rw [serviceTw_eq]
    by_cases hstop : stopPending s = true
    · simp only [hstop, if_true]
      split
      · exact .inr (.inr rfl)
      · exact .inr (.inl rfl)
    · exact .inl (if_neg hstop)
  | fw =>
    obtain ⟨-, rfl⟩ := (service_fw_next hb).1 hn
    rw [serviceFw_eq]
    by_cases hz : remainingFw s = 0
    · exact .inr (.inl (if_pos hz))
    · exact .inl (if_neg hz)

/-- A turn of any agent leaves the status or takes it along an edge. -/
theorem runTurn_status {s s' : State} {t : Turn} (h : s.Inv) (hn : runTurn t s = .next s') :
    s'.status = s.status ∨ StatusEdge s.status s'.status := by
  cases t with
  | hostWrite a w =>
    obtain ⟨-, ⟨i, -, hx⟩ | ⟨-, rfl⟩⟩ := portWrite_next hn
    · exact exec_status h hx
    · exact .inl rfl
  | hostRead a =>
    obtain ⟨-, rfl⟩ := portRead_next hn
    exact .inl rfl
  | service =>
    rcases runService_cases hn with ⟨he, hx⟩ | ⟨-, rfl⟩
    · rw [inProgress_of_serviceEnabled h he]
      rcases service_status hx with hs | hs | hs
      · exact .inl (hs.trans (inProgress_of_serviceEnabled h he))
      · exact .inr (hs ▸ .finish)
      · exact .inr (hs ▸ .fail)
    · exact .inl rfl
  | env e =>
    obtain rfl := runEnv_next.1 hn
    split
    · exact .inl (envApply_status e s)
    · exact .inl rfl

/-- Settles O45: a step is a turn, and reachable states have the invariant. -/
theorem statusChangesOnlyAlongEdges : Obligations.StatusChangesOnlyAlongEdges := by
  intro p s s' hp hr hn
  rcases step_cases hn with ⟨-, rfl⟩ | ⟨t, rest, -, ht⟩
  · exact .inl rfl
  · have h := inv_reachable hp hr
    exact runTurn_status (s := { s with agenda := rest }) h ht

end Sys2Proof.Proofs
end

section
/-! PROOFS. The encoding: what a word has to hold to decode to a command, the significant bits that
decide it (30_encoding.md R95), and the reserved words (R94). -/

namespace Sys2Proof.Proofs

open Sys2Proof.Machine Sys2Proof.Laws

/-! ### Ignored bits -/

/-- The fields of a word that its command is read from: `op`, the direction of a `START`, and the
operands of the row (30_encoding.md R86 to R89). -/
def fieldsHold (w : Word) : Instr → Prop
  | .init t => opField w = 1#4 ∧ timingField w = t
  | .startW a n => opField w = 2#4 ∧ dirField w = 0#2 ∧ addrField w = a ∧ wlenField w = n
  | .startR a m => opField w = 2#4 ∧ dirField w = 1#2 ∧ addrField w = a ∧ rlenField w = m
  | .startWR a n m =>
    opField w = 2#4 ∧ dirField w = 2#2 ∧ addrField w = a ∧ wlenField w = n ∧ rlenField w = m
  | .xfer n => opField w = 3#4 ∧ wlenField w = n
  | .getStatus => opField w = 4#4
  | .ackIdle => opField w = 5#4
  | .wrBuf k b => opField w = 6#4 ∧ indexField w = k ∧ dataField w = b
  | .rdBuf k => opField w = 7#4 ∧ indexField w = k

/-- A word with `op = 0x2` is decoded by its direction. -/
theorem decode_of_op_start {w : Word} (h : opField w = 2#4) : decode w = decodeStart w := by
  simp [decode, h]

/-- What a `START` word decodes to has the word's direction and operands. -/
theorem fieldsHold_of_decodeStart {w : Word} {i : Instr} (hop : opField w = 2#4)
    (h : decodeStart w = .instr i) : fieldsHold w i := by
  unfold decodeStart at h
  split at h <;> cases h
  case h_1 hd => exact ⟨hop, hd, rfl, rfl⟩
  case h_2 hd => exact ⟨hop, hd, rfl, rfl⟩
  case h_3 hd => exact ⟨hop, hd, rfl, rfl, rfl⟩

/-- A word decodes to a command exactly where its fields are that command's. -/
theorem decode_eq_instr_iff {w : Word} {i : Instr} : decode w = .instr i ↔ fieldsHold w i := by
  constructor
  · intro h
    unfold decode at h
    split at h
    case h_2 hop => exact fieldsHold_of_decodeStart hop h
    all_goals cases h
    case h_1 hop => exact ⟨hop, rfl⟩
    case h_3 hop => exact ⟨hop, rfl⟩
    case h_4 hop => exact hop
    case h_5 hop => exact hop
    case h_6 hop => exact ⟨hop, rfl, rfl⟩
    case h_7 hop => exact ⟨hop, rfl⟩
  · intro h
    cases i <;> simp_all [fieldsHold, decode, decodeStart]

/-- Every command's significant bits hold `op`. -/
theorem significantBits_op (i : Instr) :
    (significantBits i).extractLsb' 28 4 = BitVec.allOnes 4 := by
  cases i <;> simp [significantBits]

/-- Two words that agree under a mask agree on every field that lies in the mask. -/
theorem field_eq_of_agree {w w' m : Word} {start len : Nat} (h : w' &&& m = w &&& m)
    (hm : m.extractLsb' start len = BitVec.allOnes len := by decide) :
    w'.extractLsb' start len = w.extractLsb' start len := by
  simpa [BitVec.extractLsb'_and, hm] using congrArg (BitVec.extractLsb' start len) h

/-- The significant bits of a command hold every field it is read from: words that agree on them
agree on those fields (30_encoding.md R95). -/
theorem fieldsHold_of_agree {w w' : Word} {i : Instr}
    (h : w' &&& significantBits i = w &&& significantBits i) (hf : fieldsHold w i) :
    fieldsHold w' i := by
  have hop : opField w' = opField w := field_eq_of_agree h (significantBits_op i)
  cases i with simp only [significantBits] at h
  | init t =>
    have ht : timingField w' = timingField w := field_eq_of_agree h
    simpa only [fieldsHold, hop, ht] using hf
  | startW a n =>
    have hd : dirField w' = dirField w := field_eq_of_agree h
    have ha : addrField w' = addrField w := field_eq_of_agree h
    have hn : wlenField w' = wlenField w := field_eq_of_agree h
    simpa only [fieldsHold, hop, hd, ha, hn] using hf
  | startR a m =>
    have hd : dirField w' = dirField w := field_eq_of_agree h
    have ha : addrField w' = addrField w := field_eq_of_agree h
    have hm : rlenField w' = rlenField w := field_eq_of_agree h
    simpa only [fieldsHold, hop, hd, ha, hm] using hf
  | startWR a n m =>
    have hw : w' = w := by simpa using field_eq_of_agree (start := 0) (len := 32) h
    exact hw ▸ hf
  | xfer n =>
    have hn : wlenField w' = wlenField w := field_eq_of_agree h
    simpa only [fieldsHold, hop, hn] using hf
  | getStatus => simpa only [fieldsHold, hop] using hf
  | ackIdle => simpa only [fieldsHold, hop] using hf
  | wrBuf k b =>
    have hk : indexField w' = indexField w := field_eq_of_agree h
    have hb : dataField w' = dataField w := field_eq_of_agree h
    simpa only [fieldsHold, hop, hk, hb] using hf
  | rdBuf k =>
    have hk : indexField w' = indexField w := field_eq_of_agree h
    simpa only [fieldsHold, hop, hk] using hf

/-- Settles O3: a command is read from its fields, and its significant bits hold them. -/
theorem ignoredBitsNeverChangeMeaning : Obligations.IgnoredBitsNeverChangeMeaning :=
  fun _ _ _ hw hagree =>
    decode_eq_instr_iff.2 (fieldsHold_of_agree hagree (decode_eq_instr_iff.1 hw))

/-! ### Reserved words -/

/-- A word with an unassigned `op` is reserved (30_encoding.md R94). -/
theorem decode_unassigned {w : Word} (h : opField w = 0#4 ∨ 8 ≤ (opField w).toNat) :
    decode w = .reserved (.opcode (opField w)) := by
  unfold decode
  split
  case h_8 => rfl
  all_goals simp_all

/-- A `START` word with `dir = 3` is reserved (30_encoding.md R94). -/
theorem decodeStart_reserved {w : Word} (h : dirField w = 3#2) :
    decodeStart w = .reserved .direction := by
  simp [decodeStart, h]

/-- Everything a `START` word can be: one of the three two-wire starts, or reserved. -/
theorem decodeStart_cases (w : Word) :
    (∃ a n, decodeStart w = .instr (.startW a n)) ∨
      (∃ a m, decodeStart w = .instr (.startR a m)) ∨
      (∃ a n m, decodeStart w = .instr (.startWR a n m)) ∨
      decodeStart w = .reserved .direction := by
  unfold decodeStart
  split
  · exact .inl ⟨_, _, rfl⟩
  · exact .inr (.inl ⟨_, _, rfl⟩)
  · exact .inr (.inr (.inl ⟨_, _, _, rfl⟩))
  · exact .inr (.inr (.inr rfl))

/-- A write of a command's word to `CMD` runs the command (20_memory.md R70). -/
theorem portWrite_instr {s : State} {w : Word} {i : Instr} (h : decode w = .instr i) :
    portWrite s.params.base w s = exec i s := by
  simp [portWrite, runCommand, h]

/-- A write of a word that selects no row to `CMD` is rejected (30_encoding.md R94). -/
theorem portWrite_reserved {s : State} {w : Word} {why : Reserved}
    (h : decode w = .reserved why) :
    portWrite s.params.base w s = .next { s with rsp := 0#32 } := by
  simp [portWrite, runCommand, h, reject_eq]

/-- On `FW` every two-wire start is rejected (30_encoding.md R94). -/
theorem twStart_of_fw {s : State} (hb : s.params.bus = .fw) (d : Direction) (wl rl : BitVec 8)
    (a : BitVec 10) : twStart d wl rl a s = .next { s with rsp := 0#32 } :=
  twStart_rejected a fun ⟨htw, _⟩ => by simp [hb] at htw

/-- On `TW` every `XFER` is rejected (30_encoding.md R94). -/
theorem xfer_of_tw {s : State} (hb : s.params.bus = .tw) (n : BitVec 8) :
    execXfer n s = .next { s with rsp := 0#32 } :=
  xfer_rejected fun ⟨hfw, _⟩ => by simp [hb] at hfw

/-- A `START` word written to `CMD` on `FW` is rejected, whatever its direction. -/
theorem portWrite_start_of_fw {s : State} {w : Word} (hop : opField w = 2#4)
    (hb : s.params.bus = .fw) : portWrite s.params.base w s = .next { s with rsp := 0#32 } := by
  have hd := decode_of_op_start hop
  rcases decodeStart_cases w with ⟨a, n, h⟩ | ⟨a, m, h⟩ | ⟨a, n, m, h⟩ | h
  · rw [portWrite_instr (hd.trans h), exec_startW, twStart_of_fw hb]
  · rw [portWrite_instr (hd.trans h), exec_startR, twStart_of_fw hb]
  · rw [portWrite_instr (hd.trans h), exec_startWR, twStart_of_fw hb]
  · exact portWrite_reserved (hd.trans h)

/-- An `XFER` word written to `CMD` on `TW` is rejected. -/
theorem portWrite_xfer_of_tw {s : State} {w : Word} (hop : opField w = 3#4)
    (hb : s.params.bus = .tw) : portWrite s.params.base w s = .next { s with rsp := 0#32 } := by
  have hx : decode w = .instr (.xfer (wlenField w)) := decode_eq_instr_iff.2 ⟨hop, rfl⟩
  rw [portWrite_instr hx, exec_xfer, xfer_of_tw hb]

/-- Settles O7: a word of the first two groups selects no row, one of the last two selects a command
of the other kind. -/
theorem reservedWordChangesNothing : Obligations.ReservedWordChangesNothing := by
  rintro s w (hop | ⟨hop, hdir⟩ | ⟨hop, hb⟩ | ⟨hop, hb⟩)
  · exact portWrite_reserved (decode_unassigned hop)
  · exact portWrite_reserved ((decode_of_op_start hop).trans (decodeStart_reserved hdir))
  · exact portWrite_start_of_fw hop hb
  · exact portWrite_xfer_of_tw hop hb

end Sys2Proof.Proofs
end

section
/-! PROOFS. The start commands: the words of their rows, when one is accepted, what an accepted one
leaves, and a rejected one without effect (40_start.md R111 to R117). -/

namespace Sys2Proof.Proofs

open Sys2Proof.Machine Sys2Proof.Laws

/-! ### The words of the start rows -/

/-- The six leading bits of a `START` word are its `op` and its direction (30_encoding.md R91). -/
theorem startRow_fields {w : Word} {dir : BitVec 2} (h : w.extractLsb' 26 6 = 2#4 ++ dir) :
    opField w = 2#4 ∧ dirField w = dir := by
  have hrow : opField w ++ dirField w = 2#4 ++ dir :=
    (BitVec.extractLsb'_append_extractLsb'_eq_extractLsb' rfl).trans h
  constructor
  · simpa only [BitVec.extractLsb'_append_eq_left] using congrArg (BitVec.extractLsb' 2 4) hrow
  · simpa only [BitVec.extractLsb'_append_eq_right] using congrArg (BitVec.extractLsb' 0 2) hrow

/-! ### Acceptance -/

/-- On `TW` the bound of a used length is `DEPTH`, so the checks of a two-wire start are the
readiness of the block and the bounds of the lengths its direction uses (40_start.md R111). -/
theorem admitsTwStart_iff {s : State} {d : Direction} {wl rl : BitVec 8} :
    s.admitsTwStart d wl rl ↔
      s.readyTw ∧ (d = .read ∨ 1 ≤ wl.toNat ∧ wl.toNat ≤ s.params.depth) ∧
        (d = .write ∨ 1 ≤ rl.toNat ∧ rl.toNat ≤ s.params.depth) := by
  have hcap (hb : s.params.bus = .tw) : s.params.cap = s.params.depth := by
    simp [Params.cap, Params.twCap, hb]
  constructor
  · rintro ⟨hb, hinit, hidle, hbusy, hflags, hlens⟩
    exact ⟨⟨hb, hinit, hidle, hbusy, hflags⟩, hcap hb ▸ hlens⟩
  · rintro ⟨⟨hb, hinit, hidle, hbusy, hflags⟩, hlens⟩
    exact ⟨hb, hinit, hidle, hbusy, hflags, by
      simpa only [lengthInBounds, hcap hb] using hlens⟩

/-- The first chunk holds the loaded bytes in order, each at its index (40_start.md R112 A9). -/
theorem firstChunk_loaded {s : State} {n : BitVec 8} {k : Nat} {b : Byte} (hk : k < n.toNat)
    (hb : s.wbuf.read k = some b) :
    (pushed s.params.base s.wbuf 0 s.draws n.toNat)[k]? = some b := by
  have hn := n.isLt
  rw [pushed_getElem? _ _ _ _ _ _ hk (by simp; omega)]
  simp [Memory.sample, hb]

/-! ### The two-wire start commands -/

/-- Settles O14: the checks are those of a two-wire start that uses its write length alone, and the
first fill pushes all of the write, at least one byte, so it is a fill round. -/
theorem startWriteRunsOrIsRejected : Obligations.StartWriteRunsOrIsRejected := by
  refine ⟨fun w hw => ?_, fun s a n => ?_⟩
  · obtain ⟨hop, hdir⟩ := startRow_fields (dir := 0#2) hw
    exact decode_eq_instr_iff.2 ⟨hop, hdir, rfl, rfl⟩
  have hadmits : s.admitsTwStart .write n 0#8 ↔
      s.readyTw ∧ 1 ≤ n.toNat ∧ n.toNat ≤ s.params.depth := by
    simp [admitsTwStart_iff]
  refine ⟨fun h => ?_, fun h => twStart_rejected a (mt hadmits.1 h)⟩
  have hrun := twStart_accepted a (hadmits.2 h)
  obtain ⟨-, hpos, -⟩ := h
  rw [if_pos (show 0 < (storedWriteLength .write n).toNat from hpos)] at hrun
  exact ⟨pushed s.params.base s.wbuf 0 s.draws n.toNat, s.draws + n.toNat, hrun,
    pushed_length .., fun _ _ => firstChunk_loaded⟩

/-- Settles O15: the checks are those of a two-wire start that uses its read length alone, and
nothing is pushed. -/
theorem startReadRunsOrIsRejected : Obligations.StartReadRunsOrIsRejected := by
  refine ⟨fun w hw => ?_, fun s a m => ?_⟩
  · obtain ⟨hop, hdir⟩ := startRow_fields (dir := 1#2) hw
    exact decode_eq_instr_iff.2 ⟨hop, hdir, rfl, rfl⟩
  have hadmits : s.admitsTwStart .read 0#8 m ↔
      s.readyTw ∧ 1 ≤ m.toNat ∧ m.toNat ≤ s.params.depth := by
    simp [admitsTwStart_iff]
  exact ⟨fun h => twStart_accepted a (hadmits.2 h),
    fun h => twStart_rejected a (mt hadmits.1 h)⟩

/-- Settles O16: the checks bound both lengths, and the first fill pushes all of the write. -/
theorem startWriteReadRunsOrIsRejected : Obligations.StartWriteReadRunsOrIsRejected := by
  refine ⟨fun w hw => ?_, fun s a n m => ?_⟩
  · obtain ⟨hop, hdir⟩ := startRow_fields (dir := 2#2) hw
    exact decode_eq_instr_iff.2 ⟨hop, hdir, rfl, rfl, rfl⟩
  have hadmits : s.admitsTwStart .writeThenRead n m ↔
      s.readyTw ∧ (1 ≤ n.toNat ∧ n.toNat ≤ s.params.depth) ∧
        (1 ≤ m.toNat ∧ m.toNat ≤ s.params.depth) := by
    simp [admitsTwStart_iff]
  refine ⟨fun h => ?_, fun h => twStart_rejected a (mt hadmits.1 h)⟩
  have hrun := twStart_accepted a (hadmits.2 h)
  obtain ⟨-, ⟨hpos, -⟩, -⟩ := h
  rw [if_pos (show 0 < (storedWriteLength .writeThenRead n).toNat from hpos)] at hrun
  exact ⟨pushed s.params.base s.wbuf 0 s.draws n.toNat, s.draws + n.toNat, hrun,
    pushed_length .., fun _ _ => firstChunk_loaded⟩

/-! ### Rejection without effect -/

/-- Whether a state accepts a start command: the checks of the command's own row (40_start.md R111,
R116). -/
def acceptsStart (s : State) : Instr → Prop
  | .startW _ n => s.admitsTwStart .write n 0#8
  | .startR _ m => s.admitsTwStart .read 0#8 m
  | .startWR _ n m => s.admitsTwStart .writeThenRead n m
  | .xfer n => s.admitsXfer n
  | .init _ | .getStatus | .ackIdle | .wrBuf _ _ | .rdBuf _ => False

/-- A start command that is not accepted changes nothing and responds 0 (40_start.md R117). -/
theorem exec_start_rejected {s : State} {i : Instr} (hi : i.isStart = true)
    (h : ¬ acceptsStart s i) : exec i s = .next { s with rsp := 0#32 } := by
  obtain ⟨a, n, rfl⟩ | ⟨a, m, rfl⟩ | ⟨a, n, m, rfl⟩ | ⟨n, rfl⟩ := isStart_cases hi
  · exact twStart_rejected a h
  · exact twStart_rejected a h
  · exact twStart_rejected a h
  · exact xfer_rejected h

/-- An accepted start command responds 1 (40_start.md R112, R116). -/
theorem rsp_of_acceptsStart {s t : State} {i : Instr} (h : acceptsStart s i)
    (ht : exec i s = .next t) : t.rsp = 1#32 := by
  have htw {d : Direction} {wl rl : BitVec 8} {a : BitVec 10} (had : s.admitsTwStart d wl rl)
      (ht : twStart d wl rl a s = .next t) : t.rsp = 1#32 := by
    rw [twStart_accepted a had] at ht
    cases ht
    rfl
  cases i with
  | startW a n => exact htw h ht
  | startR a m => exact htw h ht
  | startWR a n m => exact htw h ht
  | xfer n =>
    rw [exec_xfer, xfer_accepted h] at ht
    cases ht
    rfl
  | init _ | getStatus | ackIdle | wrBuf _ _ | rdBuf _ => exact h.elim

/-- No double start: a start command is accepted in `Idle` alone (40_start.md R111 V1, R116). -/
theorem idle_of_acceptsStart {s : State} {i : Instr} (h : acceptsStart s i) :
    s.status = .idle := by
  cases i with
  | startW _ _ | startR _ _ | startWR _ _ _ | xfer _ =>
    obtain ⟨-, -, hidle, -⟩ := h
    exact hidle
  | init _ | getStatus | ackIdle | wrBuf _ _ | rdBuf _ => exact h.elim

/-- An accepted start command that uses a write length has one from 1 to `CAP` (40_start.md R111
V4). -/
theorem lengthInBounds_of_acceptsStart {s : State} {i : Instr} {n : BitVec 8}
    (hn : (∃ a, i = .startW a n) ∨ (∃ a m, i = .startWR a n m) ∨ i = .xfer n)
    (h : acceptsStart s i) : lengthInBounds s.params n := by
  obtain ⟨a, rfl⟩ | ⟨a, m, rfl⟩ | rfl := hn
  · obtain ⟨-, -, -, -, -, hlen, -⟩ := h
    exact hlen.resolve_left nofun
  · obtain ⟨-, -, -, -, -, hlen, -⟩ := h
    exact hlen.resolve_left nofun
  · obtain ⟨-, -, -, -, hlen⟩ := h
    exact hlen

/-- Settles O18: outside `Idle`, or with a used write length out of bounds, no start command is
accepted; and one that responds 0 was not accepted. -/
theorem rejectedStartChangesNothing : Obligations.RejectedStartChangesNothing := by
  intro s i hi
  refine ⟨fun hs => exec_start_rejected hi fun h => hs (idle_of_acceptsStart h),
    fun n hn hlen => exec_start_rejected hi fun h => ?_, fun t ht hrsp => ?_⟩
  · obtain ⟨hpos, hcap⟩ := lengthInBounds_of_acceptsStart hn h
    omega
  · have hrej : ¬ acceptsStart s i := fun h => by
      simp [rsp_of_acceptsStart h ht] at hrsp
    rw [exec_start_rejected hi hrej] at ht
    exact (Host.Outcome.next.inj ht).symm

end Sys2Proof.Proofs
end

section
/-! PROOFS. `GETSTATUS` and `ACKIDLE`: their words, what they respond and leave unchanged
(41_status_ack_buffers.md R130, R132), and that a terminal status stays until an `ACKIDLE` releases
it (R133). -/

namespace Sys2Proof.Proofs

open Sys2Proof.Machine Sys2Proof.Laws

/-! ### A terminal status stays until it is acknowledged -/

/-- No command but a successful `ACKIDLE` leaves a terminal status: a start is accepted in `Idle`
alone (40_start.md R117), and an `INIT` that runs finds `Idle`, by the invariant. -/
theorem exec_of_terminal {s t : State} {i : Instr} (h : s.Inv)
    (hs : s.status = .finished ∨ s.status = .error) (hn : exec i s = .next t) :
    t.status = s.status ∨ (i = .ackIdle ∧ t.status = .idle ∧ t.rsp = 1#32) := by
  have hidle : s.status ≠ .idle := by intro h0; simp [h0] at hs
  have start_rejected (hi : i.isStart = true) : t.status = s.status := by
    rw [exec_start_rejected hi fun ha => hidle (idle_of_acceptsStart ha)] at hn
    cases hn
    rfl
  cases i with
  | init x =>
    rcases exec_init_cases hn with ⟨-, rfl⟩ | ⟨hi, -⟩
    · exact .inl rfl
    · obtain ⟨-, -, -, hbefore, -⟩ := h
      exact absurd (hbefore hi) hidle
  | startW _ _ | startR _ _ | startWR _ _ _ | xfer _ => exact .inl (start_rejected rfl)
  | getStatus =>
    obtain ⟨v, rfl⟩ := exec_getStatus_cases hn
    exact .inl rfl
  | ackIdle =>
    rcases exec_ackIdle_cases hn with rfl | ⟨-, -, rfl⟩
    · exact .inl rfl
    · exact .inr ⟨rfl, rfl, rfl⟩
  | wrBuf k b =>
    rcases exec_wrBuf_cases hn with rfl | ⟨-, -, rfl⟩
    · exact .inl rfl
    · exact .inl rfl
  | rdBuf k =>
    obtain ⟨v, d, rfl⟩ := exec_rdBuf_cases hn
    exact .inl rfl

/-- With no transaction in progress neither the background nor the environment writes the status:
the background has no step then. -/
theorem runTurn_advances_status {s s' : State} {t : Turn} (h : s.Inv)
    (hs : s.status ≠ .inProgress) (ht : t.advances = true) (hn : runTurn t s = .next s') :
    s'.status = s.status := by
  cases t with
  | hostWrite _ _ | hostRead _ => cases ht
  | service =>
    rcases runService_cases hn with ⟨he, -⟩ | ⟨-, rfl⟩
    · exact absurd (inProgress_of_serviceEnabled h he) hs
    · rfl
  | env e =>
    obtain rfl := runEnv_next.1 hn
    split
    · exact envApply_status e s
    · rfl

/-- A turn of any agent leaves a terminal status, but for a word of `ACKIDLE` written to `CMD`. -/
theorem runTurn_of_terminal {s s' : State} {t : Turn} (h : s.Inv)
    (hs : s.status = .finished ∨ s.status = .error) (hn : runTurn t s = .next s') :
    s'.status = s.status ∨
      (s'.status = .idle ∧ s'.rsp = 1#32 ∧
        ∃ w, t = .hostWrite s.params.base w ∧ decode w = .instr .ackIdle) := by
  have hrun : s.status ≠ .inProgress := by intro h1; simp [h1] at hs
  cases t with
  | hostWrite a w =>
    obtain ⟨rfl, ⟨i, hw, hx⟩ | ⟨-, rfl⟩⟩ := portWrite_next hn
    · rcases exec_of_terminal h hs hx with hstay | ⟨rfl, hidle, hrsp⟩
      · exact .inl hstay
      · exact .inr ⟨hidle, hrsp, w, rfl, hw⟩
    · exact .inl rfl
  | hostRead a =>
    obtain ⟨-, rfl⟩ := portRead_next hn
    exact .inl rfl
  | service | env _ => exact .inl (runTurn_advances_status h hrun rfl hn)

/-- Settles O47: a step is a turn, and of all turns only an `ACKIDLE` releases a terminal status. -/
theorem terminalStatusIsSticky : Obligations.TerminalStatusIsSticky := by
  intro s s' h hs hn
  rcases step_cases hn with ⟨-, rfl⟩ | ⟨t, rest, hagenda, ht⟩
  · exact .inl rfl
  · rcases runTurn_of_terminal (s := { s with agenda := rest }) h hs ht with
      hstay | ⟨hidle, hrsp, w, rfl, hw⟩
    · exact .inl hstay
    · exact .inr ⟨hidle, hrsp, w, rest, hagenda, hw⟩

/-! ### `GETSTATUS` -/

/-- The response code of the reported status: the busy override is 1, the code of `InProgress`, and
elsewhere it is the code of the raw status (41_status_ack_buffers.md R130). -/
theorem reportedStatus_code (s : State) :
    s.reportedStatus.code.setWidth 32 =
      if s.params.bus = .tw ∧ s.hw.busy = true ∧ (s.status = .idle ∨ s.status = .finished)
      then 1#32
      else s.status.code.setWidth 32 := by
  unfold State.reportedStatus
  split
  · rfl
  · rfl

/-- After `INIT`, `GETSTATUS` responds the code of the reported status and changes nothing else. -/
theorem exec_getStatus_ready {s : State} (h : s.initDone = true) :
    exec .getStatus s = .next { s with rsp := s.reportedStatus.code.setWidth 32 } := by
  simp [exec, execGetStatus, h, respond_eq]

/-- Settles O19: the response is the code of the reported status, spelled out per raw status. -/
theorem getStatusReports : Obligations.GetStatusReports := by
  refine ⟨fun w hw => decode_eq_instr_iff.2 hw, fun s => ⟨fun h => ?_, fun h =>
    exec_before_init h nofun⟩⟩
  rw [exec_getStatus_ready h, reportedStatus_code]
  cases s.status <;> rfl

/-! ### `ACKIDLE` -/

/-- After `INIT`, `ACKIDLE` outside a transaction sets `Idle` (41_status_ack_buffers.md R132). -/
theorem exec_ackIdle_released {s : State} (h : s.initDone = true) (hs : s.status ≠ .inProgress) :
    exec .ackIdle s = .next { s with status := .idle, rsp := 1#32 } := by
  simp [exec, execAckIdle, h, hs, respond_eq]

/-- During a transaction `ACKIDLE` is refused (41_status_ack_buffers.md R132). -/
theorem exec_ackIdle_refused {s : State} (hs : s.status = .inProgress) :
    exec .ackIdle s = .next { s with rsp := 0#32 } := by
  simp [exec, execAckIdle, hs, reject_eq, respond_eq]

/-- Settles O20: the three cases are the release, the refusal, and the rejection before `INIT`. -/
theorem ackIdleReleasesTerminalStatus : Obligations.AckIdleReleasesTerminalStatus :=
  ⟨fun _ hw => decode_eq_instr_iff.2 hw,
    fun _ => ⟨exec_ackIdle_released, fun _ hs => exec_ackIdle_refused hs,
      fun h => exec_before_init h nofun⟩⟩

end Sys2Proof.Proofs
end

section
/-! PROOFS. Runs of a transaction in progress: the count of `SERVICE` steps along one, what the host
cannot touch during one, and that a rejection by the peer stays with it to its end
(42_service_tw.md R147, R153). -/

namespace Sys2Proof.Proofs

open Sys2Proof.Machine Sys2Proof.Laws

/-- A property of a state and of the `SERVICE` steps taken so far that every existing step of a
transaction in progress keeps holds at the end of a run if it holds at its beginning. -/
theorem run_induction_count {P : Nat → State → Prop}
    (hstep : ∀ (t : Turn) (k : Nat) (s s' : State), s.status = .inProgress → s.offers t = true →
      runTurn t s = .next s' → P k s → P (k + [t].count .service) s')
    {ts : List Turn} {s u : State} (hr : TransactionRun ts s u) {k : Nat} (h : P k s) :
    P (k + ts.count .service) u := by
  induction hr generalizing k with
  | nil _ => exact h
  | cons t ts s s' u hp ho ht _ ih =>
    rw [← List.singleton_append, List.count_append, ← Nat.add_assoc]
    exact ih (hstep t k s s' hp ho ht h)

/-! ### The host during a transaction -/

/-- Everything a command can do during a transaction: respond, write the write buffer, pass
free-byte positions. -/
theorem exec_inProgress {s t : State} {i : Instr} (h : s.Inv) (hp : s.status = .inProgress)
    (hn : exec i s = .next t) : ∃ w v d, t = { s with wbuf := w, rsp := v, draws := d } := by
  have start_rejected (hi : i.isStart = true) : t = { s with rsp := 0#32 } := by
    have hrej : ¬ acceptsStart s i := fun ha => by simp [idle_of_acceptsStart ha] at hp
    rw [exec_start_rejected hi hrej] at hn
    exact (Host.Outcome.next.inj hn).symm
  cases i with
  | init x =>
    rcases exec_init_cases hn with ⟨-, rfl⟩ | ⟨hi, -⟩
    · exact ⟨_, _, _, rfl⟩
    · obtain ⟨-, -, -, hbefore, -⟩ := h
      exact absurd (hp.symm.trans (hbefore hi)) (by decide)
  | startW _ _ | startR _ _ | startWR _ _ _ | xfer _ => exact ⟨_, _, _, start_rejected rfl⟩
  | getStatus =>
    obtain ⟨v, rfl⟩ := exec_getStatus_cases hn
    exact ⟨_, _, _, rfl⟩
  | ackIdle =>
    rcases exec_ackIdle_cases hn with rfl | ⟨-, hs, -⟩
    · exact ⟨_, _, _, rfl⟩
    · exact absurd hp hs
  | wrBuf k b =>
    rcases exec_wrBuf_cases hn with rfl | ⟨-, -, rfl⟩
    · exact ⟨_, _, _, rfl⟩
    · exact ⟨_, _, _, rfl⟩
  | rdBuf k =>
    obtain ⟨v, d, rfl⟩ := exec_rdBuf_cases hn
    exact ⟨_, _, _, rfl⟩

/-- Everything a turn of the host can do during a transaction: neither the transaction nor the wire
is touched. -/
theorem hostTurn_inProgress {s s' : State} {t : Turn} (h : s.Inv) (hp : s.status = .inProgress)
    (ht : t.advances = false) (hn : runTurn t s = .next s') :
    ∃ w v d x, s' = { s with wbuf := w, rsp := v, draws := d, hostData := x } := by
  cases t with
  | hostWrite a word =>
    obtain ⟨-, ⟨i, -, hx⟩ | ⟨-, rfl⟩⟩ := portWrite_next hn
    · obtain ⟨w, v, d, rfl⟩ := exec_inProgress h hp hx
      exact ⟨_, _, _, _, rfl⟩
    · exact ⟨_, _, _, _, rfl⟩
  | hostRead a =>
    obtain ⟨-, rfl⟩ := portRead_next hn
    exact ⟨_, _, _, _, rfl⟩
  | service | env _ => cases ht

/-! ### A transaction that the peer has rejected -/

/-- The peer has rejected the address or a byte: the error is latched, or the flag is up and
`SERVICE` will latch it. -/
def failing (s : State) : Prop := s.errLatched = true ∨ s.hw.nack = true

/-- No transaction that the peer has rejected is `Finished`. -/
theorem not_failing_of_finished {s : State} (h : s.Inv) (hs : s.status = .finished) :
    ¬ failing s := by
  have herr : s.errLatched = false := by
    cases hb : s.params.bus with
    | tw =>
      obtain ⟨-, -, -, -, -, hfin, -⟩ := inv_twInv h hb
      exact (hfin hs).1
    | fw =>
      obtain ⟨⟨-, ⟨herr, -⟩, -⟩, -⟩ := inv_fwInv h hb
      exact herr
  obtain ⟨-, -, ⟨hnack, -⟩, -⟩ := inv_quiet h (by simp [hs])
  rintro (hf | hf)
  · exact absurd (herr.symm.trans hf) (by decide)
  · exact absurd (hnack.symm.trans hf) (by decide)

/-- The environment never takes a rejection back: it writes no latch and clears no `hw.nack`. -/
theorem failing_envApply {s : State} (e : EnvStep) (h : failing s) : failing (s.envApply e) := by
  cases e with
  | start ack t =>
    cases ack with
    | true => exact h
    | false => exact .inr rfl
  | tx ack =>
    simp only [State.envApply, State.envTx]
    split
    · exact h
    · cases ack with
      | true => exact h
      | false => exact .inr rfl
  | rx b => exact h
  | phaseEnd linger =>
    simp only [State.envApply, State.envPhaseEnd]
    split <;> exact h
  | stop linger => exact h
  | busyRel => exact h
  | xchg b =>
    simp only [State.envApply, State.envXchg]
    split <;> exact h

/-- `SERVICE` clears `hw.nack` only where it latches the error (42_service_tw.md R147). -/
theorem failing_service {s t : State} (h : failing s) (hn : service s = .next t) : failing t := by
  cases hb : s.params.bus with
  | tw =>
    obtain ⟨-, rfl⟩ := (service_tw_next hb).1 hn
    rw [serviceTw_eq]
    show (s.errLatched || nackPending s) = true ∨ (s.hw.nack && !nackPending s) = true
    rcases h with h | h
    · simp [h]
    · cases hN : nackPending s <;> simp [h]
  | fw =>
    obtain ⟨-, rfl⟩ := (service_fw_next hb).1 hn
    rw [serviceFw_eq]
    exact h

/-- A step of a transaction in progress keeps a rejection. -/
theorem failing_runTurn {s s' : State} {t : Turn} (h : s.Inv) (hp : s.status = .inProgress)
    (hf : failing s) (hn : runTurn t s = .next s') : failing s' := by
  cases t with
  | hostWrite _ _ | hostRead _ =>
    obtain ⟨_, _, _, _, rfl⟩ := hostTurn_inProgress h hp rfl hn
    exact hf
  | service =>
    rcases runService_cases hn with ⟨-, hx⟩ | ⟨-, rfl⟩
    · exact failing_service hf hx
    · exact hf
  | env e =>
    obtain rfl := runEnv_next.1 hn
    split
    · exact failing_envApply e hf
    · exact hf

/-! ### Which step a phase has -/

/-- The end of a write phase with no rejection is flagged in the phase that waits for its service
alone. -/
theorem phaseDone_of_tc {s : State} (h : twPhase s) (htc : s.hw.tc = true)
    (hna : s.hw.nack = false) : s.twPhaseDone := by
  rcases h with h | h | h | h | h | h | h
  case inr.inr.inr.inr.inl => exact h
  all_goals simp_all

/-- With a start condition requested, the address is the one event to come. -/
theorem env_of_startReq {s : State} {e : EnvStep} (hb : s.params.bus = .tw) (h : twPhase s)
    (hr : s.hw.startReq = true) (he : s.envEnabled e = true) : ∃ ack t, e = .start ack t := by
  have hwp : s.hw.wp ≠ .data := fun hd => by
    obtain ⟨-, hno, -⟩ := moving_of_data h hd
    exact absurd (hno.symm.trans hr) (by decide)
  have hsr : s.hw.stopReq ≠ true := fun hs => by
    obtain ⟨-, hno, -⟩ := stopping_of_stopReq h hs
    exact absurd (hno.symm.trans hr) (by decide)
  cases e with
  | start ack t => exact ⟨ack, t, rfl⟩
  | tx _ | rx _ | phaseEnd _ => simp [State.envEnabled, hwp] at he
  | stop _ => simp [State.envEnabled, hsr] at he
  | busyRel => simp [State.envEnabled, hr] at he
  | xchg _ => simp [State.envEnabled, hb] at he

/-- While bytes are sent, the next byte and the end of the phase are the events to come. -/
theorem env_of_sending {s : State} {e : EnvStep} (hb : s.params.bus = .tw) (h : s.twMoving)
    (hm : s.hw.rxMode = false) (he : s.envEnabled e = true) :
    (∃ ack, e = .tx ack) ∨ ∃ linger, e = .phaseEnd linger := by
  obtain ⟨hwp, hreq, -, ⟨hsr, -⟩, -⟩ := h
  cases e with
  | tx ack => exact .inl ⟨ack, rfl⟩
  | phaseEnd linger => exact .inr ⟨linger, rfl⟩
  | start _ _ => simp [State.envEnabled, hreq] at he
  | rx _ => simp [State.envEnabled, hm] at he
  | stop _ => simp [State.envEnabled, hsr] at he
  | busyRel => simp [State.envEnabled, hwp] at he
  | xchg _ => simp [State.envEnabled, hb] at he

/-- While bytes are received, the next byte and the end of the phase are the events to come. -/
theorem env_of_receiving {s : State} {e : EnvStep} (hb : s.params.bus = .tw) (h : s.twMoving)
    (hm : s.hw.rxMode = true) (he : s.envEnabled e = true) :
    (∃ b, e = .rx b) ∨ ∃ linger, e = .phaseEnd linger := by
  obtain ⟨hwp, hreq, -, ⟨hsr, -⟩, -⟩ := h
  cases e with
  | rx b => exact .inl ⟨b, rfl⟩
  | phaseEnd linger => exact .inr ⟨linger, rfl⟩
  | start _ _ => simp [State.envEnabled, hreq] at he
  | tx _ => simp [State.envEnabled, hm] at he
  | stop _ => simp [State.envEnabled, hsr] at he
  | busyRel => simp [State.envEnabled, hwp] at he
  | xchg _ => simp [State.envEnabled, hb] at he

/-- Between a write phase and its service the wire waits: no event comes. -/
theorem no_env_of_phaseDone {s : State} (e : EnvStep) (hb : s.params.bus = .tw)
    (h : s.twPhaseDone) : s.envEnabled e = false := by
  obtain ⟨hwp, hreq, -, -, -, -, hsr, -⟩ := h
  cases e <;> simp [State.envEnabled, hwp, hreq, hsr, hb]

/-- While a start condition is requested or bytes move, the background has no step. -/
theorem no_service_before_event {s : State} (hb : s.params.bus = .tw) (h : twPhase s)
    (hw : s.hw.startReq = true ∨ s.hw.wp = .data) : s.serviceEnabled = false := by
  by_contra he
  rcases phase_of_pending h (pending_of_serviceEnabled_tw hb (by simpa using he)) with
    ⟨hwp, hreq, -⟩ | ⟨hwp, hreq, -⟩ | ⟨hwp, hreq, -⟩
  all_goals simp [hwp, hreq] at hw

/-- After the stop condition, the release of the bus is the one event to come. -/
theorem env_of_stopped {s : State} {e : EnvStep} (hb : s.params.bus = .tw) (h : s.twStopped)
    (he : s.envEnabled e = true) : e = .busyRel := by
  obtain ⟨hwp, hreq, -, -, hsr, -⟩ := h
  cases e with
  | busyRel => rfl
  | start _ _ => simp [State.envEnabled, hreq] at he
  | tx _ | rx _ | phaseEnd _ => simp [State.envEnabled, hwp] at he
  | stop _ => simp [State.envEnabled, hsr] at he
  | xchg _ => simp [State.envEnabled, hb] at he

end Sys2Proof.Proofs
end

section
/-! PROOFS. A write-then-read from its start to `Finished` (42_service_tw.md R153, R154): the stages
it passes through, what the wire has seen at each, and how many `SERVICE` steps it has taken. -/

namespace Sys2Proof.Proofs

open Sys2Proof.Machine Sys2Proof.Laws

/-! ### The stages -/

/-- What a write-then-read is to do, fixed at its start. -/
structure WriteReadPlan where
  /-- The wire log before the start. -/
  before : List WireEvent
  peer : BitVec 10
  /-- The bytes to send. -/
  out : List Byte
  /-- The number of bytes to receive. -/
  backLength : BitVec 8
  /-- The stop conditions the engine had requested before the start. -/
  stops : Nat

/-- The stages of a write-then-read that the peer does not reject. -/
inductive WriteReadStage where
  | starting
  | sending
  | sent
  | restarting
  | receiving
  | stopped
  | finished

/-- The `SERVICE` steps a write-then-read has taken at a stage (42_service_tw.md R153): one arms the
read phase, one completes. -/
def WriteReadStage.services : WriteReadStage → Nat
  | .starting | .sending | .sent => 0
  | .restarting | .receiving | .stopped => 1
  | .finished => 2

namespace WriteReadPlan

variable (p : WriteReadPlan)

/-- The wire log with the address and the given bytes sent, all acknowledged. -/
def sentLog (sent : List Byte) : List WireEvent :=
  p.before ++ [.start p.peer false true] ++ sent.map (fun b => .transmitted b true)

/-- The wire log with every byte sent, the repeated start acknowledged, the given bytes received. -/
def backLog (back : List Byte) : List WireEvent :=
  p.sentLog p.out ++ [.repeatedStart p.peer true true] ++ back.map (fun b => .received b)

/-- What holds of a write-then-read at every stage before it ends. -/
def Running (s : State) : Prop :=
  s.status = .inProgress ∧ s.params.bus = .tw ∧ s.direction = .writeThenRead ∧
  s.readLength = p.backLength ∧ s.hw.addr = p.peer ∧ s.stopCount = p.stops

/-- A write-then-read is at a stage: where the wire is, and what it has seen. The invariant gives
the rest of the phase. -/
def At : WriteReadStage → State → Prop
  | .starting, s =>
    p.Running s ∧ s.hw.startReq = true ∧ s.hw.wp = .idle ∧ s.hw.rxMode = false ∧
      s.hw.txFifo = p.out ∧ s.wireLog = p.before
  | .sending, s =>
    p.Running s ∧ s.hw.wp = .data ∧ s.hw.rxMode = false ∧
      ∃ sent, sent ++ s.hw.txFifo = p.out ∧ s.wireLog = p.sentLog sent
  | .sent, s =>
    p.Running s ∧ s.hw.tc = true ∧ s.hw.nack = false ∧ s.wireLog = p.sentLog p.out
  | .restarting, s =>
    p.Running s ∧ s.hw.startReq = true ∧ s.hw.wp = .hold ∧ s.wireLog = p.sentLog p.out
  | .receiving, s =>
    p.Running s ∧ s.hw.wp = .data ∧ s.hw.rxMode = true ∧ s.wireLog = p.backLog s.hw.rxFifo
  | .stopped, s =>
    p.Running s ∧ s.hw.wp = .idle ∧ s.hw.startReq = false ∧ s.errLatched = false ∧
      s.wireLog = p.backLog s.hw.rxFifo ++ [.stop]
  | .finished, s =>
    s.status = .finished ∧ s.stopCount = p.stops ∧
      ∃ back : List Byte, back.length = p.backLength.toNat ∧
        s.wireLog = p.backLog back ++ [.stop] ∧
        ∀ k < p.backLength.toNat, s.rbuf.read k = back[k]?

/-- After `k` `SERVICE` steps the write-then-read is at a stage that takes `k`, or the peer has
rejected it. -/
def Reached (k : Nat) (s : State) : Prop :=
  failing s ∨ ∃ g : WriteReadStage, p.At g s ∧ g.services = k

end WriteReadPlan

section

variable {p : WriteReadPlan} {s : State}

theorem sentLog_snoc (sent : List Byte) (b : Byte) :
    p.sentLog sent ++ [.transmitted b true] = p.sentLog (sent ++ [b]) := by
  simp [WriteReadPlan.sentLog]

theorem backLog_snoc (back : List Byte) (b : Byte) :
    p.backLog back ++ [.received b] = p.backLog (back ++ [b]) := by
  simp [WriteReadPlan.backLog]

/-- While a write-then-read runs, the wire is at a phase of the invariant. -/
theorem phase_of_running (h : s.Inv) (hr : p.Running s) : twPhase s := by
  obtain ⟨hp, hb, -⟩ := hr
  exact inv_twPhase h hb hp

/-! ### The environment -/

/-- The address is answered: the bytes are sent next, or the peer has rejected it
(44_adapter_contract.md R184). -/
theorem reached_envApply_of_starting {e : EnvStep} (h : s.Inv) (ha : p.At .starting s)
    (he : s.envEnabled e = true) : p.Reached 0 (s.envApply e) := by
  obtain ⟨hr, hreq, hwp, hm, htx, hlog⟩ := ha
  have hph := phase_of_running h hr
  obtain ⟨hp, hb, hd, hl, hpe, hst⟩ := hr
  obtain ⟨ack, t, rfl⟩ := env_of_startReq hb hph hreq he
  cases ack with
  | false => exact .inl (.inr rfl)
  | true =>
    refine .inr ⟨.sending, ⟨⟨hp, hb, hd, hl, hpe, hst⟩, rfl, hm, [], htx, ?_⟩, rfl⟩
    simp [State.envApply, State.envStart, WriteReadPlan.sentLog, hwp, hlog, hpe, hm]

/-- A byte is sent and acknowledged or rejected (44_adapter_contract.md R186), or, with none left,
the phase ends without a stop condition (R188). -/
theorem reached_envApply_of_sending {e : EnvStep} (h : s.Inv) (ha : p.At .sending s)
    (he : s.envEnabled e = true) : p.Reached 0 (s.envApply e) := by
  obtain ⟨hr, hwp, hm, sent, hout, hlog⟩ := ha
  have hmove := moving_of_data (phase_of_running h hr) hwp
  have ⟨hp, hb, hd, _⟩ := hr
  rcases env_of_sending hb hmove hm he with ⟨ack, rfl⟩ | ⟨linger, rfl⟩
  · obtain ⟨-, -, -, -, hne⟩ := of_decide_eq_true he
    obtain ⟨v, rest, htx⟩ := List.exists_cons_of_length_pos hne
    simp only [State.envApply, State.envTx, htx]
    cases ack with
    | false => exact .inl (.inr rfl)
    | true =>
      refine .inr ⟨.sending, ⟨hr, hwp, hm, sent ++ [v], ?_, ?_⟩, rfl⟩
      · simpa [htx] using hout
      · simp [hlog, sentLog_snoc]
  · obtain ⟨-, -, hcount⟩ := of_decide_eq_true he
    obtain ⟨-, -, -, ⟨-, hna, -⟩, -, -, hsend, -⟩ := hmove
    obtain ⟨hlen, -⟩ := hsend hm
    have htx : s.hw.txFifo = [] := List.eq_nil_of_length_eq_zero (by omega)
    obtain ⟨-, -, -, -, has, -⟩ := inv_twRunning h hb hp
    have hauto : s.hw.autoStop = false := has.2 ⟨hd, hm⟩
    have hall : sent = p.out := by simpa [htx] using hout
    simp only [State.envApply, State.envPhaseEnd, hauto, if_true]
    exact .inr ⟨.sent, ⟨hr, rfl, hna, hall ▸ hlog⟩, rfl⟩

/-- The repeated start goes to the same peer and is acknowledged or rejected
(44_adapter_contract.md R184). -/
theorem reached_envApply_of_restarting {e : EnvStep} (h : s.Inv) (ha : p.At .restarting s)
    (he : s.envEnabled e = true) : p.Reached 1 (s.envApply e) := by
  obtain ⟨hr, hreq, hwp, hlog⟩ := ha
  have hph := phase_of_running h hr
  obtain ⟨hp, hb, hd, hl, hpe, hst⟩ := hr
  obtain ⟨-, -, -, -, -, -, hm, -, hrx⟩ : s.twRestartPending :=
    (phase_of_startReq hph hreq).resolve_left fun ⟨hidle, _⟩ => by simp [hidle] at hwp
  obtain ⟨ack, t, rfl⟩ := env_of_startReq hb hph hreq he
  cases ack with
  | false => exact .inl (.inr rfl)
  | true =>
    refine .inr ⟨.receiving, ⟨⟨hp, hb, hd, hl, hpe, hst⟩, rfl, hm, ?_⟩, rfl⟩
    simp [State.envApply, State.envStart, WriteReadPlan.backLog, hwp, hlog, hpe, hm, hrx]

/-- A byte is received (44_adapter_contract.md R187), or, with none to come, the phase ends with its
automatic stop condition (R189). -/
theorem reached_envApply_of_receiving {e : EnvStep} (h : s.Inv) (ha : p.At .receiving s)
    (he : s.envEnabled e = true) : p.Reached 1 (s.envApply e) := by
  obtain ⟨hr, hwp, hm, hlog⟩ := ha
  have hmove := moving_of_data (phase_of_running h hr) hwp
  have ⟨hp, hb, _⟩ := hr
  rcases env_of_receiving hb hmove hm he with ⟨b, rfl⟩ | ⟨linger, rfl⟩
  · refine .inr ⟨.receiving, ⟨hr, hwp, hm, ?_⟩, rfl⟩
    simp [State.envApply, State.envRx, hlog, backLog_snoc]
  · obtain ⟨-, hreq, -, -, herr, -⟩ := hmove
    obtain ⟨-, -, -, -, has, -⟩ := inv_twRunning h hb hp
    have hauto : s.hw.autoStop = true := by
      by_contra hf
      obtain ⟨-, hsend⟩ := has.1 (by simpa using hf)
      exact absurd (hm.symm.trans hsend) (by decide)
    simp only [State.envApply, State.envPhaseEnd, hauto]
    refine .inr ⟨.stopped, ⟨hr, rfl, hreq, herr, ?_⟩, rfl⟩
    simp [State.envStopCondition, hlog]

/-- After the stop condition the bus may be released, and nothing else changes
(44_adapter_contract.md R191). -/
theorem reached_envApply_of_stopped {e : EnvStep} (h : s.Inv) (ha : p.At .stopped s)
    (he : s.envEnabled e = true) : p.Reached 1 (s.envApply e) := by
  obtain ⟨hr, hwp, hreq, hrest⟩ := ha
  have hstop := stopped_of_idle (phase_of_running h hr) hwp hreq
  have ⟨_, hb, _⟩ := hr
  obtain rfl := env_of_stopped hb hstop he
  exact .inr ⟨.stopped, ⟨hr, hwp, hreq, hrest⟩, rfl⟩

/-- An event takes a write-then-read in progress to a stage that takes as many `SERVICE` steps, or
the peer rejects it. -/
theorem reached_envApply {g : WriteReadStage} {e : EnvStep} (h : s.Inv)
    (hp : s.status = .inProgress) (ha : p.At g s) (he : s.envEnabled e = true) :
    p.Reached g.services (s.envApply e) := by
  cases g with
  | starting => exact reached_envApply_of_starting h ha he
  | sending => exact reached_envApply_of_sending h ha he
  | sent =>
    obtain ⟨hr, htc, hna, -⟩ := ha
    have hdone := phaseDone_of_tc (phase_of_running h hr) htc hna
    obtain ⟨-, hb, -⟩ := hr
    exact absurd ((no_env_of_phaseDone e hb hdone).symm.trans he) (by decide)
  | restarting => exact reached_envApply_of_restarting h ha he
  | receiving => exact reached_envApply_of_receiving h ha he
  | stopped => exact reached_envApply_of_stopped h ha he
  | finished =>
    obtain ⟨hf, -⟩ := ha
    exact absurd (hp.symm.trans hf) (by decide)

/-! ### The background -/

/-- The end of the write phase is serviced: the repeated start is requested
(42_service_tw.md R148). -/
theorem at_restarting_serviceTw (h : s.Inv) (ha : p.At .sent s) :
    p.At .restarting (serviceTw s) := by
  obtain ⟨hr, htc, hna, hlog⟩ := ha
  obtain ⟨hwp, -, -, -, -, hie, -, hsd, herr, hrx, -⟩ :=
    phaseDone_of_tc (phase_of_running h hr) htc hna
  obtain ⟨hp, hb, hd, hl, hpe, hst⟩ := hr
  obtain ⟨-, ⟨hwi, -⟩, -⟩ := inv_twRunning h hb hp
  have hN : nackPending s = false := by simp [nackPending, hna]
  have hA : armsRead s = true := by simp [armsRead, tcPending, hN, hie, htc, herr]
  have hR : requestsStop s = false := by simp [requestsStop, hN]
  rw [serviceTw_flags (drainCount_of_empty hrx) (fillCount_of_written hwi)
    (by simp [stopPending, hsd])]
  simp only [hA, hR]
  exact ⟨⟨hp, hb, hd, hl, hpe, hst⟩, Bool.or_true _, hwp, hlog⟩

/-- The stop condition is serviced: the received bytes are drained in order and the transaction is
`Finished` (42_service_tw.md R149, R152). -/
theorem at_finished_serviceTw (h : s.Inv) (ha : p.At .stopped s) :
    p.At .finished (serviceTw s) := by
  obtain ⟨hr, hwp, hreq, herr, hlog⟩ := ha
  obtain ⟨-, -, hna, -, -, hsd, -, hdone⟩ := stopped_of_idle (phase_of_running h hr) hwp hreq
  obtain ⟨hlen, -⟩ := hdone herr
  obtain ⟨hp, hb, -, hl, -, hst⟩ := hr
  obtain ⟨⟨-, hist⟩, ⟨-, hri⟩, -⟩ := inv_twRunning h hb hp
  have hN : nackPending s = false := by simp [nackPending, hna]
  have hS : stopPending s = true := by simp [stopPending, hist, hsd]
  have hR : requestsStop s = false := by simp [requestsStop, hN]
  have hall : s.drainCount = s.hw.rxFifo.length := by simp [State.drainCount, hri, hlen]
  have hback : s.hw.rxFifo.length = p.backLength.toNat := by rw [hlen, hl]
  have hlt := p.backLength.isLt
  rw [serviceTw_eq]
  simp only [hN, hS, hR, herr, hall, hri, List.take_length]
  refine ⟨rfl, hst, s.hw.rxFifo, hback, hlog, fun k hk => ?_⟩
  have hread := stored_read_inside s.hw.rxFifo s.rbuf 0 k (by omega) (by simp; omega)
  rwa [show (0 : BitVec 8).toNat + k = k from Nat.zero_add k] at hread

/-- A `SERVICE` step takes a write-then-read to a stage that takes one more: there is an event to
service after the write phase and after the stop condition alone. -/
theorem reached_service {g : WriteReadStage} {t : State} (h : s.Inv) (ha : p.At g s)
    (he : s.serviceEnabled = true) (hn : service s = .next t) :
    p.Reached (g.services + 1) t := by
  have no_event (hr : p.Running s) (hw : s.hw.startReq = true ∨ s.hw.wp = .data) :
      p.Reached (g.services + 1) t := by
    have hph := phase_of_running h hr
    obtain ⟨-, hb, -⟩ := hr
    exact absurd ((no_service_before_event hb hph hw).symm.trans he) (by decide)
  have runs_tw (hr : p.Running s) : serviceTw s = t := by
    obtain ⟨-, hb, -⟩ := hr
    exact ((service_tw_next hb).1 hn).2
  cases g with
  | starting | restarting =>
    obtain ⟨hr, hreq, -⟩ := ha
    exact no_event hr (.inl hreq)
  | sending | receiving =>
    obtain ⟨hr, hwp, -⟩ := ha
    exact no_event hr (.inr hwp)
  | sent =>
    have ⟨hr, _⟩ := ha
    exact .inr ⟨.restarting, runs_tw hr ▸ at_restarting_serviceTw h ha, rfl⟩
  | stopped =>
    have ⟨hr, _⟩ := ha
    exact .inr ⟨.finished, runs_tw hr ▸ at_finished_serviceTw h ha, rfl⟩
  | finished =>
    obtain ⟨hf, -⟩ := ha
    exact absurd ((inProgress_of_serviceEnabled h he).symm.trans hf) (by decide)

/-! ### The whole run -/

/-- No stage speaks of what the host can write during a transaction. -/
theorem at_hostTurn {g : WriteReadStage} {s' : State} {t : Turn} (h : s.Inv)
    (hp : s.status = .inProgress) (ha : p.At g s) (ht : t.advances = false)
    (hn : runTurn t s = .next s') : p.At g s' := by
  obtain ⟨_, _, _, _, rfl⟩ := hostTurn_inProgress h hp ht hn
  cases g <;> exact ha

/-- Every existing step of a transaction in progress carries a write-then-read on, and only
`SERVICE` counts. -/
theorem reached_runTurn {t : Turn} {k : Nat} {s' : State} (h : s.Inv) (hp : s.status = .inProgress)
    (ho : s.offers t = true) (hn : runTurn t s = .next s') (ha : p.Reached k s) :
    p.Reached (k + [t].count .service) s' := by
  rcases ha with hf | ⟨g, ha, rfl⟩
  · exact .inl (failing_runTurn h hp hf hn)
  cases t with
  | hostWrite _ _ | hostRead _ => exact .inr ⟨g, at_hostTurn h hp ha rfl hn, rfl⟩
  | service =>
    rcases runService_cases hn with ⟨he, hx⟩ | ⟨hno, -⟩
    · exact reached_service h ha he hx
    · exact absurd (hno.symm.trans ho) (by decide)
  | env e =>
    have he : s.envEnabled e = true := ho
    obtain rfl := runEnv_next.1 hn
    rw [if_pos he]
    exact reached_envApply h hp ha he

/-- The same along a whole run. -/
theorem reached_run {ts : List Turn} {k : Nat} {u : State} (h : s.Inv)
    (hr : TransactionRun ts s u) (ha : p.Reached k s) :
    u.Inv ∧ p.Reached (k + ts.count .service) u :=
  run_induction_count (P := fun k s => s.Inv ∧ p.Reached k s)
    (fun _ _ _ _ hp ho hn ⟨h, ha⟩ => ⟨inv_runTurn h hn, reached_runTurn h hp ho hn ha⟩) hr ⟨h, ha⟩

/-- A write-then-read that is `Finished` is at the last stage, after two `SERVICE` steps. -/
theorem at_finished_of_reached {k : Nat} (h : s.Inv) (hs : s.status = .finished)
    (ha : p.Reached k s) : k = 2 ∧ p.At .finished s := by
  rcases ha with hf | ⟨g, ha, rfl⟩
  · exact absurd hf (not_failing_of_finished h hs)
  cases g with
  | finished => exact ⟨rfl, ha⟩
  | starting | sending | sent | restarting | receiving | stopped =>
    obtain ⟨⟨hp, -⟩, -⟩ := ha
    exact absurd (hp.symm.trans hs) (by decide)

end

/-! ### The start and the settlement -/

/-- The plan of the write-then-read that a start command leaves. -/
def planOf (s t : State) : WriteReadPlan where
  before := s.wireLog
  peer := t.peerAddress
  out := t.hw.txFifo
  backLength := t.readLength
  stops := s.stopCount

/-- An accepted `START.WR` is at the first stage of its plan: the write-buffer bytes are in the
transmit FIFO in order (40_start.md R112, R115). -/
theorem at_starting_of_startWR {s t : State} {a : BitVec 10} {n m : BitVec 8} (h : s.Inv)
    (hn : exec (.startWR a n m) s = .next t) (hrsp : t.rsp = 1#32) :
    (planOf s t).At .starting t ∧ t.readLength = m ∧
      t.hw.txFifo = pushed s.params.base s.wbuf 0 s.draws n.toNat := by
  by_cases had : s.admitsTwStart .writeThenRead n m
  · rw [exec_startWR, twStart_accepted a had] at hn
    cases hn
    obtain ⟨hb, -, hidle, -⟩ := had
    obtain ⟨-, -, -, hwp⟩ := inv_quiet h (by simp [hidle])
    exact ⟨⟨⟨rfl, hb, rfl, rfl, rfl, rfl⟩, rfl, hwp, rfl, rfl, rfl⟩, rfl, rfl⟩
  · rw [exec_startWR, twStart_rejected a had] at hn
    cases hn
    simp at hrsp

/-- Settles O52: the stages carry the log, the bytes and the count of `SERVICE` steps along every
interleaving, and a rejected transaction never finishes. -/
theorem writeThenReadDelivers : Obligations.WriteThenReadDelivers := by
  intro s t u a n m ts h hn hrsp hrun hs
  obtain ⟨hstart, hm, hout⟩ := at_starting_of_startWR h hn hrsp
  obtain ⟨hu, hreached⟩ := reached_run (k := 0) (inv_exec h hn) hrun (.inr ⟨.starting, hstart, rfl⟩)
  obtain ⟨hcount, -, hstops, back, hlen, hlog, hread⟩ := at_finished_of_reached hu hs hreached
  refine ⟨by omega, hstops, t.hw.txFifo, back, ?_, hm ▸ hlen, hlog, fun k b hk hb => ?_, hm ▸ hread⟩
  · rw [hout, pushed_length]
  · rw [hout]
    exact firstChunk_loaded hk hb

end Sys2Proof.Proofs
end

section
/-! PROOFS. The steps of the adapter contract in closed form (44_adapter_contract.md R184 to R193),
and what none of them touches (R182). -/

namespace Sys2Proof.Proofs

open Sys2Proof.Machine Sys2Proof.Laws

/-! ### The steps in closed form -/

/-- A turn of the environment takes its step where the precondition holds. -/
theorem runEnv_enabled {e : EnvStep} {s t : State} (he : s.envEnabled e = true)
    (ht : s.envApply e = t) : runEnv e s = .next t :=
  runEnv_next.2 (ht ▸ (if_pos he).symm)

/-- `hw.tc` is flagged with a rejected address where the draw says so and the phase has no automatic
stop (44_adapter_contract.md R184). -/
theorem tc_or_drawn (tc auto t : Bool) :
    (tc || (!auto && t)) = if auto = false ∧ t = true then true else tc := by
  cases auto <;> cases t <;> simp

/-- `ENV START`, in closed form (44_adapter_contract.md R184). -/
theorem envStart_eq (ack t : Bool) (s : State) :
    s.envStart ack t =
      { s with
        wireLog := s.wireLog ++
          [if s.hw.wp = .hold then .repeatedStart s.hw.addr s.hw.rxMode ack
            else .start s.hw.addr s.hw.rxMode ack]
        hw := { s.hw with
          startReq := false, busy := true
          wp := if ack = true then .data else .hold
          nack := if ack = true then s.hw.nack else true
          tc := if ack = false ∧ s.hw.autoStop = false ∧ t = true then true else s.hw.tc } } := by
  cases ack with
  | true => rfl
  | false => simp [State.envStart, State.log, tc_or_drawn]

/-- `ENV TX` of the byte at the head of the transmit FIFO, in closed form
(44_adapter_contract.md R186). -/
theorem envTx_eq {s : State} {v : Byte} {rest : List Byte} (ack : Bool)
    (htx : s.hw.txFifo = v :: rest) :
    s.envTx ack =
      { s with
        wireLog := s.wireLog ++ [.transmitted v ack]
        hw := { s.hw with
          txFifo := rest
          count := if ack = true then s.hw.count - 1#8 else s.hw.count
          nack := if ack = true then s.hw.nack else true
          wp := if ack = true then s.hw.wp else .hold } } := by
  simp only [State.envTx, htx]
  cases ack <;> rfl

/-- `ENV RX`, in closed form (44_adapter_contract.md R187). -/
theorem envRx_eq (b : Byte) (s : State) :
    s.envRx b =
      { s with
        wireLog := s.wireLog ++ [.received b]
        hw := { s.hw with rxFifo := s.hw.rxFifo ++ [b], count := s.hw.count - 1#8 } } := rfl

/-- `ENV END` without automatic stop, in closed form (44_adapter_contract.md R188). -/
theorem envPhaseEnd_event {s : State} (linger : Bool) (ha : s.hw.autoStop = false) :
    s.envPhaseEnd linger = { s with hw := { s.hw with tc := true, wp := .hold } } :=
  if_pos ha

/-- `ENV END` with automatic stop, in closed form (44_adapter_contract.md R189). -/
theorem envPhaseEnd_stop {s : State} (linger : Bool) (ha : s.hw.autoStop = true) :
    s.envPhaseEnd linger =
      { s with
        wireLog := s.wireLog ++ [.stop]
        hw := { s.hw with stopDet := true, wp := .idle, busy := linger } } :=
  if_neg (by simp [ha])

/-- `ENV XCHG` of the byte at the head of the transmit FIFO, in closed form
(44_adapter_contract.md R193). -/
theorem envXchg_eq {s : State} {v : Byte} {rest : List Byte} (b : Byte)
    (htx : s.hw.txFifo = v :: rest) :
    s.envXchg b =
      { s with
        wireLog := s.wireLog ++ [.exchanged v b]
        hw := { s.hw with txFifo := rest, rxFifo := s.hw.rxFifo ++ [b] } } := by
  simp only [State.envXchg, htx]
  rfl

/-! ### What the environment writes -/

/-- The moves of the adapter registers that the environment may make in one step
(44_adapter_contract.md R182): what the engine configured stays, requests are only cleared, flags
only set, and at most one byte moves. -/
def EnvMoves (h h' : Adapter) : Prop :=
  (h'.addr = h.addr ∧ h'.rxMode = h.rxMode ∧ h'.autoStop = h.autoStop) ∧
  ((h'.startReq = true → h.startReq = true) ∧ (h'.stopReq = true → h.stopReq = true)) ∧
  ((h.nack = true → h'.nack = true) ∧ (h.tc = true → h'.tc = true) ∧
    (h.stopDet = true → h'.stopDet = true)) ∧
  (h'.count = h.count ∨ h'.count.toNat + 1 = h.count.toNat) ∧
  (h'.txFifo = h.txFifo ∨ h'.txFifo = h.txFifo.drop 1) ∧
  (h'.rxFifo = h.rxFifo ∨ ∃ b, h'.rxFifo = h.rxFifo ++ [b])

/-- A byte counter that has not run out falls by one without wrapping. -/
theorem count_sub_one {c : BitVec 8} (h : 0 < c.toNat) : (c - 1#8).toNat + 1 = c.toNat := by
  bv_omega

/-- Everything an enabled step of the environment can do: it writes the adapter registers, by the
moves of R182 alone, and logs at most one event. -/
theorem envApply_cases {s : State} (e : EnvStep) (he : s.envEnabled e = true) :
    ∃ hw, (s.envApply e = { s with hw := hw } ∨
        ∃ x, s.envApply e = { s with hw := hw, wireLog := s.wireLog ++ [x] }) ∧
      EnvMoves s.hw hw := by
  cases e with
  | start ack t =>
    exact ⟨_, .inr ⟨_, envStart_eq ack t s⟩, ⟨rfl, rfl, rfl⟩, ⟨fun hf => by simp at hf, id⟩,
      ⟨fun hf => by simp [hf], fun hf => by simp [hf], id⟩, .inl rfl, .inl rfl, .inl rfl⟩
  | tx ack =>
    obtain ⟨-, -, -, hcount, hne⟩ := of_decide_eq_true he
    obtain ⟨v, rest, htx⟩ := List.exists_cons_of_length_pos hne
    refine ⟨_, .inr ⟨_, envTx_eq ack htx⟩, ⟨rfl, rfl, rfl⟩, ⟨id, id⟩,
      ⟨fun hf => by simp [hf], id, id⟩, ?_, .inr (congrArg (List.drop 1) htx).symm, .inl rfl⟩
    cases ack with
    | true => exact .inr (count_sub_one hcount)
    | false => exact .inl rfl
  | rx b =>
    obtain ⟨-, -, -, hcount, -⟩ := of_decide_eq_true he
    exact ⟨_, .inr ⟨_, envRx_eq b s⟩, ⟨rfl, rfl, rfl⟩, ⟨id, id⟩, ⟨id, id, id⟩,
      .inr (count_sub_one hcount), .inl rfl, .inr ⟨b, rfl⟩⟩
  | phaseEnd linger =>
    cases ha : s.hw.autoStop with
    | false =>
      exact ⟨_, .inl (envPhaseEnd_event linger ha), ⟨rfl, rfl, rfl⟩, ⟨id, id⟩,
        ⟨id, fun _ => rfl, id⟩, .inl rfl, .inl rfl, .inl rfl⟩
    | true =>
      exact ⟨_, .inr ⟨_, envPhaseEnd_stop linger ha⟩, ⟨rfl, rfl, rfl⟩, ⟨id, id⟩,
        ⟨id, id, fun _ => rfl⟩, .inl rfl, .inl rfl, .inl rfl⟩
  | stop linger =>
    exact ⟨_, .inr ⟨_, envStop_eq linger s⟩, ⟨rfl, rfl, rfl⟩, ⟨id, fun hf => by simp at hf⟩,
      ⟨id, id, fun _ => rfl⟩, .inl rfl, .inl rfl, .inl rfl⟩
  | busyRel =>
    exact ⟨_, .inl rfl, ⟨rfl, rfl, rfl⟩, ⟨id, id⟩, ⟨id, id, id⟩, .inl rfl, .inl rfl, .inl rfl⟩
  | xchg b =>
    obtain ⟨-, hne, -⟩ := of_decide_eq_true he
    obtain ⟨v, rest, htx⟩ := List.exists_cons_of_length_pos hne
    exact ⟨_, .inr ⟨_, envXchg_eq b htx⟩, ⟨rfl, rfl, rfl⟩, ⟨id, id⟩, ⟨id, id, id⟩, .inl rfl,
      .inr (congrArg (List.drop 1) htx).symm, .inr ⟨b, rfl⟩⟩

/-! ### The settlements -/

/-- Settles O39: an enabled step makes only the moves of R182, and a turn without its step leaves
the state as it is. -/
theorem environmentNeverTouchesEngine : Obligations.EnvironmentNeverTouchesEngine := by
  intro s t e hn
  obtain rfl := runEnv_next.1 hn
  split
  next he =>
    obtain ⟨hw, hwrites, hmoves⟩ := envApply_cases e he
    obtain ⟨⟨haddr, hmode, hauto⟩, ⟨hstart, hstop⟩, ⟨hnack, htc, hdet⟩, hcount, htx, hrx⟩ := hmoves
    rcases hwrites with heq | ⟨x, heq⟩
    · rw [heq]
      exact ⟨rfl, haddr, hmode, hauto, hstart, hstop, hnack, htc, hdet, hcount, htx, hrx, .inl rfl⟩
    · rw [heq]
      exact ⟨rfl, haddr, hmode, hauto, hstart, hstop, hnack, htc, hdet, hcount, htx, hrx,
        .inr ⟨x, rfl⟩⟩
  next =>
    exact ⟨rfl, rfl, rfl, rfl, id, id, id, id, id, .inl rfl, .inl rfl, .inl rfl, .inl rfl⟩

/-- Settles O33: the enabled step is its closed form. -/
theorem envStartSendsAddress : Obligations.EnvStartSendsAddress := by
  intro s ack t hb hreq hwp
  exact runEnv_enabled (decide_eq_true ⟨hb, hreq, hwp⟩) (envStart_eq ack t s)

/-- Settles O34: the head of the transmit FIFO is the byte sent, and the wire was at its data. -/
theorem envTxMovesOneByte : Obligations.EnvTxMovesOneByte := by
  intro s ack v rest hb hwp hm hcount htx
  rw [← hwp]
  exact runEnv_enabled (decide_eq_true ⟨hb, hwp, hm, hcount, by simp [htx]⟩) (envTx_eq ack htx)

/-- Settles O35: the enabled step is its closed form. -/
theorem envRxReceivesOneByte : Obligations.EnvRxReceivesOneByte := by
  intro s b hb hwp hm hcount hroom
  exact runEnv_enabled (decide_eq_true ⟨hb, hwp, hm, hcount, hroom⟩) (envRx_eq b s)

/-- Settles O36: `hw.autoStop` decides which of the two forms of `ENV END` the step has. -/
theorem envEndRaisesEventOrStop : Obligations.EnvEndRaisesEventOrStop := by
  intro s linger hb hwp hcount
  have he : s.envEnabled (.phaseEnd linger) = true := decide_eq_true ⟨hb, hwp, hcount⟩
  exact ⟨fun ha => runEnv_enabled he (envPhaseEnd_event linger ha),
    fun ha => runEnv_enabled he (envPhaseEnd_stop linger ha)⟩

/-- Settles O37: each of the two enabled steps is its closed form. -/
theorem envStopReleasesBus : Obligations.EnvStopReleasesBus := by
  constructor
  · intro s linger hb hsr hwp
    exact runEnv_enabled (decide_eq_true ⟨hb, hsr, hwp⟩) (envStop_eq linger s)
  · intro s hb hwp hbusy hreq
    exact runEnv_enabled (decide_eq_true ⟨hb, hwp, hbusy, hreq⟩) rfl

/-- Settles O38: the head of the transmit FIFO is exchanged for the byte drawn. -/
theorem envXchgExchangesOneByte : Obligations.EnvXchgExchangesOneByte := by
  intro s b v rest hb htx hroom
  exact runEnv_enabled (decide_eq_true ⟨hb, by simp [htx], hroom⟩) (envXchg_eq b htx)

end Sys2Proof.Proofs
end

section
/-! PROOFS. The pending vector bit by bit, what enables `SERVICE` (60_exceptions.md R216, R217), and
the `FW` instance that never errors (R213), which takes along that no step changes the parameters. -/

namespace Sys2Proof.Proofs

open Sys2Proof.Machine Sys2Proof.Laws

/-! ### The pending vector -/

/-- A vector of four bits, put together from the highest to the lowest, read bit by bit. -/
theorem getLsbD_ofBools (b₃ b₂ b₁ b₀ : Bool) :
    let v := BitVec.ofBool b₃ ++ BitVec.ofBool b₂ ++ BitVec.ofBool b₁ ++ BitVec.ofBool b₀
    v.getLsbD 0 = b₀ ∧ v.getLsbD 1 = b₁ ∧ v.getLsbD 2 = b₂ ∧ v.getLsbD 3 = b₃ := by
  simp only [BitVec.getLsbD_append, BitVec.getLsbD_ofBool]
  simp

/-- The pending vector of a `TW` instance (60_exceptions.md R216). -/
theorem irq_tw {s : State} (hb : s.params.bus = .tw) :
    s.irq = BitVec.ofBool false ++ BitVec.ofBool (s.ieStop && s.hw.stopDet)
      ++ BitVec.ofBool (s.ieTc && s.hw.tc) ++ BitVec.ofBool (s.ieNack && s.hw.nack) := by
  simp only [State.irq, hb]

/-- The pending vector of an `FW` instance (60_exceptions.md R216). -/
theorem irq_fw {s : State} (hb : s.params.bus = .fw) :
    s.irq = BitVec.ofBool (s.ieRx && s.rxLevelReached) ++ BitVec.ofBool false
      ++ BitVec.ofBool false ++ BitVec.ofBool false := by
  simp only [State.irq, hb]
  cases s.ieRx && s.rxLevelReached <;> rfl

/-- When `SERVICE` is enabled (60_exceptions.md R217). -/
theorem serviceEnabled_iff (s : State) :
    s.serviceEnabled = true ↔ s.initDone = true ∧ s.irq ≠ 0#4 := by
  simp [State.serviceEnabled]

/-- Settles O10: the vector of each kind is four bits put together, each read off in its place. -/
theorem pendingVectorBits : Obligations.PendingVectorBits := by
  refine fun s => ⟨fun hb => ?_, fun hb => ?_, serviceEnabled_iff s⟩
  · rw [irq_tw hb]
    exact getLsbD_ofBools _ _ _ _
  · rw [irq_fw hb]
    exact getLsbD_ofBools _ _ _ _

/-! ### The parameters stay -/

theorem twStart_params {s t : State} {d : Direction} {wl rl : BitVec 8} {a : BitVec 10}
    (hn : twStart d wl rl a s = .next t) : t.params = s.params := by
  by_cases had : s.admitsTwStart d wl rl
  · rw [twStart_accepted a had] at hn
    cases hn
    rfl
  · rw [twStart_rejected a had] at hn
    cases hn
    rfl

theorem xfer_params {s t : State} {n : BitVec 8} (hn : execXfer n s = .next t) :
    t.params = s.params := by
  by_cases had : s.admitsXfer n
  · rw [xfer_accepted had] at hn
    cases hn
    rfl
  · rw [xfer_rejected had] at hn
    cases hn
    rfl

/-- No command changes the parameters. -/
theorem exec_params {s t : State} {i : Instr} (hn : exec i s = .next t) :
    t.params = s.params := by
  cases i with
  | init x => rcases exec_init_cases hn with ⟨-, rfl⟩ | ⟨-, rfl⟩ <;> rfl
  | startW a n => exact twStart_params hn
  | startR a m => exact twStart_params hn
  | startWR a n m => exact twStart_params hn
  | xfer n => exact xfer_params hn
  | getStatus =>
    obtain ⟨v, rfl⟩ := exec_getStatus_cases hn
    rfl
  | ackIdle => rcases exec_ackIdle_cases hn with rfl | ⟨-, -, rfl⟩ <;> rfl
  | wrBuf k b => rcases exec_wrBuf_cases hn with rfl | ⟨-, -, rfl⟩ <;> rfl
  | rdBuf k =>
    obtain ⟨v, d, rfl⟩ := exec_rdBuf_cases hn
    rfl

/-- No `SERVICE` step changes the parameters. -/
theorem service_params {s t : State} (hn : service s = .next t) : t.params = s.params := by
  cases hb : s.params.bus with
  | tw =>
    obtain ⟨-, rfl⟩ := (service_tw_next hb).1 hn
    rw [serviceTw_eq]
  | fw =>
    obtain ⟨-, rfl⟩ := (service_fw_next hb).1 hn
    rw [serviceFw_eq]

/-- No step of the environment changes the parameters (44_adapter_contract.md R182). -/
theorem envApply_params {s : State} {e : EnvStep} (he : s.envEnabled e = true) :
    (s.envApply e).params = s.params := by
  obtain ⟨hw, heq | ⟨x, heq⟩, -⟩ := envApply_cases e he <;> rw [heq]

/-- No turn of any agent changes the parameters. -/
theorem runTurn_params {s s' : State} {t : Turn} (hn : runTurn t s = .next s') :
    s'.params = s.params := by
  cases t with
  | hostWrite a w =>
    obtain ⟨-, ⟨i, -, hx⟩ | ⟨-, rfl⟩⟩ := portWrite_next hn
    · exact exec_params hx
    · rfl
  | hostRead a =>
    obtain ⟨-, rfl⟩ := portRead_next hn
    rfl
  | service =>
    rcases runService_cases hn with ⟨-, hx⟩ | ⟨-, rfl⟩
    · exact service_params hx
    · rfl
  | env e =>
    obtain rfl := runEnv_next.1 hn
    split
    next he => exact envApply_params he
    next => rfl

/-- No step changes the parameters (00_scope.md R8). -/
theorem step_params {s s' : State} (hn : step s = .next s') : s'.params = s.params := by
  rcases step_cases hn with ⟨-, rfl⟩ | ⟨t, rest, -, ht⟩
  · rfl
  · exact runTurn_params (s := { s with agenda := rest }) ht

/-- Every reachable state has the parameters of its reset. -/
theorem params_reachable {p : Params} {s : State} (hr : Reachable p s) : s.params = p :=
  reachable_induction (P := fun s => s.params = p) rfl (fun _ _ h => h)
    (fun _ _ h hn => (step_params hn).trans h) hr

/-! ### No error on `FW` -/

/-- Settles O49: a reachable state of an `FW` instance is an `FW` state with the invariant, whose
`FW` part excludes the latch and the status. -/
theorem fourWireNeverErrors : Obligations.FourWireNeverErrors := by
  intro p s hp hb hr
  have hfw : s.params.bus = .fw := (congrArg Params.bus (params_reachable hr)).trans hb
  obtain ⟨⟨-, ⟨hlatch, -⟩, -⟩, -, hstatus, -⟩ := inv_fwInv (inv_reachable hp hr) hfw
  exact ⟨hlatch, hstatus⟩

end Sys2Proof.Proofs
end

section
/-! PROOFS. The encoding as a whole: a command's word and its fields, a word as its fields, the
opcode map (30_encoding.md R85 to R95). -/

namespace Sys2Proof.Proofs

open Sys2Proof.Machine Sys2Proof.Laws

/-! ### The fields of a command's word -/

/-- The word of a command holds the fields that the command is read from: each lies beside the
others (30_encoding.md R85 to R89). -/
theorem fieldsHold_encode (i : Instr) : fieldsHold (encode i) i := by
  cases i <;>
    simp (disch := decide) only [fieldsHold, encode, opField, dirField, wlenField, rlenField,
      addrField, timingField, indexField, dataField, BitVec.extractLsb'_append_eq_of_le,
      BitVec.extractLsb'_append_eq_of_add_le] <;>
    simp

/-- Settles O1: a command's word holds the command's fields, and those alone decide what it decodes
to. -/
theorem decodeEncodeRoundTrip : Obligations.DecodeEncodeRoundTrip :=
  fun i => decode_eq_instr_iff.2 (fieldsHold_encode i)

/-! ### A word as its fields, one after the other -/

/-- A word in format `S` (30_encoding.md R86). -/
theorem word_eq_formatS (w : Word) :
    opField w ++ dirField w ++ wlenField w ++ rlenField w ++ addrField w = w := by
  simp (disch := decide) only [opField, dirField, wlenField, rlenField, addrField,
    BitVec.extractLsb'_append_extractLsb'_eq_extractLsb']
  exact BitVec.extractLsb'_eq_self

/-- A word in format `B` (30_encoding.md R89), the bits that format ignores in between. -/
theorem word_eq_formatB (w : Word) :
    opField w ++ w.extractLsb' 16 12 ++ indexField w ++ dataField w = w := by
  simp (disch := decide) only [opField, indexField, dataField,
    BitVec.extractLsb'_append_extractLsb'_eq_extractLsb']
  exact BitVec.extractLsb'_eq_self

/-- A word in format `I` (30_encoding.md R87), the bits that format ignores in between. -/
theorem word_eq_formatI (w : Word) : opField w ++ w.extractLsb' 16 12 ++ timingField w = w := by
  simp (disch := decide) only [opField, timingField,
    BitVec.extractLsb'_append_extractLsb'_eq_extractLsb']
  exact BitVec.extractLsb'_eq_self

/-- An `XFER` word, the bits that row ignores in between and below (30_encoding.md R91). -/
theorem word_eq_formatX (w : Word) :
    opField w ++ dirField w ++ wlenField w ++ w.extractLsb' 0 18 = w := by
  simp (disch := decide) only [opField, dirField, wlenField,
    BitVec.extractLsb'_append_extractLsb'_eq_extractLsb']
  exact BitVec.extractLsb'_eq_self

/-- A word masked in format `S`, field by field. -/
theorem and_formatS (w : Word) (o : BitVec 4) (d : BitVec 2) (n m : BitVec 8) (a : BitVec 10) :
    w &&& (o ++ d ++ n ++ m ++ a) =
      (opField w &&& o) ++ (dirField w &&& d) ++ (wlenField w &&& n) ++ (rlenField w &&& m)
        ++ (addrField w &&& a) := by
  rw [← BitVec.and_append, ← BitVec.and_append, ← BitVec.and_append, ← BitVec.and_append,
    word_eq_formatS]

/-- A word masked in format `B`, field by field. -/
theorem and_formatB (w : Word) (o : BitVec 4) (x : BitVec 12) (i d : BitVec 8) :
    w &&& (o ++ x ++ i ++ d) =
      (opField w &&& o) ++ (w.extractLsb' 16 12 &&& x) ++ (indexField w &&& i)
        ++ (dataField w &&& d) := by
  rw [← BitVec.and_append, ← BitVec.and_append, ← BitVec.and_append, word_eq_formatB]

/-- A word masked in format `I`, field by field. -/
theorem and_formatI (w : Word) (o : BitVec 4) (x : BitVec 12) (t : BitVec 16) :
    w &&& (o ++ x ++ t) =
      (opField w &&& o) ++ (w.extractLsb' 16 12 &&& x) ++ (timingField w &&& t) := by
  rw [← BitVec.and_append, ← BitVec.and_append, word_eq_formatI]

/-- A word masked as an `XFER` word, field by field. -/
theorem and_formatX (w : Word) (o : BitVec 4) (d : BitVec 2) (n : BitVec 8) (x : BitVec 18) :
    w &&& (o ++ d ++ n ++ x) =
      (opField w &&& o) ++ (dirField w &&& d) ++ (wlenField w &&& n)
        ++ (w.extractLsb' 0 18 &&& x) := by
  rw [← BitVec.and_append, ← BitVec.and_append, ← BitVec.and_append, word_eq_formatX]

/-- Settles O2: the significant bits of a command are all bits of some fields of its format, and the
word's fields are the command's. -/
theorem encodeDecodeKeepsSignificantBits : Obligations.EncodeDecodeKeepsSignificantBits := by
  intro w i hw
  have hf := decode_eq_instr_iff.1 hw
  cases i with
  | init t =>
    obtain ⟨hop, rfl⟩ := hf
    have h := and_formatI w (.allOnes 4) 0#12 (.allOnes 16)
    simp only [BitVec.and_allOnes, BitVec.and_zero, hop] at h
    exact h.symm
  | startW a n =>
    obtain ⟨hop, hdir, rfl, rfl⟩ := hf
    have h := and_formatS w (.allOnes 4) (.allOnes 2) (.allOnes 8) 0#8 (.allOnes 10)
    simp only [BitVec.and_allOnes, BitVec.and_zero, hop, hdir] at h
    exact h.symm
  | startR a m =>
    obtain ⟨hop, hdir, rfl, rfl⟩ := hf
    have h := and_formatS w (.allOnes 4) (.allOnes 2) 0#8 (.allOnes 8) (.allOnes 10)
    simp only [BitVec.and_allOnes, BitVec.and_zero, hop, hdir] at h
    exact h.symm
  | startWR a n m =>
    obtain ⟨hop, hdir, rfl, rfl, rfl⟩ := hf
    have h := and_formatS w (.allOnes 4) (.allOnes 2) (.allOnes 8) (.allOnes 8) (.allOnes 10)
    simp only [BitVec.and_allOnes, hop, hdir] at h
    exact h.symm
  | xfer n =>
    obtain ⟨hop, rfl⟩ := hf
    have h := and_formatX w (.allOnes 4) 0#2 (.allOnes 8) 0#18
    simp only [BitVec.and_allOnes, BitVec.and_zero, hop] at h
    exact h.symm
  | getStatus =>
    have hop : opField w = 4#4 := hf
    have h := and_formatI w (.allOnes 4) 0#12 0#16
    simp only [BitVec.and_allOnes, BitVec.and_zero, hop] at h
    exact h.symm
  | ackIdle =>
    have hop : opField w = 5#4 := hf
    have h := and_formatI w (.allOnes 4) 0#12 0#16
    simp only [BitVec.and_allOnes, BitVec.and_zero, hop] at h
    exact h.symm
  | wrBuf k b =>
    obtain ⟨hop, rfl, rfl⟩ := hf
    have h := and_formatB w (.allOnes 4) 0#12 (.allOnes 8) (.allOnes 8)
    simp only [BitVec.and_allOnes, BitVec.and_zero, hop] at h
    exact h.symm
  | rdBuf k =>
    obtain ⟨hop, rfl⟩ := hf
    have h := and_formatB w (.allOnes 4) 0#12 (.allOnes 8) 0#8
    simp only [BitVec.and_allOnes, BitVec.and_zero, hop] at h
    exact h.symm

/-! ### The opcode map -/

/-- A word masked by `op` alone. -/
theorem and_opMask (w : Word) : w &&& 0xF0000000#32 = opField w ++ 0#12 ++ 0#16 := by
  have h := and_formatI w (.allOnes 4) 0#12 0#16
  simp only [BitVec.and_allOnes, BitVec.and_zero] at h
  exact h

/-- A word masked by `op` and the direction. -/
theorem and_startMask (w : Word) :
    w &&& 0xFC000000#32 = opField w ++ dirField w ++ 0#8 ++ 0#8 ++ 0#10 := by
  have h := and_formatS w (.allOnes 4) (.allOnes 2) 0#8 0#8 0#10
  simp only [BitVec.and_allOnes, BitVec.and_zero] at h
  exact h

/-- A row whose mask is `op` alone is selected by the words with its `op`. -/
theorem selects_op_iff {w p : Word} (hp : p &&& 0xF0000000#32 = p) :
    w &&& 0xF0000000#32 = p ↔ opField w = opField p := by
  constructor
  · intro h
    exact field_eq_of_agree (h.trans hp.symm)
  · intro hop
    rw [← hp, and_opMask w, and_opMask p, hop]

/-- A row whose mask is `op` and the direction is selected by the words with its own of both. -/
theorem selects_start_iff {w p : Word} (hp : p &&& 0xFC000000#32 = p) :
    w &&& 0xFC000000#32 = p ↔ opField w = opField p ∧ dirField w = dirField p := by
  constructor
  · intro h
    exact ⟨field_eq_of_agree (h.trans hp.symm), field_eq_of_agree (h.trans hp.symm)⟩
  · rintro ⟨hop, hdir⟩
    rw [← hp, and_startMask w, and_startMask p, hop, hdir]

/-- A word with the fields of a command selects exactly the row of its mnemonic: the row is decided
by `op` and, in format `S` with `op = 0x2`, by the direction. -/
theorem selects_iff_of_fieldsHold {w : Word} {i : Instr} (h : fieldsHold w i) :
    ∀ r ∈ opcodeTable, (w &&& r.mask = r.pattern ↔ r.mnemonic = i.mnemonic) := by
  simp (disch := decide) only [opcodeTable, List.forall_mem_cons, selects_op_iff,
    selects_start_iff]
  cases i with
  | startW _ _ | startR _ _ | startWR _ _ _ =>
    obtain ⟨hop, hdir, -⟩ := h
    simp only [hop, hdir]
    simp [opField, dirField, Instr.mnemonic]
  | init _ | xfer _ | wrBuf _ _ | rdBuf _ =>
    obtain ⟨hop, -⟩ := h
    simp only [hop]
    simp [opField, Instr.mnemonic]
  | getStatus | ackIdle =>
    change opField w = _ at h
    simp only [h]
    simp [opField, Instr.mnemonic]

/-- A word that decodes to no command selects no row. -/
theorem not_selects_of_no_fields {w : Word} (h : ∀ i, ¬ fieldsHold w i) :
    ∀ r ∈ opcodeTable, w &&& r.mask ≠ r.pattern := by
  simp (disch := decide) only [opcodeTable, List.forall_mem_cons, ne_eq, selects_op_iff,
    selects_start_iff]
  exact ⟨fun hop => h (.init _) ⟨hop, rfl⟩,
    fun ⟨hop, hdir⟩ => h (.startW _ _) ⟨hop, hdir, rfl, rfl⟩,
    fun ⟨hop, hdir⟩ => h (.startR _ _) ⟨hop, hdir, rfl, rfl⟩,
    fun ⟨hop, hdir⟩ => h (.startWR _ _ _) ⟨hop, hdir, rfl, rfl, rfl⟩,
    fun hop => h (.xfer _) ⟨hop, rfl⟩, fun hop => h .getStatus hop, fun hop => h .ackIdle hop,
    fun hop => h (.wrBuf _ _) ⟨hop, rfl, rfl⟩, fun hop => h (.rdBuf _) ⟨hop, rfl⟩, nofun⟩

/-- Settles O4: a command's word has its fields, and a reserved word those of no command. -/
theorem decoderFollowsOpcodeMap : Obligations.DecoderFollowsOpcodeMap :=
  ⟨fun _ _ hw => selects_iff_of_fieldsHold (decode_eq_instr_iff.1 hw),
    fun _ _ hw => not_selects_of_no_fields fun i hf => by
      simp [decode_eq_instr_iff.2 hf] at hw⟩

/-- Settles O5: each word is evaluated. -/
theorem exampleWordsDecode : Obligations.ExampleWordsDecode := by
  unfold Obligations.ExampleWordsDecode
  decide

end Sys2Proof.Proofs
end

section
/-! PROOFS. How the machine takes a turn of each agent (20_memory.md R70, R72): the port, the
scheduling, several instances, and what no step of any agent does. -/

namespace Sys2Proof.Proofs

open Sys2Proof.Machine Sys2Proof.Laws

/-! ### The port and the turns -/

/-- Settles O6: the turn is a write to `CMD`, which runs the decoded command. -/
theorem stepRunsDecodedCommand : Obligations.StepRunsDecodedCommand := by
  intro s w i rest ha hw
  rw [step_turn ha]
  exact portWrite_instr (s := { s with agenda := rest }) hw

/-- A host read of `RSP` (20_memory.md R70). -/
theorem portRead_rsp (s : State) :
    portRead (s.params.base + 4) s = .next { s with hostData := s.rsp } := if_pos rfl

/-- `CMD` is write-only (20_memory.md R70). -/
theorem portRead_cmd (s : State) : portRead s.params.base s = .fault .readOfWriteOnly := by
  simp [portRead]

/-- `RSP` is read-only (20_memory.md R70). -/
theorem portWrite_rsp (w : Word) (s : State) :
    portWrite (s.params.base + 4) w s = .fault .writeOfReadOnly := by
  simp [portWrite]

/-- The port has no other address (20_memory.md R70). -/
theorem port_unmapped {a : Nat} {s : State} (w : Word) (h0 : a ≠ s.params.base)
    (h4 : a ≠ s.params.base + 4) :
    portRead a s = .fault (.unmappedAddress a) ∧
      portWrite a w s = .fault (.unmappedAddress a) := by
  simp [portRead, portWrite, h0, h4]

/-- Settles O8. -/
theorem portReadDeliversResponse : Obligations.PortReadDeliversResponse :=
  fun s => ⟨portRead_rsp s, portRead_cmd s, fun w => portWrite_rsp w s,
    fun _ w h0 h4 => port_unmapped w h0 h4⟩

/-- A turn of the environment always answers a next state. -/
theorem runEnv_eq (e : EnvStep) (s : State) :
    runEnv e s = .next (if s.envEnabled e then s.envApply e else s) :=
  runEnv_next.2 rfl

/-- Settles O9: a step is its turn on the state with the turn consumed, and no enabling condition
reads the agenda. -/
theorem stepTakesTurns : Obligations.StepTakesTurns := by
  intro s
  refine ⟨step_idle, fun a w rest ha => step_turn ha, fun a rest ha => step_turn ha,
    fun rest ha => step_turn ha, fun e rest ha => ?_⟩
  rw [step_turn ha]
  exact runEnv_eq e { s with agenda := rest }

/-! ### Environment turns without a step -/

/-- A turn of the environment whose step does not exist leaves the state. -/
theorem runEnv_disabled {e : EnvStep} {s : State} (h : s.envEnabled e ≠ true) :
    runEnv e s = .next s :=
  runEnv_next.2 (if_neg h).symm

/-- Settles O40: each hypothesis denies the event's precondition. -/
theorem disabledEnvironmentTurnsPass : Obligations.DisabledEnvironmentTurnsPass := by
  intro s
  refine ⟨fun h _ _ => runEnv_disabled (mt of_decide_eq_true h),
    fun h _ => runEnv_disabled (mt of_decide_eq_true ?_),
    fun h _ => runEnv_disabled (mt of_decide_eq_true h),
    fun h _ => runEnv_disabled (mt of_decide_eq_true h),
    fun h _ => runEnv_disabled (mt of_decide_eq_true h),
    fun h => runEnv_disabled (mt of_decide_eq_true h),
    fun h _ => runEnv_disabled (mt of_decide_eq_true ?_)⟩
  · simpa only [List.length_pos_iff] using h
  · simpa only [List.length_pos_iff] using h

/-! ### Several instances -/

/-- The step of the instance the order names, in closed form (60_exceptions.md R232). -/
theorem systemStep_next {sys : System} {k : Nat} {rest : List Nat} {s s' : State}
    (ho : sys.order = k :: rest) (hs : sys.instances[k]? = some s) (hn : step s = .next s') :
    systemStep sys = .next { instances := sys.instances.set k s', order := rest } := by
  simp [systemStep, ho, hs, hn]

/-- An instance that keeps its parameters keeps its port: the ports of all instances still do not
overlap. -/
theorem ownPorts_set {sys : System} {k : Nat} {rest : List Nat} {s s' : State}
    (hs : sys.instances[k]? = some s) (hp : s'.params = s.params) (h : sys.ownPorts) :
    System.ownPorts { instances := sys.instances.set k s', order := rest } := by
  obtain ⟨hk, rfl⟩ := List.getElem?_eq_some_iff.1 hs
  have hparams : (sys.instances.set k s').map State.params = sys.instances.map State.params := by
    rw [List.map_set, hp, ← List.map_set, List.set_getElem_self]
  have hports : ((sys.instances.set k s').map State.params).Pairwise fun p q =>
      p.base + 8 ≤ q.base ∨ q.base + 8 ≤ p.base := by
    rw [hparams]
    exact List.pairwise_map.2 h
  exact List.pairwise_map.1 hports

/-- Settles O60: the other instances stand where they stood, and a step keeps the parameters. -/
theorem instancesShareNothing : Obligations.InstancesShareNothing := by
  intro sys k rest s s' ho hs hn
  have hk : k < sys.instances.length := (List.getElem?_eq_some_iff.1 hs).1
  exact ⟨_, systemStep_next ho hs hn, rfl, by simp [hk],
    fun j hj => List.getElem?_set_ne hj.symm, ownPorts_set hs (step_params hn)⟩

end Sys2Proof.Proofs
end

section
/-! PROOFS. The commands: what none of them writes (60_exceptions.md R225), `XFER`
(40_start.md R116), the buffer commands (41_status_ack_buffers.md R134, R136) and `LOAD`
(30_encoding.md R98). -/

namespace Sys2Proof.Proofs

open Sys2Proof.Machine Sys2Proof.Laws

/-! ### What no command writes -/

/-- What is left of the background's state by a command that leads from `s` to `t`
(60_exceptions.md R225). -/
def BackgroundKept (s t : State) : Prop :=
  t.params = s.params ∧ t.rbuf = s.rbuf ∧ t.stopCount = s.stopCount ∧ t.agenda = s.agenda ∧
  t.hostData = s.hostData ∧
  (t.errLatched = s.errLatched ∨ t.errLatched = false) ∧
  (t.stopIssued = s.stopIssued ∨ t.stopIssued = false) ∧
  (t.cs = s.cs ∨ t.cs = true) ∧
  (t.hw.busy = s.hw.busy ∧ t.hw.wp = s.hw.wp ∧ t.hw.stopReq = s.hw.stopReq ∧
    t.hw.tc = s.hw.tc ∧ t.hw.stopDet = s.hw.stopDet) ∧
  (t.hw.nack = s.hw.nack ∨ t.hw.nack = false)

theorem backgroundKept_refl (s : State) : BackgroundKept s s :=
  ⟨rfl, rfl, rfl, rfl, rfl, .inl rfl, .inl rfl, .inl rfl, ⟨rfl, rfl, rfl, rfl, rfl⟩, .inl rfl⟩

/-- A two-wire start writes neither the background's state nor the write buffer nor the
configuration. -/
theorem twStart_kept {s t : State} {d : Direction} {wl rl : BitVec 8} {a : BitVec 10}
    (hn : twStart d wl rl a s = .next t) :
    BackgroundKept s t ∧ t.wbuf = s.wbuf ∧ t.initDone = s.initDone ∧ t.timing = s.timing := by
  by_cases had : s.admitsTwStart d wl rl
  · rw [twStart_accepted a had] at hn
    cases hn
    exact ⟨⟨rfl, rfl, rfl, rfl, rfl, .inr rfl, .inr rfl, .inl rfl, ⟨rfl, rfl, rfl, rfl, rfl⟩,
      .inr rfl⟩, rfl, rfl, rfl⟩
  · rw [twStart_rejected a had] at hn
    cases hn
    exact ⟨backgroundKept_refl s, rfl, rfl, rfl⟩

/-- An `XFER` writes neither the background's state, but for `cs`, nor the write buffer nor the
configuration. -/
theorem xfer_kept {s t : State} {n : BitVec 8} (hn : execXfer n s = .next t) :
    BackgroundKept s t ∧ t.wbuf = s.wbuf ∧ t.initDone = s.initDone ∧ t.timing = s.timing := by
  by_cases had : s.admitsXfer n
  · rw [xfer_accepted had] at hn
    cases hn
    exact ⟨⟨rfl, rfl, rfl, rfl, rfl, .inr rfl, .inl rfl, .inr rfl, ⟨rfl, rfl, rfl, rfl, rfl⟩,
      .inl rfl⟩, rfl, rfl, rfl⟩
  · rw [xfer_rejected had] at hn
    cases hn
    exact ⟨backgroundKept_refl s, rfl, rfl, rfl⟩

/-- Every command leaves the background's state; only `WRBUF` writes the write buffer, only `INIT`
the configuration. -/
theorem exec_kept {s t : State} {i : Instr} (hn : exec i s = .next t) :
    BackgroundKept s t ∧ ((∀ j b, i ≠ .wrBuf j b) → t.wbuf = s.wbuf) ∧
      ((∀ x, i ≠ .init x) → t.initDone = s.initDone ∧ t.timing = s.timing) := by
  have of_start (h : BackgroundKept s t ∧ t.wbuf = s.wbuf ∧ t.initDone = s.initDone ∧
      t.timing = s.timing) :
      BackgroundKept s t ∧ ((∀ j b, i ≠ .wrBuf j b) → t.wbuf = s.wbuf) ∧
        ((∀ x, i ≠ .init x) → t.initDone = s.initDone ∧ t.timing = s.timing) := by
    obtain ⟨hk, hw, hc⟩ := h
    exact ⟨hk, fun _ => hw, fun _ => hc⟩
  cases i with
  | init x =>
    rcases exec_init_cases hn with ⟨-, rfl⟩ | ⟨-, rfl⟩
    · exact ⟨backgroundKept_refl s, fun _ => rfl, fun h => absurd rfl (h x)⟩
    · exact ⟨backgroundKept_refl s, fun _ => rfl, fun h => absurd rfl (h x)⟩
  | startW a n => exact of_start (twStart_kept hn)
  | startR a m => exact of_start (twStart_kept hn)
  | startWR a n m => exact of_start (twStart_kept hn)
  | xfer n => exact of_start (xfer_kept hn)
  | getStatus =>
    obtain ⟨v, rfl⟩ := exec_getStatus_cases hn
    exact ⟨backgroundKept_refl s, fun _ => rfl, fun _ => ⟨rfl, rfl⟩⟩
  | ackIdle =>
    rcases exec_ackIdle_cases hn with rfl | ⟨-, -, rfl⟩
    · exact ⟨backgroundKept_refl s, fun _ => rfl, fun _ => ⟨rfl, rfl⟩⟩
    · exact ⟨backgroundKept_refl s, fun _ => rfl, fun _ => ⟨rfl, rfl⟩⟩
  | wrBuf k b =>
    rcases exec_wrBuf_cases hn with rfl | ⟨-, -, rfl⟩
    · exact ⟨backgroundKept_refl s, fun _ => rfl, fun _ => ⟨rfl, rfl⟩⟩
    · exact ⟨backgroundKept_refl s, fun h => absurd rfl (h k b), fun _ => ⟨rfl, rfl⟩⟩
  | rdBuf k =>
    obtain ⟨v, d, rfl⟩ := exec_rdBuf_cases hn
    exact ⟨backgroundKept_refl s, fun _ => rfl, fun _ => ⟨rfl, rfl⟩⟩

/-- Settles O23. -/
theorem commandsLeaveBackgroundStateAlone : Obligations.CommandsLeaveBackgroundStateAlone := by
  intro s t i hn
  obtain ⟨⟨h1, h2, h3, h4, h5, h6, h7, h8, h9, h10⟩, hw, hc⟩ := exec_kept hn
  exact ⟨h1, h2, h3, h4, h5, h6, h7, h8, h9, h10, hw, hc⟩

/-! ### `XFER` -/

/-- On `FW` the bound of the length is `FW_CAP`, so the checks of `XFER` are the readiness of the
block and that bound (40_start.md R116). -/
theorem admitsXfer_iff {s : State} {n : BitVec 8} :
    s.admitsXfer n ↔ s.readyFw ∧ 1 ≤ n.toNat ∧ n.toNat ≤ s.params.fwCap := by
  have hcap (hb : s.params.bus = .fw) : s.params.cap = s.params.fwCap := by
    simp [Params.cap, hb]
  constructor
  · rintro ⟨hb, hinit, hidle, hbusy, hlen⟩
    exact ⟨⟨hb, hinit, hidle, (busLineBusy_fw hb).1 hbusy⟩, hcap hb ▸ hlen⟩
  · rintro ⟨⟨hb, hinit, hidle, htx⟩, hlen⟩
    exact ⟨hb, hinit, hidle, (busLineBusy_fw hb).2 htx, by
      simpa only [lengthInBounds, hcap hb] using hlen⟩

/-- The bytes an accepted `XFER` leaves to move, as one number: twice the length less the first
chunk (40_start.md R116). -/
theorem xfer_remaining (n : BitVec 8) (k : Nat) (hk : k ≤ n.toNat) :
    n.setWidth 9 + n.setWidth 9 - BitVec.ofNat 9 k = BitVec.ofNat 9 (2 * n.toNat - k) := by
  have hn := n.isLt
  apply BitVec.eq_of_toNat_eq
  have hsum : (n.setWidth 9 + n.setWidth 9).toNat = 2 * n.toNat := by
    rw [BitVec.toNat_add, BitVec.toNat_setWidth]
    omega
  rw [remaining_sub_toNat _ _ (by omega), hsum, BitVec.toNat_ofNat]
  omega

/-- A chunk of the first `k` bytes holds the loaded ones in order, each at its index
(40_start.md R112 A9, R116). -/
theorem pushed_loaded {base d k j : Nat} {m : Memory} {b : Byte} (hk : k ≤ 256) (hj : j < k)
    (hb : m.read j = some b) : (pushed base m 0 d k)[j]? = some b := by
  rw [pushed_getElem? _ _ _ _ _ _ hj (by simpa using hk)]
  simp [Memory.sample, hb]

/-- Settles O17: the checks are those of `XFER`, and `DEPTH` of at least 1 makes the first push a
fill round. -/
theorem xferRunsOrIsRejected : Obligations.XferRunsOrIsRejected := by
  refine ⟨fun w hw => decode_eq_instr_iff.2 ⟨hw, rfl⟩, fun s n => ⟨fun hwf h => ?_, fun h =>
    xfer_rejected (mt admitsXfer_iff.1 h)⟩⟩
  have hrun := xfer_accepted (admitsXfer_iff.2 h)
  obtain ⟨-, hpos, -⟩ := h
  obtain ⟨-, -, hd, -⟩ := hwf
  have hn := n.isLt
  rw [xfer_remaining _ _ (Nat.min_le_left _ _), if_pos (by omega)] at hrun
  exact ⟨_, _, hrun, pushed_length .., fun k b hk hb => pushed_loaded (by omega) hk hb⟩

/-! ### The buffer commands -/

/-- An accepted `WRBUF`, in closed form (41_status_ack_buffers.md R134). -/
theorem exec_wrBuf_accepted {s : State} {i : BitVec 8} (b : Byte) (h : s.initDone = true)
    (hi : i.toNat < s.params.cap) :
    exec (.wrBuf i b) s = .next { s with wbuf := s.wbuf.write i.toNat b, rsp := 1#32 } := by
  simp [exec, execWrBuf, h, hi, respond_eq]

/-- A `WRBUF` outside the buffer is rejected (41_status_ack_buffers.md R134). -/
theorem exec_wrBuf_outside {s : State} {i : BitVec 8} (b : Byte) (hi : s.params.cap ≤ i.toNat) :
    exec (.wrBuf i b) s = .next { s with rsp := 0#32 } := by
  simp [exec, execWrBuf, reject_eq, Nat.not_lt.2 hi]

/-- Settles O21. -/
theorem writeBufferStoresOneByte : Obligations.WriteBufferStoresOneByte := by
  refine ⟨fun w hw => decode_eq_instr_iff.2 ⟨hw, rfl, rfl⟩, fun s i b => ⟨fun h hi => ?_, ?_⟩⟩
  · exact ⟨_, exec_wrBuf_accepted b h hi, read_write_same _ _ _,
      fun a ha => read_write_other _ b ha⟩
  · rintro (h | hi)
    · exact exec_before_init h nofun
    · exact exec_wrBuf_outside b hi

/-- The response of an accepted `RDBUF`: `ok` in bit 8, the data below (30_encoding.md R92). -/
theorem dataResponse_eq (v : Byte) : dataResponse v = 0x100#32 ||| v.setWidth 32 := by
  apply BitVec.eq_of_getLsbD_eq
  intro j hj
  simp only [dataResponse, BitVec.getLsbD_append, BitVec.getLsbD_or, BitVec.getLsbD_setWidth]
  interval_cases j <;> simp

/-- An accepted `RDBUF`, in closed form (41_status_ack_buffers.md R136). -/
theorem exec_rdBuf_accepted {s : State} {i : BitVec 8} (h : s.initDone = true)
    (hi : i.toNat < s.params.cap) :
    exec (.rdBuf i) s = .next
      { s with
        rsp := 0x100#32 |||
          (if s.readDataValid i then s.rbuf.sample i.toNat s.nextFreeByte
            else s.nextFreeByte).setWidth 32
        draws := s.draws + 1 } := by
  simp [exec, execRdBuf, h, hi, respond_eq, dataResponse_eq]

/-- An `RDBUF` outside the buffer is rejected (41_status_ack_buffers.md R136). -/
theorem exec_rdBuf_outside {s : State} {i : BitVec 8} (hi : s.params.cap ≤ i.toNat) :
    exec (.rdBuf i) s = .next { s with rsp := 0#32 } := by
  simp [exec, execRdBuf, reject_eq, Nat.not_lt.2 hi]

/-- Settles O22: in `Finished` below the cursor the data is the stored byte. -/
theorem readBufferRespondsWithData : Obligations.ReadBufferRespondsWithData := by
  refine ⟨fun w hw => decode_eq_instr_iff.2 ⟨hw, rfl⟩, fun s i => ⟨fun h hi => ?_, ?_⟩⟩
  · refine ⟨_, _, exec_rdBuf_accepted h hi, fun b hs hlt hb => ?_⟩
    rw [if_pos ⟨hs, hlt⟩]
    exact sample_of_read _ hb
  · rintro (h | hi)
    · exact exec_before_init h nofun
    · exact exec_rdBuf_outside hi

/-! ### `LOAD` -/

/-- The expansion of `LOAD` from index `i` on stores its bytes from `i` on, one `WRBUF` after the
other. -/
theorem execAll_loadFrom {bytes : List Byte} {i : Nat} {s : State} (hcap : s.params.cap ≤ 255)
    (h : s.initDone = true) (hne : bytes ≠ []) (hi : i + bytes.length ≤ s.params.cap) :
    execAll (loadFrom i bytes) s = .next
      { s with wbuf := stored s.wbuf (BitVec.ofNat 8 i) bytes, rsp := 1#32 } := by
  induction bytes generalizing i s with
  | nil => exact absurd rfl hne
  | cons b bytes ih =>
    simp only [List.length_cons] at hi
    have hrun := exec_wrBuf_accepted (s := s) (i := BitVec.ofNat 8 i) b h
      (by rw [index_ofNat_toNat (by omega)]; omega)
    simp only [loadFrom, execAll, hrun, stored]
    have hnext : BitVec.ofNat 8 i + 1 = BitVec.ofNat 8 (i + 1) := (BitVec.ofNat_add ..).symm
    by_cases hrest : bytes = []
    · subst hrest
      rfl
    · rw [ih (by exact hcap) (by exact h) hrest (by show _ ≤ s.params.cap; omega), hnext]

/-- Settles O59: the bytes are stored from index 0 on. -/
theorem loadFillsWriteBuffer : Obligations.LoadFillsWriteBuffer := by
  intro s bytes hwf hinit hlen hne
  have hcap := cap_le hwf
  refine ⟨_, execAll_loadFrom (i := 0) hcap hinit hne (by omega), fun k hk => ?_, fun a ha => ?_⟩
  · simpa using stored_read_inside bytes s.wbuf 0 k hk (by simp; omega)
  · exact stored_read_above bytes s.wbuf 0 a (by simpa using ha) (by simp; omega)

end Sys2Proof.Proofs
end

section
/-! PROOFS. The parts of the background service step (42_service_tw.md R147 to R152,
43_service_fw.md R166 to R169), read off its closed form; and that an enabled one never faults. -/

namespace Sys2Proof.Proofs

open Sys2Proof.Machine Sys2Proof.Laws

/-! ### The sources -/

theorem nackPending_iff {s : State} :
    nackPending s = true ↔ s.ieNack = true ∧ s.hw.nack = true := Bool.and_eq_true_iff

theorem tcPending_iff {s : State} :
    tcPending s = true ↔ s.ieTc = true ∧ s.hw.tc = true := Bool.and_eq_true_iff

theorem stopPending_iff {s : State} :
    stopPending s = true ↔ s.ieStop = true ∧ s.hw.stopDet = true := Bool.and_eq_true_iff

/-- What `SERVICE` of a `TW` instance answers (42_service_tw.md R146). -/
theorem eq_serviceTw {s t : State} (hb : s.params.bus = .tw) (hn : service s = .next t) :
    t = serviceTw s :=
  ((service_tw_next hb).1 hn).2.symm

/-- What `SERVICE` of an `FW` instance answers (43_service_fw.md R165). -/
theorem eq_serviceFw {s t : State} (hb : s.params.bus = .fw) (hn : service s = .next t) :
    t = serviceFw s :=
  ((service_fw_next hb).1 hn).2.symm

/-! ### The parts `N`, `T` and `C` on `TW` -/

/-- Settles O24: with the source pending the closed form latches and requests, without it the
registers of part `N` stay. -/
theorem nackLatchesErrorAndRequestsOneStop : Obligations.NackLatchesErrorAndRequestsOneStop := by
  intro s t hb hn
  obtain rfl := eq_serviceTw hb hn
  rw [← nackPending_iff, ← stopPending_iff, serviceTw_eq]
  simp only [requestsStop]
  refine ⟨fun hN => ?_, fun hN => ?_, fun hS => if_neg hS⟩
  · simp only [hN]
    refine ⟨Bool.or_true _, Bool.and_false _, fun hst => ?_, fun hst => ?_⟩
    · simp [hst]
    · simp [hst]
  · simp [hN]

/-- Settles O25: the read phase is armed where the source is pending and no error is latched, before
or in this step. -/
theorem transferCompleteArmsReadPhase : Obligations.TransferCompleteArmsReadPhase := by
  intro s t hb hn
  obtain rfl := eq_serviceTw hb hn
  rw [← nackPending_iff, ← tcPending_iff, serviceTw_eq]
  refine ⟨rfl, fun hT => ?_, fun hT => ?_⟩
  · simp only [hT]
    refine ⟨by simp, by simp, rfl, fun ⟨herr, hN⟩ => ?_, fun herr => ?_⟩
    · have hA : armsRead s = true := by simp [armsRead, hT, herr, hN]
      simp [hA]
    · have hA : armsRead s = false := by
        rcases herr with herr | herr <;> simp [armsRead, herr]
      simp [hA]
  · have hA : armsRead s = false := by simp [armsRead, hT]
    simp only [hA]
    refine ⟨by simp [hT], if_neg hT, by simp, rfl, by simp, by simp, fun hsd => ?_⟩
    have hS : stopPending s = false := by simp [stopPending, hsd]
    simp [hT, hS]

/-- Settles O26: part `C` runs where its source is pending, after part `N` of the same step. -/
theorem stopDetectedCompletesTransaction : Obligations.StopDetectedCompletesTransaction := by
  intro s t hb hn
  obtain rfl := eq_serviceTw hb hn
  simp only [← nackPending_iff, ← stopPending_iff, serviceTw_eq]
  refine ⟨fun hS => ?_, fun hS => ?_⟩
  · simp [hS]
  · simp [hS]

/-- Settles O27. -/
theorem twServiceFrame : Obligations.TwServiceFrame := by
  intro s t hb hn
  obtain rfl := eq_serviceTw hb hn
  rw [serviceTw_eq]
  refine ⟨rfl, rfl, rfl, rfl, rfl, rfl, rfl, rfl, ?_, ?_, rfl, rfl, rfl, rfl, rfl, rfl, rfl, rfl,
    rfl⟩
  · by_cases hS : stopPending s = true
    · obtain ⟨hie, hsd⟩ := stopPending_iff.1 hS
      exact .inr ⟨hie, hsd, by simp [hS]⟩
    · exact .inl (by simp [hS])
  · by_cases hS : stopPending s = true
    · exact .inr (stopPending_iff.1 hS)
    · exact .inl (if_neg hS)

/-! ### The parts `D` and `F` of either kind -/

/-- How many bytes part `F` of an instance pushes (42_service_tw.md R150, 43_service_fw.md R167). -/
def serviceFill (s : State) : Nat :=
  match s.params.bus with
  | .tw => s.fillCount
  | .fw => s.symmetricFillCount s.drainCount

theorem serviceFill_tw {s : State} (hb : s.params.bus = .tw) : serviceFill s = s.fillCount := by
  simp only [serviceFill, hb]

theorem serviceFill_fw {s : State} (hb : s.params.bus = .fw) :
    serviceFill s = s.symmetricFillCount s.drainCount := by
  simp only [serviceFill, hb]

/-- Part `D` of either kind, as `SERVICE` leaves it. -/
theorem service_drain {s t : State} (hn : service s = .next t) :
    t.hw.rxFifo = s.hw.rxFifo.drop s.drainCount ∧
      t.nextReadIndex = s.nextReadIndex + BitVec.ofNat 8 s.drainCount ∧
      t.rbuf = stored s.rbuf s.nextReadIndex (s.hw.rxFifo.take s.drainCount) := by
  cases hb : s.params.bus with
  | tw =>
    obtain rfl := eq_serviceTw hb hn
    rw [serviceTw_eq]
    exact ⟨rfl, rfl, rfl⟩
  | fw =>
    obtain rfl := eq_serviceFw hb hn
    rw [serviceFw_eq]
    exact ⟨rfl, rfl, rfl⟩

/-- Part `F` of either kind, as `SERVICE` leaves it. -/
theorem service_fill {s t : State} (hn : service s = .next t) :
    t.hw.txFifo =
        s.hw.txFifo ++ pushed s.params.base s.wbuf s.nextWriteIndex s.draws (serviceFill s) ∧
      t.nextWriteIndex = s.nextWriteIndex + BitVec.ofNat 8 (serviceFill s) ∧
      t.bytesRemaining =
        s.bytesRemaining - BitVec.ofNat 9 s.drainCount - BitVec.ofNat 9 (serviceFill s) ∧
      t.fillRounds = s.fillRounds + (if 0 < serviceFill s then 1 else 0) := by
  cases hb : s.params.bus with
  | tw =>
    obtain rfl := eq_serviceTw hb hn
    rw [serviceTw_eq, serviceFill_tw hb]
    exact ⟨rfl, rfl, rfl, rfl⟩
  | fw =>
    obtain rfl := eq_serviceFw hb hn
    rw [serviceFw_eq, serviceFill_fw hb]
    exact ⟨rfl, rfl, rfl, rfl⟩

/-- No buffer index that an answered `SERVICE` forms wraps (20_memory.md R66). -/
theorem service_indices {s t : State} (hwf : s.params.wf) (hn : service s = .next t) :
    s.nextReadIndex.toNat + s.drainCount ≤ 256 ∧
      s.nextWriteIndex.toNat + serviceFill s ≤ 256 := by
  have hcap := cap_le hwf
  have hr := s.nextReadIndex.isLt
  have hw := s.nextWriteIndex.isLt
  have hin : s.indicesInRange s.drainCount (serviceFill s) = true := by
    cases hb : s.params.bus with
    | tw => exact serviceFill_tw hb ▸ ((service_tw_next hb).1 hn).1
    | fw => exact serviceFill_fw hb ▸ ((service_fw_next hb).1 hn).1
  have := (indicesInRange_iff _ _ _).1 hin
  omega

/-- Settles O28: the drained bytes are stored one after the other from the cursor on, and no index
wraps. -/
theorem drainStoresReceivedBytes : Obligations.DrainStoresReceivedBytes := by
  intro s t hwf hn p
  obtain ⟨hrx, hidx, hbuf⟩ := service_drain hn
  obtain ⟨hwrap, -⟩ := service_indices hwf hn
  have hlen : (s.hw.rxFifo.take s.drainCount).length = s.drainCount :=
    List.length_take_of_le (drainCount_le s)
  refine ⟨hrx, hidx, fun k hk => ?_, fun a ha => ?_⟩
  · have hk : k < s.drainCount := hk
    rw [hbuf, stored_read_inside _ _ _ _ (by omega) (by omega)]
    exact List.getElem?_take_of_lt hk
  · rw [hbuf]
    rcases ha with ha | ha
    · exact stored_read_below _ _ _ _ ha (by omega)
    · have ha : s.nextReadIndex.toNat + s.drainCount ≤ a := ha
      exact stored_read_above _ _ _ _ (by omega) (by omega)

/-- Settles O29: the pushed bytes are those from the write cursor on, and no index wraps. -/
theorem fillPushesNextBytes : Obligations.FillPushesNextBytes := by
  intro s t hwf hn p room k
  obtain ⟨htx, hidx, hrem, hrounds⟩ := service_fill hn
  obtain ⟨-, hwrap⟩ := service_indices hwf hn
  have hk : k = serviceFill s := rfl
  rw [hk]
  refine ⟨⟨_, htx, pushed_length .., fun j b hj hb => ?_⟩, hidx, hrem, ?_, fun hfw => ?_⟩
  · rw [pushed_getElem? _ _ _ _ _ _ hj hwrap, sample_of_read _ hb]
  · rw [hrounds]
    cases serviceFill s <;> simp
  · obtain rfl := eq_serviceFw hfw hn
    rw [serviceFw_eq]
    simp only [serviceFill_fw hfw]
    cases s.symmetricFillCount s.drainCount <;> simp

/-! ### Part `C` on `FW`, and what the step leaves -/

/-- Settles O30: the bytes that remain decide part `C`. -/
theorem cursorCompletesFourWireTransfer : Obligations.CursorCompletesFourWireTransfer := by
  intro s t hb hn
  obtain rfl := eq_serviceFw hb hn
  rw [serviceFw_eq]
  refine ⟨fun hz => ?_, fun hz => ?_⟩
  · have hz : remainingFw s = 0#9 := hz
    simp [hz]
  · have hz : ¬ remainingFw s = 0#9 := hz
    simp [hz]

/-- Settles O31: the closed form writes no other field. -/
theorem fwServiceFrame : Obligations.FwServiceFrame := by
  intro s t hb hn
  obtain rfl := eq_serviceFw hb hn
  rw [serviceFw_eq]

/-! ### No fault -/

/-- With the invariant the fill of an enabled `SERVICE` stays below the write length. -/
theorem serviceFill_bound {s : State} (h : s.Inv) (he : s.serviceEnabled = true) :
    s.nextWriteIndex.toNat + serviceFill s ≤ s.writeLength.toNat := by
  have hp := inProgress_of_serviceEnabled h he
  have ⟨_, ⟨hw, _⟩, _⟩ := h
  cases hb : s.params.bus with
  | tw =>
    obtain ⟨-, ⟨hwi, -⟩, -⟩ := inv_twRunning h hb hp
    rw [serviceFill_tw hb, fillCount_of_written hwi]
    exact hw
  | fw =>
    rw [serviceFill_fw hb, fw_fill h hb he]
    omega

/-- Settles O32: the drain and the fill stay below lengths of at most `CAP`. -/
theorem enabledServiceNeverFaults : Obligations.EnabledServiceNeverFaults := by
  intro s h he
  have hfill := serviceFill_bound h he
  obtain ⟨-, hc, -⟩ := h
  have hdrain := drainCount_bound hc
  obtain ⟨-, hwcap, -, hrcap, -⟩ := hc
  have hin : s.indicesInRange s.drainCount (serviceFill s) = true :=
    (indicesInRange_iff _ _ _).2 ⟨.inr (by omega), .inr (by omega)⟩
  have hrun : runTurn .service s = service s := if_pos he
  rw [hrun]
  cases hb : s.params.bus with
  | tw => exact ⟨_, (service_tw_next hb).2 ⟨serviceFill_tw hb ▸ hin, rfl⟩⟩
  | fw => exact ⟨_, (service_fw_next hb).2 ⟨serviceFill_fw hb ▸ hin, rfl⟩⟩

end Sys2Proof.Proofs
end

section
/-! PROOFS. The whole step: the invariant and the configuration it keeps, who writes the status
(10_state.md R22), the read buffer after completion (20_memory.md R72), the one stop request
(42_service_tw.md R153). -/

namespace Sys2Proof.Proofs

open Sys2Proof.Machine Sys2Proof.Laws

/-- Settles O12. -/
theorem resetMeetsTheInvariant : Obligations.ResetMeetsTheInvariant := fun _ hp => inv_reset hp

/-- Settles O41: a step is a turn, and the turns of every agent keep the invariant, command by
command, phase by phase, event by event. -/
theorem stepKeepsTheInvariant : Obligations.StepKeepsTheInvariant := fun _ _ h hn => inv_step h hn

/-! ### The configuration -/

/-- After `INIT` no command writes the configuration: a second `INIT` is rejected. -/
theorem exec_configuration {s t : State} {i : Instr} (h : s.initDone = true)
    (hn : exec i s = .next t) : t.initDone = true ∧ t.timing = s.timing := by
  cases i with
  | init x =>
    rw [exec_init_again x h] at hn
    cases hn
    exact ⟨h, rfl⟩
  | startW _ _ | startR _ _ | startWR _ _ _ | xfer _ | getStatus | ackIdle | wrBuf _ _ | rdBuf _ =>
    obtain ⟨-, -, hc⟩ := exec_kept hn
    obtain ⟨hi, ht⟩ := hc nofun
    exact ⟨hi.trans h, ht⟩

/-- No `SERVICE` step writes the configuration. -/
theorem service_configuration {s t : State} (hn : service s = .next t) :
    t.initDone = s.initDone ∧ t.timing = s.timing := by
  cases hb : s.params.bus with
  | tw =>
    obtain rfl := eq_serviceTw hb hn
    rw [serviceTw_eq]
    exact ⟨rfl, rfl⟩
  | fw =>
    obtain rfl := eq_serviceFw hb hn
    rw [serviceFw_eq]
    exact ⟨rfl, rfl⟩

/-- A turn of the environment writes the adapter registers and the log alone
(44_adapter_contract.md R182). -/
theorem runEnv_writes {e : EnvStep} {s t : State} (hn : runEnv e s = .next t) :
    ∃ hw l, t = { s with hw := hw, wireLog := l } := by
  obtain rfl := runEnv_next.1 hn
  split
  next he =>
    obtain ⟨hw, heq | ⟨x, heq⟩, -⟩ := envApply_cases e he
    · exact ⟨hw, s.wireLog, heq⟩
    · exact ⟨hw, _, heq⟩
  next => exact ⟨s.hw, s.wireLog, rfl⟩

/-- After `INIT` no turn of any agent writes the configuration. -/
theorem runTurn_configuration {s s' : State} {t : Turn} (h : s.initDone = true)
    (hn : runTurn t s = .next s') : s'.initDone = true ∧ s'.timing = s.timing := by
  cases t with
  | hostWrite a w =>
    obtain ⟨-, ⟨i, -, hx⟩ | ⟨-, rfl⟩⟩ := portWrite_next hn
    · exact exec_configuration h hx
    · exact ⟨h, rfl⟩
  | hostRead a =>
    obtain ⟨-, rfl⟩ := portRead_next hn
    exact ⟨h, rfl⟩
  | service =>
    rcases runService_cases hn with ⟨-, hx⟩ | ⟨-, rfl⟩
    · obtain ⟨hi, ht⟩ := service_configuration hx
      exact ⟨hi.trans h, ht⟩
    · exact ⟨h, rfl⟩
  | env e =>
    obtain ⟨_, _, rfl⟩ := runEnv_writes hn
    exact ⟨h, rfl⟩

/-- Settles O42. -/
theorem stepKeepsConfiguration : Obligations.StepKeepsConfiguration := by
  intro s s' hn
  refine ⟨step_params hn, fun h => ?_⟩
  rcases step_cases hn with ⟨-, rfl⟩ | ⟨t, rest, -, ht⟩
  · exact ⟨h, rfl⟩
  · exact runTurn_configuration (s := { s with agenda := rest }) h ht

/-! ### The writers of the status -/

/-- A command that changes the status is a start command that begins a transaction or an `ACKIDLE`
that releases a terminal status. -/
theorem exec_status_writer {s t : State} {i : Instr} (h : s.Inv) (hn : exec i s = .next t)
    (hne : t.status ≠ s.status) :
    (i.isStart = true ∧ s.status = .idle ∧ t.status = .inProgress) ∨
      (i = .ackIdle ∧ (s.status = .finished ∨ s.status = .error) ∧ t.status = .idle) := by
  have hedge := (exec_status h hn).resolve_left hne
  have of_start (hi : i.isStart = true) : s.status = .idle ∧ t.status = .inProgress := by
    by_cases ha : acceptsStart s i
    · have hidle := idle_of_acceptsStart ha
      rw [hidle] at hedge
      generalize t.status = st at hedge
      cases hedge
      exact ⟨hidle, rfl⟩
    · rw [exec_start_rejected hi ha] at hn
      cases hn
      exact absurd rfl hne
  cases i with
  | startW _ _ | startR _ _ | startWR _ _ _ | xfer _ => exact .inl ⟨rfl, of_start rfl⟩
  | init x =>
    rcases exec_init_cases hn with ⟨-, rfl⟩ | ⟨hi, rfl⟩
    · exact absurd rfl hne
    · obtain ⟨-, -, -, hidle, -⟩ := h
      exact absurd (hidle hi).symm hne
  | ackIdle =>
    rcases exec_ackIdle_cases hn with rfl | ⟨-, hs, rfl⟩
    · exact absurd rfl hne
    · refine .inr ⟨rfl, ?_, rfl⟩
      cases hst : s.status with
      | idle => exact absurd hst.symm hne
      | inProgress => exact absurd hst hs
      | finished => exact .inl rfl
      | error => exact .inr rfl
  | getStatus =>
    obtain ⟨_, rfl⟩ := exec_getStatus_cases hn
    exact absurd rfl hne
  | wrBuf _ _ =>
    rcases exec_wrBuf_cases hn with rfl | ⟨-, -, rfl⟩ <;> exact absurd rfl hne
  | rdBuf _ =>
    obtain ⟨_, _, rfl⟩ := exec_rdBuf_cases hn
    exact absurd rfl hne

/-- Settles O46: the background has a step only in a transaction. -/
theorem statusWriters : Obligations.StatusWriters := by
  intro s t h
  refine ⟨fun i hn hne => exec_status_writer h hn hne, fun hn hne => ?_, fun e hn => ?_⟩
  · rcases runService_cases hn with ⟨he, hx⟩ | ⟨-, rfl⟩
    · exact ⟨inProgress_of_serviceEnabled h he, (service_status hx).resolve_left hne⟩
    · exact absurd rfl hne
  · obtain ⟨_, _, rfl⟩ := runEnv_writes hn
    rfl

/-! ### The read buffer after completion -/

/-- A command writes the read cursor only where it begins a transaction. -/
theorem exec_nextReadIndex {s t : State} {i : Instr} (hn : exec i s = .next t)
    (hs : t.status ≠ .inProgress) : t.nextReadIndex = s.nextReadIndex := by
  have of_twStart {d : Direction} {wl rl : BitVec 8} {a : BitVec 10}
      (hn : twStart d wl rl a s = .next t) : t.nextReadIndex = s.nextReadIndex := by
    by_cases had : s.admitsTwStart d wl rl
    · rw [twStart_accepted a had] at hn
      cases hn
      exact absurd rfl hs
    · rw [twStart_rejected a had] at hn
      cases hn
      rfl
  cases i with
  | init x => rcases exec_init_cases hn with ⟨-, rfl⟩ | ⟨-, rfl⟩ <;> rfl
  | startW a n => exact of_twStart hn
  | startR a m => exact of_twStart hn
  | startWR a n m => exact of_twStart hn
  | xfer n =>
    by_cases had : s.admitsXfer n
    · rw [exec_xfer, xfer_accepted had] at hn
      cases hn
      exact absurd rfl hs
    · rw [exec_xfer, xfer_rejected had] at hn
      cases hn
      rfl
  | getStatus =>
    obtain ⟨_, rfl⟩ := exec_getStatus_cases hn
    rfl
  | ackIdle => rcases exec_ackIdle_cases hn with rfl | ⟨-, -, rfl⟩ <;> rfl
  | wrBuf _ _ => rcases exec_wrBuf_cases hn with rfl | ⟨-, -, rfl⟩ <;> rfl
  | rdBuf _ =>
    obtain ⟨_, _, rfl⟩ := exec_rdBuf_cases hn
    rfl

/-- With no transaction in progress no turn writes the read buffer, and none but a start command the
read cursor: the background has no step then. -/
theorem runTurn_readBuffer {s s' : State} {t : Turn} (h : s.Inv) (hs : s.status ≠ .inProgress)
    (hn : runTurn t s = .next s') :
    s'.rbuf = s.rbuf ∧ (s'.status ≠ .inProgress → s'.nextReadIndex = s.nextReadIndex) := by
  cases t with
  | hostWrite a w =>
    obtain ⟨-, ⟨i, -, hx⟩ | ⟨-, rfl⟩⟩ := portWrite_next hn
    · obtain ⟨⟨-, hr, -⟩, -⟩ := exec_kept hx
      exact ⟨hr, exec_nextReadIndex hx⟩
    · exact ⟨rfl, fun _ => rfl⟩
  | hostRead a =>
    obtain ⟨-, rfl⟩ := portRead_next hn
    exact ⟨rfl, fun _ => rfl⟩
  | service =>
    rcases runService_cases hn with ⟨he, -⟩ | ⟨-, rfl⟩
    · exact absurd (inProgress_of_serviceEnabled h he) hs
    · exact ⟨rfl, fun _ => rfl⟩
  | env e =>
    obtain ⟨_, _, rfl⟩ := runEnv_writes hn
    exact ⟨rfl, fun _ => rfl⟩

/-- Settles O48. -/
theorem readBufferStaysAfterCompletion : Obligations.ReadBufferStaysAfterCompletion := by
  intro s s' h hs hn
  rcases step_cases hn with ⟨-, rfl⟩ | ⟨t, rest, -, ht⟩
  · exact ⟨rfl, fun _ => rfl⟩
  · exact runTurn_readBuffer (s := { s with agenda := rest }) h hs ht

/-! ### The one stop request -/

/-- What a step that leads from `s` to `s'` does of stop requests: at most one is counted, where none
was issued, and only the beginning of a transaction forgets one (42_service_tw.md R147, R153). -/
def StopOnce (s s' : State) : Prop :=
  (s'.stopCount = s.stopCount ∨
    (s'.stopCount = s.stopCount + 1 ∧ s.stopIssued = false ∧ s'.stopIssued = true ∧
      s'.errLatched = true)) ∧
  (s.stopIssued = true → s'.stopIssued = false →
    s.status = .idle ∧ s'.status = .inProgress)

theorem stopOnce_of_kept {s s' : State} (hc : s'.stopCount = s.stopCount)
    (hi : s'.stopIssued = s.stopIssued) : StopOnce s s' :=
  ⟨.inl hc, fun h h' => absurd (h.symm.trans (hi.symm.trans h')) (by decide)⟩

/-- A two-wire start requests no stop condition, and an accepted one begins a transaction. -/
theorem stopOnce_twStart {s t : State} {d : Direction} {wl rl : BitVec 8} {a : BitVec 10}
    (hn : twStart d wl rl a s = .next t) : StopOnce s t := by
  by_cases had : s.admitsTwStart d wl rl
  · rw [twStart_accepted a had] at hn
    cases hn
    obtain ⟨-, -, hidle, -⟩ := had
    exact ⟨.inl rfl, fun _ _ => ⟨hidle, rfl⟩⟩
  · rw [twStart_rejected a had] at hn
    cases hn
    exact stopOnce_of_kept rfl rfl

/-- No command requests a stop condition. -/
theorem stopOnce_exec {s t : State} {i : Instr} (hn : exec i s = .next t) : StopOnce s t := by
  cases i with
  | init x =>
    rcases exec_init_cases hn with ⟨-, rfl⟩ | ⟨-, rfl⟩ <;> exact stopOnce_of_kept rfl rfl
  | startW a n => exact stopOnce_twStart hn
  | startR a m => exact stopOnce_twStart hn
  | startWR a n m => exact stopOnce_twStart hn
  | xfer n =>
    by_cases had : s.admitsXfer n
    · rw [exec_xfer, xfer_accepted had] at hn
      cases hn
      exact stopOnce_of_kept rfl rfl
    · rw [exec_xfer, xfer_rejected had] at hn
      cases hn
      exact stopOnce_of_kept rfl rfl
  | getStatus =>
    obtain ⟨_, rfl⟩ := exec_getStatus_cases hn
    exact stopOnce_of_kept rfl rfl
  | ackIdle =>
    rcases exec_ackIdle_cases hn with rfl | ⟨-, -, rfl⟩ <;> exact stopOnce_of_kept rfl rfl
  | wrBuf _ _ =>
    rcases exec_wrBuf_cases hn with rfl | ⟨-, -, rfl⟩ <;> exact stopOnce_of_kept rfl rfl
  | rdBuf _ =>
    obtain ⟨_, _, rfl⟩ := exec_rdBuf_cases hn
    exact stopOnce_of_kept rfl rfl

/-- `SERVICE` requests a stop condition with none issued alone, and latches the error with it
(42_service_tw.md R147). -/
theorem stopOnce_service {s t : State} (hn : service s = .next t) : StopOnce s t := by
  cases hb : s.params.bus with
  | tw =>
    obtain rfl := eq_serviceTw hb hn
    rw [serviceTw_eq]
    cases hR : requestsStop s with
    | false => exact ⟨.inl rfl, fun h h' => by simp [h] at h'⟩
    | true =>
      obtain ⟨hN, hi⟩ : nackPending s = true ∧ s.stopIssued = false := by
        simpa [requestsStop] using hR
      refine ⟨.inr ⟨rfl, hi, ?_, ?_⟩, fun h => absurd (hi.symm.trans h) (by decide)⟩
      · simp [hN]
      · simp [hN]
  | fw =>
    obtain rfl := eq_serviceFw hb hn
    rw [serviceFw_eq]
    exact stopOnce_of_kept rfl rfl

/-- The same of a turn of any agent. -/
theorem stopOnce_runTurn {s s' : State} {t : Turn} (hn : runTurn t s = .next s') :
    StopOnce s s' := by
  cases t with
  | hostWrite a w =>
    obtain ⟨-, ⟨i, -, hx⟩ | ⟨-, rfl⟩⟩ := portWrite_next hn
    · exact stopOnce_exec hx
    · exact stopOnce_of_kept rfl rfl
  | hostRead a =>
    obtain ⟨-, rfl⟩ := portRead_next hn
    exact stopOnce_of_kept rfl rfl
  | service =>
    rcases runService_cases hn with ⟨-, hx⟩ | ⟨-, rfl⟩
    · exact stopOnce_service hx
    · exact stopOnce_of_kept rfl rfl
  | env e =>
    obtain ⟨_, _, rfl⟩ := runEnv_writes hn
    exact stopOnce_of_kept rfl rfl

/-- Settles O50. -/
theorem stopRequestedAtMostOnce : Obligations.StopRequestedAtMostOnce := by
  intro s s' hn
  rcases step_cases hn with ⟨-, rfl⟩ | ⟨t, rest, -, ht⟩
  · exact stopOnce_of_kept rfl rfl
  · exact stopOnce_runTurn (s := { s with agenda := rest }) ht

end Sys2Proof.Proofs
end

section
/-! PROOFS. Progress of a transaction (44_adapter_contract.md R195): the rank that every step of the
background and the environment lowers, and that one of the two always has a step. -/

namespace Sys2Proof.Proofs

open Sys2Proof.Machine Sys2Proof.Laws

/-! ### The rank of each phase -/

/-- The rank of a phase that has not ended on the wire: the address if it is still to come, the bytes
of the phase, and what follows a phase without automatic stop. -/
def phaseRank (s : State) : Nat :=
  (if s.hw.startReq = true then 6 else 5) + s.hw.count.toNat
    + (if s.hw.autoStop = true then 0 else 3 + s.pendingReadLength.toNat)

section

variable {s : State}

theorem rank_of_noFlag (hb : s.params.bus = .tw) (h : s.noFlag) : s.rank = phaseRank s := by
  obtain ⟨hsr, hna, htf, hsd⟩ := h
  simp [State.rank, phaseRank, hb, hsr, hna, htf, hsd]

theorem rank_of_stopDet (hb : s.params.bus = .tw) (h : s.hw.stopDet = true) :
    s.rank = 1 + (if s.hw.busy = true then 1 else 0) := by
  simp [State.rank, hb, h]

theorem rank_of_stopReq (hb : s.params.bus = .tw) (hsd : s.hw.stopDet = false)
    (h : s.hw.stopReq = true) : s.rank = 3 := by
  simp [State.rank, hb, hsd, h]

theorem rank_of_nack (hb : s.params.bus = .tw) (hsd : s.hw.stopDet = false)
    (hsr : s.hw.stopReq = false) (h : s.hw.nack = true) : s.rank = 4 := by
  simp [State.rank, hb, hsd, hsr, h]

theorem rank_of_tc (hb : s.params.bus = .tw) (hsd : s.hw.stopDet = false)
    (hsr : s.hw.stopReq = false) (hna : s.hw.nack = false) (h : s.hw.tc = true) :
    s.rank = 7 + s.pendingReadLength.toNat := by
  simp [State.rank, hb, hsd, hsr, hna, h]

theorem rank_fw (hb : s.params.bus = .fw) :
    s.rank = 2 * s.bytesRemaining.toNat + s.hw.txFifo.length := by
  simp [State.rank, hb]

/-- The rank of a phase under way is at least 5, what a rejection or a stop condition falls below. -/
theorem five_le_phaseRank (s : State) : 5 ≤ phaseRank s := by
  unfold phaseRank
  split <;> omega

/-! ### The environment lowers the rank -/

/-- The address is answered (44_adapter_contract.md R184). -/
theorem rank_envStart (ack t : Bool) (h : s.Inv) (he : s.envEnabled (.start ack t) = true) :
    (s.envStart ack t).rank < s.rank := by
  obtain ⟨hb, hreq, -⟩ := of_decide_eq_true he
  have hp : s.status = .inProgress := inProgress_of_not_quiet h (by simp [hreq])
  have hnf : s.noFlag := by
    rcases phase_of_startReq (inv_twPhase h hb hp) hreq with
      ⟨-, -, -, hnf, -⟩ | ⟨-, -, -, hnf, -⟩ <;> exact hnf
  have ⟨hsr, hna, htf, hsd⟩ := hnf
  rw [rank_of_noFlag hb hnf]
  cases ack with
  | true =>
    rw [rank_of_noFlag (s := s.envStart true t) hb ⟨hsr, hna, htf, hsd⟩]
    simp [phaseRank, envStart_eq, hreq]
  | false =>
    rw [rank_of_nack (s := s.envStart false t) hb hsd hsr rfl]
    exact five_le_phaseRank s

/-- A byte is sent or rejected (44_adapter_contract.md R186). -/
theorem rank_envTx (ack : Bool) (h : s.Inv) (he : s.envEnabled (.tx ack) = true) :
    (s.envTx ack).rank < s.rank := by
  obtain ⟨hb, hwp, -, hcount, hne⟩ := of_decide_eq_true he
  have hp : s.status = .inProgress := inProgress_of_not_quiet h (by simp [hwp])
  obtain ⟨-, -, -, hnf, -⟩ := moving_of_data (inv_twPhase h hb hp) hwp
  have ⟨hsr, hna, htf, hsd⟩ := hnf
  obtain ⟨v, rest, htx⟩ := List.exists_cons_of_length_pos hne
  rw [rank_of_noFlag hb hnf]
  cases ack with
  | true =>
    have hnew : (s.envTx true).rank = phaseRank (s.envTx true) := by
      rw [envTx_eq true htx]
      exact rank_of_noFlag hb hnf
    have := count_sub_one hcount
    rw [hnew, envTx_eq true htx]
    simp only [phaseRank, if_true]
    omega
  | false =>
    have hnew : (s.envTx false).rank = 4 := by
      rw [envTx_eq false htx]
      exact rank_of_nack hb hsd hsr rfl
    rw [hnew]
    exact five_le_phaseRank s

/-- A byte is received (44_adapter_contract.md R187). -/
theorem rank_envRx (b : Byte) (h : s.Inv) (he : s.envEnabled (.rx b) = true) :
    (s.envRx b).rank < s.rank := by
  obtain ⟨hb, hwp, -, hcount, -⟩ := of_decide_eq_true he
  have hp : s.status = .inProgress := inProgress_of_not_quiet h (by simp [hwp])
  obtain ⟨-, -, -, hnf, -⟩ := moving_of_data (inv_twPhase h hb hp) hwp
  have := count_sub_one hcount
  rw [rank_of_noFlag hb hnf, rank_of_noFlag (s := s.envRx b) hb hnf, envRx_eq]
  simp only [phaseRank]
  omega

/-- A phase ends (44_adapter_contract.md R188, R189). -/
theorem rank_envPhaseEnd (linger : Bool) (h : s.Inv)
    (he : s.envEnabled (.phaseEnd linger) = true) : (s.envPhaseEnd linger).rank < s.rank := by
  obtain ⟨hb, hwp, -⟩ := of_decide_eq_true he
  have hp : s.status = .inProgress := inProgress_of_not_quiet h (by simp [hwp])
  obtain ⟨-, hreq, -, hnf, -⟩ := moving_of_data (inv_twPhase h hb hp) hwp
  have ⟨hsr, hna, htf, hsd⟩ := hnf
  rw [rank_of_noFlag hb hnf]
  cases ha : s.hw.autoStop with
  | false =>
    have hnew : (s.envPhaseEnd linger).rank = 7 + s.pendingReadLength.toNat := by
      rw [envPhaseEnd_event linger ha]
      exact rank_of_tc hb hsd hsr hna rfl
    rw [hnew]
    simp only [phaseRank, ha, hreq, Bool.false_eq_true, if_false]
    omega
  | true =>
    have hnew : (s.envPhaseEnd linger).rank = 1 + (if linger = true then 1 else 0) := by
      rw [envPhaseEnd_stop linger ha]
      exact rank_of_stopDet hb rfl
    have := five_le_phaseRank s
    rw [hnew]
    split <;> omega

/-- The requested stop condition is made (44_adapter_contract.md R190). -/
theorem rank_envStop (linger : Bool) (h : s.Inv) (he : s.envEnabled (.stop linger) = true) :
    (s.envStop linger).rank < s.rank := by
  obtain ⟨hb, hsr, -⟩ := of_decide_eq_true he
  have hp : s.status = .inProgress := inProgress_of_not_quiet h (by simp [hsr])
  obtain ⟨-, -, -, -, -, -, hsd, -⟩ := stopping_of_stopReq (inv_twPhase h hb hp) hsr
  rw [rank_of_stopReq hb hsd hsr, rank_of_stopDet (s := s.envStop linger) hb rfl]
  split <;> omega

/-- The bus is released after the stop condition (44_adapter_contract.md R191). -/
theorem rank_envBusyRel (h : s.Inv) (hp : s.status = .inProgress)
    (he : s.envEnabled .busyRel = true) : s.envBusyRel.rank < s.rank := by
  obtain ⟨hb, hwp, hbusy, hreq⟩ := of_decide_eq_true he
  obtain ⟨-, -, -, -, -, hsd, -⟩ := stopped_of_idle (inv_twPhase h hb hp) hwp hreq
  rw [rank_of_stopDet hb hsd, rank_of_stopDet (s := s.envBusyRel) hb hsd]
  simp [State.envBusyRel, hbusy]

/-- A byte is exchanged (44_adapter_contract.md R193). -/
theorem rank_envXchg (b : Byte) (he : s.envEnabled (.xchg b) = true) :
    (s.envXchg b).rank < s.rank := by
  obtain ⟨hb, hne, -⟩ := of_decide_eq_true he
  obtain ⟨v, rest, htx⟩ := List.exists_cons_of_length_pos hne
  have hnew : (s.envXchg b).rank = 2 * s.bytesRemaining.toNat + rest.length := by
    rw [envXchg_eq b htx]
    exact rank_fw hb
  rw [hnew, rank_fw hb]
  simp [htx]

/-- Every event lowers the rank of a transaction in progress. -/
theorem rank_envApply {e : EnvStep} (h : s.Inv) (hp : s.status = .inProgress)
    (he : s.envEnabled e = true) : (s.envApply e).rank < s.rank := by
  cases e with
  | start ack t => exact rank_envStart ack t h he
  | tx ack => exact rank_envTx ack h he
  | rx b => exact rank_envRx b h he
  | phaseEnd linger => exact rank_envPhaseEnd linger h he
  | stop linger => exact rank_envStop linger h he
  | busyRel => exact rank_envBusyRel h hp he
  | xchg b => exact rank_envXchg b he

/-! ### The background lowers the rank -/

/-- `SERVICE` on `TW` requests the stop condition, requests the repeated start, or ends the
transaction (42_service_tw.md R147, R148, R152). -/
theorem rank_serviceTw (h : s.Inv) (hb : s.params.bus = .tw) (he : s.serviceEnabled = true) :
    (serviceTw s).status ≠ .inProgress ∨ (serviceTw s).rank < s.rank := by
  have hp := inProgress_of_serviceEnabled h he
  obtain ⟨⟨hin, hist⟩, ⟨hwi, hri⟩, -, -, -, -, -, htc, -⟩ := inv_twRunning h hb hp
  obtain ⟨-, -, -, hst, -⟩ := inv_twInv h hb
  rcases phase_of_pending (inv_twPhase h hb hp) (pending_of_serviceEnabled_tw hb he) with
    ⟨-, -, -, hna, -, hsr, hsd, herr, hrx⟩ |
    ⟨-, hreq, -, hna, htf, hie, hsr, hsd, herr, hrx, -⟩ | ⟨-, -, -, -, -, hsd, -⟩
  · refine .inr ?_
    have hR : requestsStop s = true := by simp [requestsStop, nackPending, hin, hna, hst, herr]
    have hnew : (serviceTw s).rank = 3 := by
      rw [serviceTw_flags (drainCount_of_empty hrx) (fillCount_of_written hwi)
        (by simp [stopPending, hsd])]
      exact rank_of_stopReq hb hsd (by simp [hR])
    rw [hnew, rank_of_nack hb hsd hsr hna]
    decide
  · refine .inr ?_
    have hN : nackPending s = false := by simp [nackPending, hna]
    have hT : tcPending s = true := by simp [tcPending, hie, htf]
    have hA : armsRead s = true := by simp [armsRead, hN, hT, herr]
    have hR : requestsStop s = false := by simp [requestsStop, hN]
    have hflags := serviceTw_flags (drainCount_of_empty hrx) (fillCount_of_written hwi)
      (show stopPending s = false by simp [stopPending, hsd])
    have hnew : (serviceTw s).rank = phaseRank (serviceTw s) := by
      rw [hflags]
      exact rank_of_noFlag hb ⟨by simp [hsr, hR], by simp [hna], by simp [hT], hsd⟩
    rw [hnew, rank_of_tc hb hsd hsr hna htf, hflags]
    simp [phaseRank, hA]
  · refine .inl ?_
    have hS : stopPending s = true := by simp [stopPending, hist, hsd]
    rw [serviceTw_eq]
    simp only [hS, if_true]
    split <;> decide

/-- `SERVICE` on `FW` takes a chunk out of the bytes that remain (43_service_fw.md R166, R167). -/
theorem rank_serviceFw (h : s.Inv) (hb : s.params.bus = .fw) (he : s.serviceEnabled = true) :
    (serviceFw s).rank < s.rank := by
  have hp := inProgress_of_serviceEnabled h he
  obtain ⟨htx, -, hthr, -⟩ := fw_chunk_back h hb he
  have hk := fw_fill h hb he
  have hrem := remainingFw_toNat h hb he
  obtain ⟨-, -, -, -, hthr1, -, -⟩ := inv_fwRunning h hb hp
  obtain ⟨-, hc, -⟩ := h
  have hdrain := drainCount_bound hc
  obtain ⟨hw, -, -, -, hbr⟩ := hc
  have hbr := hbr hp
  have hnew : (serviceFw s).rank
      = 2 * (serviceFw s).bytesRemaining.toNat + (serviceFw s).hw.txFifo.length := by
    rw [serviceFw_eq]
    exact rank_fw hb
  rw [hnew, rank_fw hb, serviceFw_eq]
  simp only [htx, List.nil_append, pushed_length, List.length_nil]
  omega

/-- Every `SERVICE` step ends the transaction or lowers its rank. -/
theorem rank_service {t : State} (h : s.Inv) (he : s.serviceEnabled = true)
    (hn : service s = .next t) : t.status ≠ .inProgress ∨ t.rank < s.rank := by
  cases hb : s.params.bus with
  | tw =>
    obtain rfl := eq_serviceTw hb hn
    exact rank_serviceTw h hb he
  | fw =>
    obtain rfl := eq_serviceFw hb hn
    exact .inr (rank_serviceFw h hb he)

/-- An existing turn of the background or the environment ends a transaction in progress or lowers
its rank. -/
theorem rank_of_advances {s' : State} {t : Turn} (h : s.Inv) (hp : s.status = .inProgress)
    (ht : t.advances = true) (ho : s.offers t = true) (hn : runTurn t s = .next s') :
    s'.status ≠ .inProgress ∨ s'.rank < s.rank := by
  cases t with
  | hostWrite _ _ | hostRead _ => cases ht
  | service =>
    rcases runService_cases hn with ⟨he, hx⟩ | ⟨hno, -⟩
    · exact rank_service h he hx
    · exact absurd (hno.symm.trans ho) (by decide)
  | env e =>
    have he : s.envEnabled e = true := ho
    obtain rfl := runEnv_next.1 hn
    rw [if_pos he]
    exact .inr (rank_envApply h hp he)

/-- Settles O57: the host touches nothing that the rank counts. -/
theorem progressRankFalls : Obligations.ProgressRankFalls := by
  intro s s' t h hp ho hn
  refine ⟨fun ht => rank_of_advances h hp ht ho hn, fun ht => ?_⟩
  obtain ⟨_, _, _, _, rfl⟩ := hostTurn_inProgress h hp ht hn
  exact ⟨hp, rfl⟩

/-! ### A transaction in progress always has a step -/

/-- A transaction in progress has been initialised. -/
theorem initDone_of_inProgress (h : s.Inv) (hp : s.status = .inProgress) :
    s.initDone = true := by
  by_contra hi
  obtain ⟨-, -, -, hidle, -⟩ := h
  exact absurd (hp.symm.trans (hidle (by simpa using hi))) (by decide)

/-- Where a source of a `TW` instance is pending, `SERVICE` is enabled (60_exceptions.md R217). -/
theorem serviceEnabled_of_pending (hb : s.params.bus = .tw) (hi : s.initDone = true)
    (hp : nackPending s = true ∨ tcPending s = true ∨ stopPending s = true) :
    s.serviceEnabled = true := by
  refine (serviceEnabled_iff s).2 ⟨hi, fun hz => ?_⟩
  obtain ⟨h0, h1, h2, -⟩ := getLsbD_ofBools false (stopPending s) (tcPending s) (nackPending s)
  have hv : s.irq = BitVec.ofBool false ++ BitVec.ofBool (stopPending s)
      ++ BitVec.ofBool (tcPending s) ++ BitVec.ofBool (nackPending s) := irq_tw hb
  rw [← hv, hz] at h0 h1 h2
  simp [← h0, ← h1, ← h2] at hp

/-- Where the receive level of an `FW` instance has reached its threshold, `SERVICE` is enabled
(60_exceptions.md R215 to R217). -/
theorem serviceEnabled_of_level (hb : s.params.bus = .fw) (hi : s.initDone = true)
    (hie : s.ieRx = true) (hl : s.rxLevelReached = true) : s.serviceEnabled = true := by
  refine (serviceEnabled_iff s).2 ⟨hi, fun hz => ?_⟩
  rw [irq_fw hb, hie, hl] at hz
  exact absurd hz (by decide)

/-- While bytes move, the next one can move, or the phase can end. -/
theorem env_enabled_of_moving (h : s.Inv) (hb : s.params.bus = .tw) (hm : s.twMoving) :
    ∃ e, s.envEnabled e = true := by
  obtain ⟨hwp, -, -, -, -, -, hsend, hrecv⟩ := hm
  obtain ⟨-, ⟨-, -, -, hrcap, -⟩, -⟩ := h
  have hcap : s.params.cap = s.params.depth := by simp [Params.cap, Params.twCap, hb]
  by_cases hc : s.hw.count.toNat = 0
  · exact ⟨.phaseEnd false, decide_eq_true ⟨hb, hwp, hc⟩⟩
  have hpos : 0 < s.hw.count.toNat := Nat.pos_of_ne_zero hc
  cases hmode : s.hw.rxMode with
  | false =>
    obtain ⟨hlen, -⟩ := hsend hmode
    exact ⟨.tx true, decide_eq_true ⟨hb, hwp, hmode, hpos, by omega⟩⟩
  | true =>
    obtain ⟨hlen, -⟩ := hrecv hmode
    exact ⟨.rx 0, decide_eq_true ⟨hb, hwp, hmode, hpos, by omega⟩⟩

/-- A `TW` transaction in progress has a step in every phase. -/
theorem step_enabled_tw (h : s.Inv) (hb : s.params.bus = .tw) (hp : s.status = .inProgress) :
    s.serviceEnabled = true ∨ ∃ e, s.envEnabled e = true := by
  have hi := initDone_of_inProgress h hp
  obtain ⟨⟨hin, hist⟩, -⟩ := inv_twRunning h hb hp
  rcases inv_twPhase h hb hp with hph | hph | hph | hph | hph | hph | hph
  · obtain ⟨hwp, hreq, -⟩ := hph
    exact .inr ⟨.start true true, decide_eq_true ⟨hb, hreq, .inl hwp⟩⟩
  · obtain ⟨hwp, hreq, -⟩ := hph
    exact .inr ⟨.start true true, decide_eq_true ⟨hb, hreq, .inr hwp⟩⟩
  · exact .inr (env_enabled_of_moving h hb hph)
  · obtain ⟨-, -, -, hna, -⟩ := hph
    exact .inl (serviceEnabled_of_pending hb hi (.inl (nackPending_iff.2 ⟨hin, hna⟩)))
  · obtain ⟨-, -, -, -, htf, hie, -⟩ := hph
    exact .inl (serviceEnabled_of_pending hb hi (.inr (.inl (tcPending_iff.2 ⟨hie, htf⟩))))
  · obtain ⟨hwp, -, -, -, -, hsr, -⟩ := hph
    exact .inr ⟨.stop true, decide_eq_true ⟨hb, hsr, .inr hwp⟩⟩
  · obtain ⟨-, -, -, -, -, hsd, -⟩ := hph
    exact .inl (serviceEnabled_of_pending hb hi (.inr (.inr (stopPending_iff.2 ⟨hist, hsd⟩))))

/-- An `FW` transfer in progress has a step: the chunk outstanding is exchanged byte by byte, and
then it is serviced. -/
theorem step_enabled_fw (h : s.Inv) (hb : s.params.bus = .fw) (hp : s.status = .inProgress) :
    s.serviceEnabled = true ∨ ∃ e, s.envEnabled e = true := by
  obtain ⟨hie, -, -, hthr, h1, hd, -⟩ := inv_fwRunning h hb hp
  by_cases htx : 0 < s.hw.txFifo.length
  · exact .inr ⟨.xchg 0, decide_eq_true ⟨hb, htx, by omega⟩⟩
  · refine .inl (serviceEnabled_of_level hb (initDone_of_inProgress h hp) hie ?_)
    simp only [State.rxLevelReached, Bool.and_eq_true, decide_eq_true_eq]
    omega

/-- Settles O56. -/
theorem inProgressIsNeverStuck : Obligations.InProgressIsNeverStuck := by
  intro s h hp
  have hstep : s.serviceEnabled = true ∨ ∃ e, s.envEnabled e = true := by
    cases hb : s.params.bus with
    | tw => exact step_enabled_tw h hb hp
    | fw => exact step_enabled_fw h hb hp
  rcases hstep with he | ⟨e, he⟩
  · exact ⟨.service, rfl, he⟩
  · exact ⟨.env e, rfl, he⟩

end

end Sys2Proof.Proofs
end

section
/-! PROOFS. Fair executions (20_memory.md R73, 70_reset_and_hazards.md R257): between two steps of
the background or the environment a transaction in progress stands still, and fairness takes the next
one; without it an instance may wait for ever. -/

namespace Sys2Proof.Proofs

open Sys2Proof.Machine Sys2Proof.Laws

/-! ### What a transaction does between two steps that carry it on -/

/-- `t` differs from `s` in fields alone that neither the background nor the environment reads
before it has a step: the write buffer, what belongs to the host's access, and the agenda. -/
def Stalls (s t : State) : Prop :=
  ∃ w v d x a, t = { s with wbuf := w, rsp := v, draws := d, hostData := x, agenda := a }

theorem stalls_refl (s : State) : Stalls s s := ⟨_, _, _, _, _, rfl⟩

theorem stalls_trans {s t u : State} (h : Stalls s t) (h' : Stalls t u) : Stalls s u := by
  obtain ⟨_, _, _, _, _, rfl⟩ := h
  obtain ⟨w, v, d, x, a, rfl⟩ := h'
  exact ⟨w, v, d, x, a, rfl⟩

theorem status_of_stalls {s t : State} (h : Stalls s t) : t.status = s.status := by
  obtain ⟨_, _, _, _, _, rfl⟩ := h
  rfl

theorem rank_of_stalls {s t : State} (h : Stalls s t) : t.rank = s.rank := by
  obtain ⟨_, _, _, _, _, rfl⟩ := h
  rfl

/-- A step that exists goes on existing while the transaction stands still. -/
theorem offers_of_stalls {s t : State} (h : Stalls s t) (x : Turn) :
    t.offers x = s.offers x := by
  obtain ⟨_, _, _, _, _, rfl⟩ := h
  cases x with
  | hostWrite _ _ | hostRead _ | service => rfl
  | env e => cases e <;> rfl

/-- The next step of a state takes a step of the background or the environment. -/
def Advances (s : State) : Prop := ∃ t : Turn, t.advances = true ∧ s.takes t

/-- A turn of a transaction in progress that is no existing step of the background or the environment
leaves it standing still: it is the host's, or it passes. -/
theorem stalls_runTurn {s s' : State} {t : Turn} (h : s.Inv) (hp : s.status = .inProgress)
    (ht : ¬ (t.advances = true ∧ s.offers t = true)) (hn : runTurn t s = .next s') :
    Stalls s s' := by
  cases t with
  | hostWrite _ _ | hostRead _ =>
    obtain ⟨_, _, _, _, rfl⟩ := hostTurn_inProgress h hp rfl hn
    exact ⟨_, _, _, _, _, rfl⟩
  | service =>
    rcases runService_cases hn with ⟨he, -⟩ | ⟨-, rfl⟩
    · exact absurd ⟨rfl, he⟩ ht
    · exact stalls_refl _
  | env e =>
    have he : ¬ s.envEnabled e = true := fun he => ht ⟨rfl, he⟩
    obtain rfl := runEnv_next.1 hn
    rw [if_neg he]
    exact stalls_refl s

/-- A step of a transaction in progress stands still or carries it on. -/
theorem stalls_step {s s' : State} (h : s.Inv) (hp : s.status = .inProgress)
    (ha : ¬ Advances s) (hn : step s = .next s') : Stalls s s' := by
  rcases step_cases hn with ⟨-, rfl⟩ | ⟨t, rest, hagenda, ht⟩
  · exact stalls_refl _
  · have hdrop : Stalls s { s with agenda := rest } := ⟨_, _, _, _, _, rfl⟩
    refine stalls_trans hdrop (stalls_runTurn h hp (fun ⟨had, ho⟩ => ha ⟨t, had, ?_, ?_⟩) ht)
    · rw [hagenda]
      rfl
    · exact (offers_of_stalls hdrop t).symm.trans ho

/-- A step that carries a transaction on ends it or lowers its rank. -/
theorem rank_step_of_advances {s s' : State} (h : s.Inv) (hp : s.status = .inProgress)
    (ha : Advances s) (hn : step s = .next s') :
    s'.status ≠ .inProgress ∨ s'.rank < s.rank := by
  obtain ⟨t, had, hhead, ho⟩ := ha
  obtain ⟨rest, hagenda⟩ := List.head?_eq_some_iff.1 hhead
  rw [step_turn hagenda] at hn
  have hdrop : Stalls s { s with agenda := rest } := ⟨_, _, _, _, _, rfl⟩
  rw [← rank_of_stalls hdrop]
  exact rank_of_advances (s := { s with agenda := rest }) h hp had
    ((offers_of_stalls hdrop t).trans ho) hn

/-! ### Along a fair execution -/

section

variable {σ : Nat → State}

/-- The invariant holds all along an execution that begins with it. -/
theorem inv_execution (hσ : Execution σ) (h0 : (σ 0).Inv) (n : Nat) : (σ n).Inv :=
  execution_induction (P := State.Inv) hσ h0 (fun _ _ h => h) (fun _ _ h hn => inv_step h hn) n

/-- Until something carries it on, a transaction in progress stands still. -/
theorem stalls_until (hσ : Execution σ) (h0 : (σ 0).Inv) {n k : Nat}
    (hp : (σ n).status = .inProgress) (hno : ∀ j < k, ¬ Advances (σ (n + j))) :
    Stalls (σ n) (σ (n + k)) := by
  induction k with
  | zero => exact stalls_refl _
  | succ k ih =>
    have hk := ih fun j hj => hno j (Nat.lt_succ_of_lt hj)
    obtain ⟨s', agenda, hn, he⟩ := hσ (n + k)
    have hpk := (status_of_stalls hk).trans hp
    have hstep := stalls_step (inv_execution hσ h0 (n + k)) hpk (hno k (Nat.lt_succ_self k)) hn
    rw [← Nat.add_assoc, he]
    exact stalls_trans (stalls_trans hk hstep) ⟨_, _, _, _, _, rfl⟩

/-- In a fair execution something carries a transaction in progress on: it always has a step, which
stays enabled while it stands still. -/
theorem advances_eventually (hσ : Execution σ) (h0 : (σ 0).Inv) (hbg : BackgroundFair σ)
    (henv : EnvironmentFair σ) {n : Nat} (hp : (σ n).status = .inProgress) :
    ∃ k, Advances (σ (n + k)) := by
  by_contra hno
  have hno : ∀ k, ¬ Advances (σ (n + k)) := fun k hk => hno ⟨k, hk⟩
  obtain ⟨t, had, ho⟩ := inProgressIsNeverStuck (σ n) (inv_execution hσ h0 n) hp
  have hstays (m : Nat) (hm : n ≤ m) : (σ m).offers t = true := by
    obtain ⟨k, rfl⟩ := Nat.exists_eq_add_of_le hm
    exact (offers_of_stalls (stalls_until hσ h0 hp fun j _ => hno j) t).trans ho
  have htaken : ∃ m, n ≤ m ∧ Advances (σ m) := by
    cases t with
    | hostWrite _ _ | hostRead _ => cases had
    | service =>
      obtain ⟨m, hm, htake⟩ := hbg n hstays
      exact ⟨m, hm, .service, rfl, htake⟩
    | env e =>
      obtain ⟨m, e', hm, -, htake⟩ := henv n e hstays
      exact ⟨m, hm, .env e', rfl, htake⟩
  obtain ⟨m, hm, ha⟩ := htaken
  obtain ⟨k, rfl⟩ := Nat.exists_eq_add_of_le hm
  exact hno k ha

/-- A step ends a transaction in progress in `Finished` or `Error`, or it stays in progress
(10_state.md R21). -/
theorem step_status_of_inProgress {s s' : State} (h : s.Inv) (hp : s.status = .inProgress)
    (hn : step s = .next s') :
    s'.status = .inProgress ∨ s'.status = .finished ∨ s'.status = .error := by
  rcases step_cases hn with ⟨-, rfl⟩ | ⟨t, rest, -, ht⟩
  · exact .inl hp
  · rcases runTurn_status (s := { s with agenda := rest }) h ht with hst | hst
    · exact .inl (hst.trans hp)
    · rw [show ({ s with agenda := rest } : State).status = .inProgress from hp] at hst
      generalize s'.status = st at hst ⊢
      cases hst
      · exact .inr (.inl rfl)
      · exact .inr (.inr rfl)

/-- In a fair execution a transaction in progress ends, or goes on at a lower rank. -/
theorem ends_or_rank_falls (hσ : Execution σ) (h0 : (σ 0).Inv) (hbg : BackgroundFair σ)
    (henv : EnvironmentFair σ) {n : Nat} (hp : (σ n).status = .inProgress) :
    ∃ m, n < m ∧ (((σ m).status = .finished ∨ (σ m).status = .error) ∨
      ((σ m).status = .inProgress ∧ (σ m).rank < (σ n).rank)) := by
  classical
  have hex := advances_eventually hσ h0 hbg henv hp
  have hstall := stalls_until hσ h0 hp fun j hj => Nat.find_min hex hj
  obtain ⟨s', agenda, hn, he⟩ := hσ (n + Nat.find hex)
  have hinv := inv_execution hσ h0 (n + Nat.find hex)
  have hpm := (status_of_stalls hstall).trans hp
  have hfalls := rank_step_of_advances hinv hpm (Nat.find_spec hex) hn
  have hagenda : Stalls s' (σ (n + Nat.find hex + 1)) := he ▸ ⟨_, _, _, _, _, rfl⟩
  refine ⟨n + Nat.find hex + 1, by omega, ?_⟩
  rw [status_of_stalls hagenda, rank_of_stalls hagenda, ← rank_of_stalls hstall]
  rcases step_status_of_inProgress hinv hpm hn with hst | hst
  · exact .inr ⟨hst, hfalls.resolve_left fun hne => hne hst⟩
  · exact .inl hst

/-- In a fair execution a transaction in progress ends: the rank cannot fall for ever. -/
theorem ends_eventually (hσ : Execution σ) (h0 : (σ 0).Inv) (hbg : BackgroundFair σ)
    (henv : EnvironmentFair σ) (n : Nat) (hp : (σ n).status = .inProgress) :
    ∃ m, n < m ∧ ((σ m).status = .finished ∨ (σ m).status = .error) := by
  induction hr : (σ n).rank using Nat.strong_induction_on generalizing n with
  | _ r ih =>
    obtain ⟨m, hm, hend | ⟨hpm, hlt⟩⟩ := ends_or_rank_falls hσ h0 hbg henv hp
    · exact ⟨m, hm, hend⟩
    · obtain ⟨m', hm', hend⟩ := ih _ (hr ▸ hlt) m hpm rfl
      exact ⟨m', hm.trans hm', hend⟩

end

/-! ### Without fairness of the environment -/

/-- With nothing scheduled and nothing pending, the instance may wait for ever, which is lawful where
no fairness of the environment is assumed (92_eei_decisions.md D28). -/
theorem waiting_lawful {s : State} (ha : s.agenda = []) (he : s.serviceEnabled = false)
    (hf : s.params.envFair = false) : LawfulExecution fun _ => s := by
  refine ⟨fun _ => ⟨s, s.agenda, step_idle ha, rfl⟩, fun n hs => ?_, fun ht => ?_⟩
  · exact absurd (he.symm.trans (hs n le_rfl)) (by decide)
  · exact absurd (hf.symm.trans ht) (by decide)

/-- Settles O58. -/
theorem transactionsEndUnderFairness : Obligations.TransactionsEndUnderFairness :=
  ⟨fun _ ⟨hσ, hbg, henv⟩ h0 hf n hp => ends_eventually hσ h0 hbg (henv hf) n hp,
    fun s _ hp he hf ha => ⟨fun _ => s, rfl, waiting_lawful ha he hf, fun _ => hp⟩⟩

end Sys2Proof.Proofs
end

section
/-! PROOFS. A pure write and a pure read from their start to `Finished` (42_service_tw.md R153,
20_memory.md R63): one phase on the wire, ended by its automatic stop condition and one `SERVICE`
step. Both are one development, in which the one moves no byte back and the other none out. -/

namespace Sys2Proof.Proofs

open Sys2Proof.Machine Sys2Proof.Laws

/-! ### The stages -/

/-- What a pure write or a pure read is to do, fixed at its start. -/
structure OnePhasePlan where
  /-- The wire log before the start. -/
  before : List WireEvent
  peer : BitVec 10
  /-- Whether the phase is a read. -/
  reads : Bool
  /-- The bytes to send, none in a read. -/
  out : List Byte
  /-- The number of bytes to receive, 0 in a write. -/
  backLength : BitVec 8
  /-- The stop conditions the engine had requested before the start. -/
  stops : Nat
  /-- The read buffer before the start. -/
  rbuf : Memory

/-- The stages of a pure write or a pure read that the peer does not reject. -/
inductive OnePhaseStage where
  | starting
  | moving
  | stopped
  | finished

/-- The `SERVICE` steps taken at a stage (42_service_tw.md R153): one completes. -/
def OnePhaseStage.services : OnePhaseStage → Nat
  | .starting | .moving | .stopped => 0
  | .finished => 1

namespace OnePhasePlan

variable (p : OnePhasePlan)

/-- The wire log with the address and the given bytes moved, all acknowledged. -/
def log (sent back : List Byte) : List WireEvent :=
  p.before ++ [.start p.peer p.reads true] ++ sent.map (fun b => .transmitted b true)
    ++ back.map (fun b => .received b)

/-- What holds at every stage before the transaction ends. -/
def Running (s : State) : Prop :=
  (s.status = .inProgress ∧ s.params.bus = .tw) ∧ s.direction ≠ .writeThenRead ∧
  s.readLength = p.backLength ∧ (s.hw.addr = p.peer ∧ s.hw.rxMode = p.reads) ∧
  s.stopCount = p.stops ∧ s.rbuf = p.rbuf

/-- The transaction is at a stage: where the wire is, and what it has seen. -/
def At : OnePhaseStage → State → Prop
  | .starting, s =>
    p.Running s ∧ s.hw.startReq = true ∧ s.hw.wp = .idle ∧ s.hw.txFifo = p.out ∧
      s.wireLog = p.before
  | .moving, s =>
    p.Running s ∧ s.hw.wp = .data ∧
      ∃ sent, sent ++ s.hw.txFifo = p.out ∧ s.wireLog = p.log sent s.hw.rxFifo
  | .stopped, s =>
    p.Running s ∧ s.hw.wp = .idle ∧ s.hw.startReq = false ∧ s.errLatched = false ∧
      s.wireLog = p.log p.out s.hw.rxFifo ++ [.stop]
  | .finished, s =>
    s.status = .finished ∧ s.stopCount = p.stops ∧
      ∃ back : List Byte, back.length = p.backLength.toNat ∧
        s.wireLog = p.log p.out back ++ [.stop] ∧ s.rbuf = stored p.rbuf 0 back

/-- After `k` `SERVICE` steps the transaction is at a stage that takes `k`, or the peer has rejected
it. -/
def Reached (k : Nat) (s : State) : Prop :=
  failing s ∨ ∃ g : OnePhaseStage, p.At g s ∧ g.services = k

section

variable {p} {s : State}

theorem log_sent (sent : List Byte) (b : Byte) :
    p.log sent [] ++ [.transmitted b true] = p.log (sent ++ [b]) [] := by
  simp [log]

theorem log_received (sent back : List Byte) (b : Byte) :
    p.log sent back ++ [.received b] = p.log sent (back ++ [b]) := by
  simp [log]

/-- While the transaction runs, the wire is at a phase of the invariant. -/
theorem phase_of_running (h : s.Inv) (hr : p.Running s) : twPhase s := by
  obtain ⟨⟨hp, hb⟩, -⟩ := hr
  exact inv_twPhase h hb hp

/-! ### The environment -/

/-- The address is answered (44_adapter_contract.md R184). -/
theorem reached_envApply_of_starting {e : EnvStep} (h : s.Inv) (ha : p.At .starting s)
    (he : s.envEnabled e = true) : p.Reached 0 (s.envApply e) := by
  obtain ⟨hr, hreq, hwp, htx, hlog⟩ := ha
  have hph := phase_of_running h hr
  have ⟨⟨hp, hb⟩, hd, hl, ⟨hpe, hm⟩, hkept⟩ := hr
  obtain ⟨-, -, -, -, -, -, -, hrx⟩ : s.twStartPending :=
    (phase_of_startReq hph hreq).resolve_right fun ⟨hhold, _⟩ => by simp [hwp] at hhold
  obtain ⟨ack, t, rfl⟩ := env_of_startReq hb hph hreq he
  cases ack with
  | false => exact .inl (.inr rfl)
  | true =>
    refine .inr ⟨.moving, ⟨⟨⟨hp, hb⟩, hd, hl, ⟨hpe, hm⟩, hkept⟩, rfl, [], htx, ?_⟩, rfl⟩
    simp [State.envApply, State.envStart, log, hwp, hlog, hpe, hm, hrx]

/-- A byte is sent and acknowledged or rejected (44_adapter_contract.md R186). -/
theorem reached_envTx {ack : Bool} (h : s.Inv) (ha : p.At .moving s)
    (he : s.envEnabled (.tx ack) = true) : p.Reached 0 (s.envTx ack) := by
  obtain ⟨hr, hwp, sent, hout, hlog⟩ := ha
  obtain ⟨-, -, hm, -, hne⟩ := of_decide_eq_true he
  obtain ⟨-, -, -, -, -, -, hsend, -⟩ := moving_of_data (phase_of_running h hr) hwp
  obtain ⟨-, hrx⟩ := hsend hm
  obtain ⟨v, rest, htx⟩ := List.exists_cons_of_length_pos hne
  rw [envTx_eq ack htx]
  cases ack with
  | false => exact .inl (.inr rfl)
  | true =>
    refine .inr ⟨.moving, ⟨hr, hwp, sent ++ [v], ?_, ?_⟩, rfl⟩
    · simpa [htx] using hout
    · simp only [hlog, hrx, log_sent]

/-- A byte is received (44_adapter_contract.md R187). -/
theorem reached_envRx {b : Byte} (ha : p.At .moving s) : p.Reached 0 (s.envRx b) := by
  obtain ⟨hr, hwp, sent, hout, hlog⟩ := ha
  refine .inr ⟨.moving, ⟨hr, hwp, sent, hout, ?_⟩, rfl⟩
  simp only [envRx_eq, hlog, log_received]

/-- With all bytes moved the phase ends with its automatic stop condition
(44_adapter_contract.md R189). -/
theorem reached_envPhaseEnd {linger : Bool} (h : s.Inv) (ha : p.At .moving s)
    (he : s.envEnabled (.phaseEnd linger) = true) : p.Reached 0 (s.envPhaseEnd linger) := by
  obtain ⟨hr, hwp, sent, hout, hlog⟩ := ha
  obtain ⟨-, -, hcount⟩ := of_decide_eq_true he
  obtain ⟨-, hreq, -, -, herr, -, hsend, hrecv⟩ := moving_of_data (phase_of_running h hr) hwp
  have ⟨⟨hp, hb⟩, hd, _⟩ := hr
  obtain ⟨-, -, -, -, has, -⟩ := inv_twRunning h hb hp
  have hauto : s.hw.autoStop = true := by
    by_contra hf
    exact hd (has.1 (by simpa using hf)).1
  have htx : s.hw.txFifo = [] := by
    cases hm : s.hw.rxMode with
    | true => exact (hrecv hm).2
    | false =>
      have := (hsend hm).1
      exact List.eq_nil_of_length_eq_zero (by omega)
  have hall : sent = p.out := by simpa [htx] using hout
  rw [envPhaseEnd_stop linger hauto]
  exact .inr ⟨.stopped, ⟨hr, rfl, hreq, herr, by rw [hlog, hall]⟩, rfl⟩

/-- An event takes the transaction to a stage that takes as many `SERVICE` steps, or the peer rejects
it. -/
theorem reached_envApply {g : OnePhaseStage} {e : EnvStep} (h : s.Inv)
    (hp : s.status = .inProgress) (ha : p.At g s) (he : s.envEnabled e = true) :
    p.Reached g.services (s.envApply e) := by
  cases g with
  | starting => exact reached_envApply_of_starting h ha he
  | moving =>
    have ⟨hr, hwp, _⟩ := ha
    have hmove := moving_of_data (phase_of_running h hr) hwp
    have ⟨⟨_, hb⟩, _⟩ := hr
    cases hm : s.hw.rxMode with
    | false =>
      rcases env_of_sending hb hmove hm he with ⟨ack, rfl⟩ | ⟨linger, rfl⟩
      · exact reached_envTx h ha he
      · exact reached_envPhaseEnd h ha he
    | true =>
      rcases env_of_receiving hb hmove hm he with ⟨b, rfl⟩ | ⟨linger, rfl⟩
      · exact reached_envRx ha
      · exact reached_envPhaseEnd h ha he
  | stopped =>
    obtain ⟨hr, hwp, hreq, hrest⟩ := ha
    have hstop := stopped_of_idle (phase_of_running h hr) hwp hreq
    have ⟨⟨_, hb⟩, _⟩ := hr
    obtain rfl := env_of_stopped hb hstop he
    exact .inr ⟨.stopped, ⟨hr, hwp, hreq, hrest⟩, rfl⟩
  | finished =>
    obtain ⟨hf, -⟩ := ha
    exact absurd (hp.symm.trans hf) (by decide)

/-! ### The background -/

/-- The stop condition is serviced: the received bytes are drained in order and the transaction is
`Finished` (42_service_tw.md R149, R152). -/
theorem at_finished_serviceTw (h : s.Inv) (ha : p.At .stopped s) :
    p.At .finished (serviceTw s) := by
  obtain ⟨hr, hwp, hreq, herr, hlog⟩ := ha
  obtain ⟨-, -, hna, -, -, hsd, -, hdone⟩ := stopped_of_idle (phase_of_running h hr) hwp hreq
  obtain ⟨hlen, -⟩ := hdone herr
  obtain ⟨⟨hp, hb⟩, -, hl, -, hst, hbuf⟩ := hr
  obtain ⟨⟨-, hist⟩, ⟨-, hri⟩, -⟩ := inv_twRunning h hb hp
  have hN : nackPending s = false := by simp [nackPending, hna]
  have hS : stopPending s = true := by simp [stopPending, hist, hsd]
  have hR : requestsStop s = false := by simp [requestsStop, hN]
  have hall : s.drainCount = s.hw.rxFifo.length := by simp [State.drainCount, hri, hlen]
  rw [serviceTw_eq]
  simp only [hN, hS, hR, herr, hall, hri, List.take_length]
  exact ⟨rfl, hst, s.hw.rxFifo, by rw [hlen, hl], hlog, by rw [hbuf]⟩

/-- A `SERVICE` step completes the transaction: there is an event to service after the stop
condition alone. -/
theorem reached_service {g : OnePhaseStage} {t : State} (h : s.Inv) (ha : p.At g s)
    (he : s.serviceEnabled = true) (hn : service s = .next t) :
    p.Reached (g.services + 1) t := by
  have no_event (hr : p.Running s) (hw : s.hw.startReq = true ∨ s.hw.wp = .data) :
      p.Reached (g.services + 1) t := by
    have hph := phase_of_running h hr
    obtain ⟨⟨-, hb⟩, -⟩ := hr
    exact absurd ((no_service_before_event hb hph hw).symm.trans he) (by decide)
  cases g with
  | starting =>
    obtain ⟨hr, hreq, -⟩ := ha
    exact no_event hr (.inl hreq)
  | moving =>
    obtain ⟨hr, hwp, -⟩ := ha
    exact no_event hr (.inr hwp)
  | stopped =>
    have ⟨⟨⟨_, hb⟩, _⟩, _⟩ := ha
    exact .inr ⟨.finished, eq_serviceTw hb hn ▸ at_finished_serviceTw h ha, rfl⟩
  | finished =>
    obtain ⟨hf, -⟩ := ha
    exact absurd ((inProgress_of_serviceEnabled h he).symm.trans hf) (by decide)

/-! ### The whole run -/

/-- Every existing step of a transaction in progress carries it on, and only `SERVICE` counts. -/
theorem reached_runTurn {t : Turn} {k : Nat} {s' : State} (h : s.Inv) (hp : s.status = .inProgress)
    (ho : s.offers t = true) (hn : runTurn t s = .next s') (ha : p.Reached k s) :
    p.Reached (k + [t].count .service) s' := by
  rcases ha with hf | ⟨g, ha, rfl⟩
  · exact .inl (failing_runTurn h hp hf hn)
  cases t with
  | hostWrite _ _ | hostRead _ =>
    obtain ⟨_, _, _, _, rfl⟩ := hostTurn_inProgress h hp rfl hn
    refine .inr ⟨g, ?_, rfl⟩
    cases g <;> exact ha
  | service =>
    rcases runService_cases hn with ⟨he, hx⟩ | ⟨hno, -⟩
    · exact reached_service h ha he hx
    · exact absurd (hno.symm.trans ho) (by decide)
  | env e =>
    have he : s.envEnabled e = true := ho
    obtain rfl := runEnv_next.1 hn
    rw [if_pos he]
    exact reached_envApply h hp ha he

/-- A run from the first stage to `Finished` is at the last stage, after one `SERVICE` step. -/
theorem at_finished_of_run {ts : List Turn} {t u : State} (h : t.Inv) (ha : p.At .starting t)
    (hr : TransactionRun ts t u) (hs : u.status = .finished) :
    ts.count .service = 1 ∧ p.At .finished u := by
  have hrun : u.Inv ∧ p.Reached (0 + ts.count .service) u :=
    run_induction_count (P := fun k s => s.Inv ∧ p.Reached k s)
      (fun _ _ _ _ hp ho hn ⟨h, ha⟩ => ⟨inv_runTurn h hn, reached_runTurn h hp ho hn ha⟩) hr
      ⟨h, .inr ⟨.starting, ha, rfl⟩⟩
  obtain ⟨hu, hf | ⟨g, hg, hk⟩⟩ := hrun
  · exact absurd hf (not_failing_of_finished hu hs)
  cases g with
  | finished => exact ⟨by simpa [OnePhaseStage.services] using hk.symm, hg⟩
  | starting | moving | stopped =>
    obtain ⟨⟨⟨hp, -⟩, -⟩, -⟩ := hg
    exact absurd (hp.symm.trans hs) (by decide)

end

end OnePhasePlan

/-! ### The starts and the settlements -/

/-- The plan of the pure write or read that a start command leaves. -/
def onePhasePlanOf (s t : State) : OnePhasePlan where
  before := s.wireLog
  peer := t.peerAddress
  reads := t.hw.rxMode
  out := t.hw.txFifo
  backLength := t.readLength
  stops := s.stopCount
  rbuf := s.rbuf

/-- A two-wire start that responds 1 was accepted. -/
theorem admitsTwStart_of_rsp {s t : State} {d : Direction} {wl rl : BitVec 8} {a : BitVec 10}
    (hn : twStart d wl rl a s = .next t) (hrsp : t.rsp = 1#32) : s.admitsTwStart d wl rl := by
  by_contra had
  rw [twStart_rejected a had] at hn
  cases hn
  simp at hrsp

/-- An accepted `START.W` or `START.R` is at the first stage of its plan, its bytes in the transmit
FIFO in order (40_start.md R112). -/
theorem at_starting_of_twStart {s t : State} {d : Direction} {wl rl : BitVec 8} {a : BitVec 10}
    (h : s.Inv) (hd : d ≠ .writeThenRead) (hn : twStart d wl rl a s = .next t)
    (hrsp : t.rsp = 1#32) :
    (onePhasePlanOf s t).At .starting t ∧ t.hw.rxMode = decide (d = .read) ∧
      t.readLength = storedReadLength d rl ∧
      t.hw.txFifo = pushed s.params.base s.wbuf 0 s.draws (storedWriteLength d wl).toNat := by
  have had := admitsTwStart_of_rsp hn hrsp
  rw [twStart_accepted a had] at hn
  cases hn
  obtain ⟨hb, -, hidle, -⟩ := had
  obtain ⟨-, -, -, hwp⟩ := inv_quiet h (by simp [hidle])
  exact ⟨⟨⟨⟨rfl, hb⟩, hd, rfl, ⟨rfl, rfl⟩, rfl, rfl⟩, rfl, hwp, rfl, rfl⟩, rfl, rfl, rfl⟩

/-- Settles O53: the plan of a pure write sends the write-buffer bytes and receives none. -/
theorem pureWriteDelivers : Obligations.PureWriteDelivers := by
  intro s t u a n ts h hn hrsp hrun hs
  obtain ⟨hstart, hm, hl, hout⟩ := at_starting_of_twStart h (by decide) hn hrsp
  obtain ⟨hcount, -, hstops, back, hlen, hlog, hbuf⟩ :=
    OnePhasePlan.at_finished_of_run (inv_exec h hn) hstart hrun hs
  have hback : back = [] := by
    have hz : t.readLength.toNat = 0 := by rw [hl]; rfl
    exact List.eq_nil_of_length_eq_zero (hlen.trans hz)
  subst hback
  have hm : t.hw.rxMode = false := hm
  refine ⟨hcount, hstops, hbuf, t.hw.txFifo, ?_, ?_, fun k b hk hb => ?_⟩
  · rw [hout, pushed_length]
    rfl
  · simpa [OnePhasePlan.log, onePhasePlanOf, hm] using hlog
  · rw [hout]
    exact firstChunk_loaded hk hb

/-- Settles O54: the plan of a pure read sends no byte, and the received ones are stored from index 0
on. -/
theorem pureReadDelivers : Obligations.PureReadDelivers := by
  intro s t u a m ts h hn hrsp hrun hs
  obtain ⟨hstart, hm, hl, hout⟩ := at_starting_of_twStart h (by decide) hn hrsp
  obtain ⟨hcount, -, hstops, back, hlen, hlog, hbuf⟩ :=
    OnePhasePlan.at_finished_of_run (inv_exec h hn) hstart hrun hs
  have hlen : back.length = m.toNat := by
    rw [hlen]
    exact congrArg BitVec.toNat hl
  have hm : t.hw.rxMode = true := hm
  have hout : t.hw.txFifo = [] := hout
  have hlt := m.isLt
  refine ⟨hcount, hstops, back, hlen, ?_, fun k hk => ?_⟩
  · simpa [OnePhasePlan.log, onePhasePlanOf, hm, hout] using hlog
  · rw [hbuf]
    simpa using stored_read_inside back (onePhasePlanOf s t).rbuf 0 k (by omega) (by simp; omega)

end Sys2Proof.Proofs
end

section
/-! PROOFS. The error path (42_service_tw.md R147, R153, R155): what a transaction is at between its
start and its end, with or without a rejection, what the wire has seen and how many `SERVICE` steps
it has taken. -/

namespace Sys2Proof.Proofs

open Sys2Proof.Machine Sys2Proof.Laws

/-! ### The stages -/

/-- Where a two-wire transaction is between its start and its end. -/
inductive CourseStage where
  /-- No rejection so far, and no stop condition. -/
  | clean
  /-- The automatic stop condition after a transaction without a rejection. -/
  | stopped
  /-- The peer has rejected the address or a byte, and `SERVICE` has not seen it yet. -/
  | rejected
  /-- The error is latched and the stop condition requested. -/
  | stopping
  /-- The stop condition after a rejection. -/
  | released
  | finished
  | failed

/-- The wire has seen a rejection, no received byte and no stop condition. -/
def RejectedLog (l : List WireEvent) : Prop :=
  (∃ x ∈ l, x.isNack = true) ∧ (∀ x ∈ l, x.isReceived = false) ∧ WireEvent.stop ∉ l

/-- The repeated starts on the wire. -/
def restarts (l : List WireEvent) : Nat := l.countP WireEvent.isRepeatedStart

theorem restarts_snoc (l : List WireEvent) (x : WireEvent) :
    restarts (l ++ [x]) = restarts l + if x.isRepeatedStart then 1 else 0 := by
  simp [restarts, List.countP_append, List.countP_singleton]

section

-- `o` is the state before the start.
variable (o : State)

/-- What holds of a transaction at every stage before it ends. -/
def CourseRuns (s : State) : Prop := s.status = .inProgress ∧ s.params.bus = .tw ∧ s.rbuf = o.rbuf

/-- A transaction that began in `o` is at a stage, with the events `l` on the wire since and `k`
`SERVICE` steps taken. -/
def AtCourse (k : Nat) (l : List WireEvent) (s : State) : CourseStage → Prop
  | .clean =>
    CourseRuns o s ∧ s.stopCount = o.stopCount ∧
      (s.hw.nack = false ∧ s.errLatched = false ∧ s.hw.stopDet = false) ∧
      (∀ x ∈ l, x.isNack = false) ∧ WireEvent.stop ∉ l ∧
      (s.hw.rxMode = false ∨ s.hw.startReq = true → ∀ x ∈ l, x.isReceived = false) ∧
      k = restarts l + if s.hw.startReq = true ∧ s.hw.wp = .hold then 1 else 0
  | .stopped =>
    CourseRuns o s ∧ (s.hw.nack = false ∧ s.errLatched = false ∧ s.hw.stopDet = true) ∧
      ∀ x ∈ l, x.isNack = false
  | .rejected =>
    CourseRuns o s ∧ s.stopCount = o.stopCount ∧ s.hw.nack = true ∧ RejectedLog l ∧
      k = restarts l
  | .stopping =>
    CourseRuns o s ∧ s.stopCount = o.stopCount + 1 ∧
      (s.errLatched = true ∧ s.hw.stopDet = false) ∧ RejectedLog l ∧ k = 1 + restarts l
  | .released =>
    CourseRuns o s ∧ s.stopCount = o.stopCount + 1 ∧
      (s.errLatched = true ∧ s.hw.stopDet = true) ∧
      ∃ l', l = l' ++ [.stop] ∧ RejectedLog l' ∧ k = 1 + restarts l'
  | .finished => s.status = .finished ∧ ∀ x ∈ l, x.isNack = false
  | .failed =>
    s.status = .error ∧ s.stopCount = o.stopCount + 1 ∧ s.rbuf = o.rbuf ∧ s.nextReadIndex = 0#8 ∧
      ∃ l', l = l' ++ [.stop] ∧ RejectedLog l' ∧ k = 2 + restarts l'

/-- After `k` `SERVICE` steps a transaction that began in `o` is at some stage. -/
def OnCourse (k : Nat) (s : State) : Prop :=
  ∃ l g, s.wireLog = o.wireLog ++ l ∧ AtCourse o k l s g

end

section

variable {o s : State} {k : Nat} {l : List WireEvent}

/-- An event that logs `x` continues the log of the transaction. -/
theorem log_snoc {x : WireEvent} (h : s.wireLog = o.wireLog ++ l) :
    s.wireLog ++ [x] = o.wireLog ++ (l ++ [x]) := by
  rw [h, List.append_assoc]

/-- A rejection is the first on the wire. -/
theorem rejectedLog_snoc {x : WireEvent} (hx : x.isNack = true) (hs : WireEvent.stop ∉ l)
    (hr : ∀ y ∈ l, y.isReceived = false) : RejectedLog (l ++ [x]) := by
  have hstop : x ≠ .stop := by rintro rfl; cases hx
  have hrecv : x.isReceived = false := by cases x <;> simp_all [WireEvent.isNack, WireEvent.isReceived]
  refine ⟨⟨x, by simp, hx⟩, ?_, by simp [hs, hstop.symm]⟩
  simpa [or_imp, forall_and, hrecv] using hr

/-- An event that is no rejection keeps the log without one. -/
theorem unrejected_snoc {x : WireEvent} (hl : ∀ y ∈ l, y.isNack = false)
    (hx : x.isNack = false) : ∀ y ∈ l ++ [x], y.isNack = false := by
  simpa [or_imp, forall_and, hx] using hl

/-! ### The environment -/

/-- The address is answered (44_adapter_contract.md R184). -/
theorem onCourse_envStart {ack t : Bool} (hlog : s.wireLog = o.wireLog ++ l)
    (ha : AtCourse o k l s .clean) (he : s.envEnabled (.start ack t) = true) :
    OnCourse o k (s.envStart ack t) := by
  obtain ⟨hr, hst, ⟨hna, herr, hsd⟩, hun, hstop, hrecv, hk⟩ := ha
  obtain ⟨-, hreq, -⟩ := of_decide_eq_true he
  have hrecv := hrecv (.inr hreq)
  have hcount (x : WireEvent)
      (hx : x = if s.hw.wp = .hold then .repeatedStart s.hw.addr s.hw.rxMode ack
        else .start s.hw.addr s.hw.rxMode ack) :
      k = restarts (l ++ [x]) ∧ x.isNack = !ack ∧ x.isReceived = false ∧ x ≠ .stop := by
    rw [restarts_snoc, hk, hx]
    by_cases hwp : s.hw.wp = .hold
    · simp [hwp, hreq, WireEvent.isRepeatedStart, WireEvent.isNack, WireEvent.isReceived]
    · simp [hwp, WireEvent.isRepeatedStart, WireEvent.isNack, WireEvent.isReceived]
  obtain ⟨hk', hnack, hxr, hxs⟩ := hcount _ rfl
  rw [envStart_eq]
  cases ack with
  | true =>
    exact ⟨_, .clean, log_snoc hlog, hr, hst, ⟨hna, by simpa using herr, hsd⟩,
      unrejected_snoc hun hnack, by simp [hstop, hxs.symm],
      fun _ => by simpa [or_imp, forall_and, hxr] using hrecv, by simpa using hk'⟩
  | false =>
    exact ⟨_, .rejected, log_snoc hlog, hr, hst, rfl, rejectedLog_snoc hnack hstop hrecv, hk'⟩

/-- A byte is sent and acknowledged or rejected (44_adapter_contract.md R186). -/
theorem onCourse_envTx {ack : Bool} (h : s.Inv) (hlog : s.wireLog = o.wireLog ++ l)
    (ha : AtCourse o k l s .clean) (he : s.envEnabled (.tx ack) = true) :
    OnCourse o k (s.envTx ack) := by
  obtain ⟨hr, hst, ⟨hna, herr, hsd⟩, hun, hstop, hrecv, hk⟩ := ha
  obtain ⟨hb, hwp, hm, -, hne⟩ := of_decide_eq_true he
  have ⟨hp, _⟩ := hr
  obtain ⟨-, hreq, -⟩ := moving_of_data (inv_twPhase h hb hp) hwp
  obtain ⟨v, rest, htx⟩ := List.exists_cons_of_length_pos hne
  have hrecv := hrecv (.inl hm)
  have hk' : k = restarts (l ++ [.transmitted v ack]) := by
    simp [restarts_snoc, hk, hreq, WireEvent.isRepeatedStart]
  rw [envTx_eq ack htx]
  cases ack with
  | true =>
    exact ⟨_, .clean, log_snoc hlog, hr, hst, ⟨hna, herr, hsd⟩, unrejected_snoc hun rfl,
      by simp [hstop], fun _ => by simpa [or_imp, forall_and, WireEvent.isReceived] using hrecv,
      by simpa [hreq] using hk'⟩
  | false =>
    exact ⟨_, .rejected, log_snoc hlog, hr, hst, rfl, rejectedLog_snoc rfl hstop hrecv, hk'⟩

/-- A byte is received, which no read phase without a rejection forbids
(44_adapter_contract.md R187). -/
theorem onCourse_envRx {b : Byte} (h : s.Inv) (hlog : s.wireLog = o.wireLog ++ l)
    (ha : AtCourse o k l s .clean) (he : s.envEnabled (.rx b) = true) :
    OnCourse o k (s.envRx b) := by
  obtain ⟨hr, hst, hflags, hun, hstop, -, hk⟩ := ha
  obtain ⟨hb, hwp, hm, -⟩ := of_decide_eq_true he
  have ⟨hp, _⟩ := hr
  obtain ⟨-, hreq, -⟩ := moving_of_data (inv_twPhase h hb hp) hwp
  refine ⟨_, .clean, log_snoc hlog, hr, hst, hflags, unrejected_snoc hun rfl, by simp [hstop],
    fun hno => ?_, ?_⟩
  · have hno : s.hw.rxMode = false ∨ s.hw.startReq = true := hno
    simp [hm, hreq] at hno
  · rw [restarts_snoc]
    exact hk

/-- A phase ends: with the event the course stays clean, with the automatic stop condition it is
stopped (44_adapter_contract.md R188, R189). -/
theorem onCourse_envPhaseEnd {linger : Bool} (h : s.Inv) (hlog : s.wireLog = o.wireLog ++ l)
    (ha : AtCourse o k l s .clean) (he : s.envEnabled (.phaseEnd linger) = true) :
    OnCourse o k (s.envPhaseEnd linger) := by
  obtain ⟨hr, hst, ⟨hna, herr, hsd⟩, hun, hstop, hrecv, hk⟩ := ha
  obtain ⟨hb, hwp, -⟩ := of_decide_eq_true he
  have ⟨hp, _⟩ := hr
  obtain ⟨-, hreq, -⟩ := moving_of_data (inv_twPhase h hb hp) hwp
  cases hauto : s.hw.autoStop with
  | false =>
    rw [envPhaseEnd_event linger hauto]
    exact ⟨l, .clean, hlog, hr, hst, ⟨hna, herr, hsd⟩, hun, hstop, hrecv, by simpa [hreq] using hk⟩
  | true =>
    rw [envPhaseEnd_stop linger hauto]
    exact ⟨_, .stopped, log_snoc hlog, hr, ⟨hna, herr, rfl⟩, unrejected_snoc hun rfl⟩

/-- An event of a transaction without a rejection or a stop condition. -/
theorem onCourse_envApply_of_clean {e : EnvStep} (h : s.Inv) (hlog : s.wireLog = o.wireLog ++ l)
    (ha : AtCourse o k l s .clean) (he : s.envEnabled e = true) : OnCourse o k (s.envApply e) := by
  have ⟨⟨hp, hb, _⟩, _, ⟨_, herr, hsd⟩, _⟩ := ha
  have hph := inv_twPhase h hb hp
  cases e with
  | start ack t => exact onCourse_envStart hlog ha he
  | tx ack => exact onCourse_envTx h hlog ha he
  | rx b => exact onCourse_envRx h hlog ha he
  | phaseEnd linger => exact onCourse_envPhaseEnd h hlog ha he
  | stop linger =>
    obtain ⟨-, hsr, -⟩ := of_decide_eq_true he
    obtain ⟨-, -, -, -, -, -, -, hlatched, -⟩ := stopping_of_stopReq hph hsr
    exact absurd (herr.symm.trans hlatched) (by decide)
  | busyRel =>
    obtain ⟨-, hwp, -, hreq⟩ := of_decide_eq_true he
    obtain ⟨-, -, -, -, -, hset, -⟩ := stopped_of_idle hph hwp hreq
    exact absurd (hsd.symm.trans hset) (by decide)
  | xchg b => simp [State.envEnabled, hb] at he

/-- A rejection not yet serviced is flagged in the phase that waits for its service alone. -/
theorem rejected_of_nack (h : twPhase s) (hna : s.hw.nack = true) : s.twRejected := by
  rcases h with h | h | h | h | h | h | h
  case inr.inr.inr.inl => exact h
  all_goals simp_all

/-- With the error latched and no stop condition made, one is requested. -/
theorem stopping_of_errLatched (h : twPhase s) (herr : s.errLatched = true)
    (hsd : s.hw.stopDet = false) : s.twStopping := by
  rcases h with h | h | h | h | h | h | h
  case inr.inr.inr.inr.inr.inl => exact h
  all_goals simp_all

/-- The stop-detected signal is up after the stop condition alone. -/
theorem stopped_of_stopDet (h : twPhase s) (hsd : s.hw.stopDet = true) : s.twStopped := by
  rcases h with h | h | h | h | h | h | h
  case inr.inr.inr.inr.inr.inr => exact h
  all_goals simp_all

/-- Between a rejection and its service the wire waits: no event comes. -/
theorem no_env_of_rejected (e : EnvStep) (hb : s.params.bus = .tw) (h : s.twRejected) :
    s.envEnabled e = false := by
  obtain ⟨hwp, hreq, -, -, -, hsr, -⟩ := h
  cases e <;> simp [State.envEnabled, hwp, hreq, hsr, hb]

/-- With the stop condition requested, it is the one event to come. -/
theorem env_of_stopping {e : EnvStep} (hb : s.params.bus = .tw) (h : s.twStopping)
    (he : s.envEnabled e = true) : ∃ linger, e = .stop linger := by
  obtain ⟨hwp, hreq, -⟩ := h
  cases e with
  | stop linger => exact ⟨linger, rfl⟩
  | start _ _ => simp [State.envEnabled, hreq] at he
  | tx _ | rx _ | phaseEnd _ | busyRel => simp [State.envEnabled, hwp] at he
  | xchg _ => simp [State.envEnabled, hb] at he

/-- An event keeps a transaction on its course, whatever the peer answers. -/
theorem onCourse_envApply {g : CourseStage} {e : EnvStep} (h : s.Inv) (hp : s.status = .inProgress)
    (hlog : s.wireLog = o.wireLog ++ l) (ha : AtCourse o k l s g) (he : s.envEnabled e = true) :
    OnCourse o k (s.envApply e) := by
  cases g with
  | clean => exact onCourse_envApply_of_clean h hlog ha he
  | stopped =>
    have ⟨⟨_, hb, _⟩, ⟨_, _, hsd⟩, _⟩ := ha
    obtain rfl := env_of_stopped hb (stopped_of_stopDet (inv_twPhase h hb hp) hsd) he
    exact ⟨l, .stopped, hlog, ha⟩
  | rejected =>
    obtain ⟨⟨-, hb, -⟩, -, hna, -⟩ := ha
    have hno := no_env_of_rejected e hb (rejected_of_nack (inv_twPhase h hb hp) hna)
    exact absurd (hno.symm.trans he) (by decide)
  | stopping =>
    obtain ⟨hr, hst, ⟨herr, hsd⟩, hrej, hk⟩ := ha
    have ⟨_, hb, _⟩ := hr
    obtain ⟨linger, rfl⟩ :=
      env_of_stopping hb (stopping_of_errLatched (inv_twPhase h hb hp) herr hsd) he
    exact ⟨_, .released, log_snoc hlog, hr, hst, ⟨herr, rfl⟩, l, rfl, hrej, hk⟩
  | released =>
    have ⟨⟨_, hb, _⟩, _, ⟨_, hsd⟩, _⟩ := ha
    obtain rfl := env_of_stopped hb (stopped_of_stopDet (inv_twPhase h hb hp) hsd) he
    exact ⟨l, .released, hlog, ha⟩
  | finished =>
    obtain ⟨hf, -⟩ := ha
    exact absurd (hp.symm.trans hf) (by decide)
  | failed =>
    obtain ⟨hf, -⟩ := ha
    exact absurd (hp.symm.trans hf) (by decide)

/-! ### The background -/

/-- The end of a write phase is serviced: the repeated start is requested
(42_service_tw.md R148). -/
theorem onCourse_serviceTw_of_clean (h : s.Inv) (hlog : s.wireLog = o.wireLog ++ l)
    (ha : AtCourse o k l s .clean) (he : s.serviceEnabled = true) :
    OnCourse o (k + 1) (serviceTw s) := by
  obtain ⟨hr, hst, ⟨hna, herr, hsd⟩, hun, hstop, hrecv, hk⟩ := ha
  have ⟨hp, hb, _⟩ := hr
  have hN : nackPending s = false := by simp [nackPending, hna]
  have hS : stopPending s = false := by simp [stopPending, hsd]
  have hT : tcPending s = true := by
    simpa [hN, hS] using pending_of_serviceEnabled_tw hb he
  obtain ⟨hwp, hreq, -, -, -, hie, -, -, -, hrx, -⟩ :=
    phaseDone_of_tc (inv_twPhase h hb hp) (tcPending_iff.1 hT).2 hna
  obtain ⟨-, ⟨hwi, -⟩, -, -, has, -, -, htc, -⟩ := inv_twRunning h hb hp
  have hm : s.hw.rxMode = false := (has.1 (htc hie).1).2
  have hA : armsRead s = true := by simp [armsRead, hN, hT, herr]
  have hR : requestsStop s = false := by simp [requestsStop, hN]
  rw [serviceTw_flags (drainCount_of_empty hrx) (fillCount_of_written hwi) hS]
  refine ⟨l, .clean, hlog, hr, by simpa [hR] using hst, ⟨by simp [hna], by simp [herr, hN], hsd⟩,
    hun, hstop, fun _ => hrecv (.inl hm), ?_⟩
  simpa [hA, hwp, hreq] using hk

/-- A rejection is serviced: the error is latched and the one stop condition requested
(42_service_tw.md R147). -/
theorem onCourse_serviceTw_of_rejected (h : s.Inv) (hlog : s.wireLog = o.wireLog ++ l)
    (ha : AtCourse o k l s .rejected) : OnCourse o (k + 1) (serviceTw s) := by
  obtain ⟨hr, hst, hna, hrej, hk⟩ := ha
  have ⟨hp, hb, _⟩ := hr
  obtain ⟨⟨hin, -⟩, ⟨hwi, -⟩, -⟩ := inv_twRunning h hb hp
  obtain ⟨-, -, -, hissued, -⟩ := inv_twInv h hb
  obtain ⟨-, -, -, -, -, -, hsd, herr, hrx⟩ := rejected_of_nack (inv_twPhase h hb hp) hna
  have hN : nackPending s = true := nackPending_iff.2 ⟨hin, hna⟩
  have hR : requestsStop s = true := by simp [requestsStop, hN, hissued, herr]
  rw [serviceTw_flags (drainCount_of_empty hrx) (fillCount_of_written hwi)
    (by simp [stopPending, hsd])]
  refine ⟨l, .stopping, hlog, hr, by simpa [hR] using hst, ⟨by simp [hN], hsd⟩, hrej, ?_⟩
  rw [hk, Nat.add_comm]

/-- The stop condition is serviced: the transaction ends in `Finished`, or in `Error` with nothing
received (42_service_tw.md R152). -/
theorem onCourse_serviceTw_of_stopDet {g : CourseStage} (h : s.Inv)
    (hlog : s.wireLog = o.wireLog ++ l) (ha : AtCourse o k l s g)
    (hg : g = .stopped ∨ g = .released) : OnCourse o (k + 1) (serviceTw s) := by
  have hr : CourseRuns o s := by rcases hg with rfl | rfl <;> exact ha.1
  have ⟨hp, hb, hbuf⟩ := hr
  obtain ⟨⟨-, hist⟩, ⟨-, hri⟩, -⟩ := inv_twRunning h hb hp
  rcases hg with rfl | rfl
  · obtain ⟨-, ⟨hna, herr, hsd⟩, hun⟩ := ha
    have hS : stopPending s = true := stopPending_iff.2 ⟨hist, hsd⟩
    rw [serviceTw_eq]
    exact ⟨l, .finished, hlog, by simp [hS, herr, nackPending, hna], hun⟩
  · obtain ⟨-, hst, ⟨herr, hsd⟩, l', hl, hrej, hk⟩ := ha
    obtain ⟨-, -, hna, -, -, -, hrx, -⟩ := stopped_of_stopDet (inv_twPhase h hb hp) hsd
    have hS : stopPending s = true := stopPending_iff.2 ⟨hist, hsd⟩
    have hR : requestsStop s = false := by simp [requestsStop, nackPending, hna]
    have hD := drainCount_of_empty (hrx herr)
    rw [serviceTw_eq]
    refine ⟨l, .failed, hlog, by simp [hS, herr], by simpa [hR] using hst,
      by simpa [hD, stored] using hbuf, by simp [hD, hri], l', hl, hrej, ?_⟩
    omega

/-- A `SERVICE` step keeps a transaction on its course and counts one. -/
theorem onCourse_service {g : CourseStage} {t : State} (h : s.Inv)
    (hlog : s.wireLog = o.wireLog ++ l) (ha : AtCourse o k l s g) (he : s.serviceEnabled = true)
    (hn : service s = .next t) : OnCourse o (k + 1) t := by
  have hp := inProgress_of_serviceEnabled h he
  cases g with
  | clean =>
    have ⟨⟨_, hb, _⟩, _⟩ := ha
    exact eq_serviceTw hb hn ▸ onCourse_serviceTw_of_clean h hlog ha he
  | stopped =>
    have ⟨⟨_, hb, _⟩, _⟩ := ha
    exact eq_serviceTw hb hn ▸ onCourse_serviceTw_of_stopDet h hlog ha (.inl rfl)
  | rejected =>
    have ⟨⟨_, hb, _⟩, _⟩ := ha
    exact eq_serviceTw hb hn ▸ onCourse_serviceTw_of_rejected h hlog ha
  | stopping =>
    obtain ⟨⟨-, hb, -⟩, -, ⟨herr, hsd⟩, -⟩ := ha
    obtain ⟨-, -, -, hna, htf, -⟩ := stopping_of_errLatched (inv_twPhase h hb hp) herr hsd
    have := pending_of_serviceEnabled_tw hb he
    simp [nackPending, tcPending, stopPending, hna, htf, hsd] at this
  | released =>
    have ⟨⟨_, hb, _⟩, _⟩ := ha
    exact eq_serviceTw hb hn ▸ onCourse_serviceTw_of_stopDet h hlog ha (.inr rfl)
  | finished =>
    obtain ⟨hf, -⟩ := ha
    exact absurd (hp.symm.trans hf) (by decide)
  | failed =>
    obtain ⟨hf, -⟩ := ha
    exact absurd (hp.symm.trans hf) (by decide)

/-! ### The whole run on `TW` -/

/-- Every existing step keeps a transaction on its course, and only `SERVICE` counts. -/
theorem onCourse_runTurn {t : Turn} {s' : State} (h : s.Inv) (hp : s.status = .inProgress)
    (ho : s.offers t = true) (hn : runTurn t s = .next s') (ha : OnCourse o k s) :
    OnCourse o (k + [t].count .service) s' := by
  obtain ⟨l, g, hlog, ha⟩ := ha
  cases t with
  | hostWrite _ _ | hostRead _ =>
    obtain ⟨_, _, _, _, rfl⟩ := hostTurn_inProgress h hp rfl hn
    refine ⟨l, g, hlog, ?_⟩
    cases g <;> exact ha
  | service =>
    rcases runService_cases hn with ⟨he, hx⟩ | ⟨hno, -⟩
    · exact onCourse_service h hlog ha he hx
    · exact absurd (hno.symm.trans ho) (by decide)
  | env e =>
    have he : s.envEnabled e = true := ho
    obtain rfl := runEnv_next.1 hn
    rw [if_pos he]
    exact onCourse_envApply h hp hlog ha he

/-- The same along a whole run. -/
theorem onCourse_run {ts : List Turn} {u : State} (h : s.Inv) (hr : TransactionRun ts s u)
    (ha : OnCourse o k s) : u.Inv ∧ OnCourse o (k + ts.count .service) u :=
  run_induction_count (P := fun k s => s.Inv ∧ OnCourse o k s)
    (fun _ _ _ _ hp ho hn ⟨h, ha⟩ => ⟨inv_runTurn h hn, onCourse_runTurn h hp ho hn ha⟩) hr ⟨h, ha⟩

/-- An accepted two-wire start is on its course, with nothing on the wire yet (40_start.md R112). -/
theorem onCourse_twStart {t : State} {d : Direction} {wl rl : BitVec 8} {a : BitVec 10}
    (h : o.Inv) (hn : twStart d wl rl a o = .next t) (hrsp : t.rsp = 1#32) : OnCourse o 0 t := by
  have had := admitsTwStart_of_rsp hn hrsp
  rw [twStart_accepted a had] at hn
  cases hn
  obtain ⟨hb, -, hidle, -, ⟨-, -, hsd⟩, -⟩ := had
  obtain ⟨-, -, -, hwp⟩ := inv_quiet h (by simp [hidle])
  exact ⟨[], .clean, (List.append_nil _).symm, ⟨rfl, hb, rfl⟩, rfl, ⟨rfl, rfl, hsd⟩, nofun, nofun,
    nofun, by simp [hwp, restarts]⟩

end

/-! ### What an ended transaction shows -/

/-- What R155 says of a transaction that began in `o`, ended in `u`, and took `k` `SERVICE` steps. -/
def EndShows (o : State) (k : Nat) (u : State) : Prop :=
  ∃ log : List WireEvent,
    u.wireLog = o.wireLog ++ log ∧
    (u.status = .error ↔ ∃ x ∈ log, x.isNack = true) ∧
    (u.status = .error →
      log.count .stop = 1 ∧ log.getLast? = some .stop ∧ u.stopCount = o.stopCount + 1 ∧
      u.rbuf = o.rbuf ∧ u.nextReadIndex = 0#8 ∧ (∀ x ∈ log, x.isReceived = false) ∧
      k = 2 + log.countP WireEvent.isRepeatedStart)

/-- A transaction that has not failed and saw no rejection shows what R155 says. -/
theorem endShows_of_unrejected {o u : State} {k : Nat} {l : List WireEvent}
    (hlog : u.wireLog = o.wireLog ++ l) (hs : u.status ≠ .error)
    (hun : ∀ x ∈ l, x.isNack = false) : EndShows o k u := by
  refine ⟨l, hlog, ⟨fun he => absurd he hs, fun ⟨x, hx, hnack⟩ => ?_⟩, fun he => absurd he hs⟩
  exact absurd ((hun x hx).symm.trans hnack) (by decide)

/-- A two-wire transaction that has ended shows what R155 says. -/
theorem endShows_of_onCourse {o u : State} {k : Nat} (hs : u.status ≠ .inProgress)
    (h : OnCourse o k u) : EndShows o k u := by
  obtain ⟨l, g, hlog, ha⟩ := h
  cases g with
  | clean | stopped | rejected | stopping | released =>
    obtain ⟨⟨hp, -⟩, -⟩ := ha
    exact absurd hp hs
  | finished =>
    obtain ⟨hf, hun⟩ := ha
    exact endShows_of_unrejected hlog (by simp [hf]) hun
  | failed =>
    obtain ⟨hf, hst, hbuf, hidx, l', rfl, ⟨⟨x, hx, hnack⟩, hrecv, hstop⟩, hk⟩ := ha
    refine ⟨_, hlog, ⟨fun _ => ⟨x, by simp [hx], hnack⟩, fun _ => hf⟩, fun _ =>
      ⟨?_, by simp, hst, hbuf, hidx, ?_, ?_⟩⟩
    · rw [List.count_append, List.count_eq_zero.2 hstop]
      rfl
    · simpa [or_imp, forall_and, WireEvent.isReceived] using hrecv
    · rw [hk, ← restarts, restarts_snoc]
      rfl

/-! ### `FW`, where nothing is rejected -/

/-- The log of an `FW` transfer that began in `o` holds no rejection (43_service_fw.md R168). -/
def Unrejected (o s : State) : Prop :=
  s.params.bus = .fw ∧ ∃ l, s.wireLog = o.wireLog ++ l ∧ ∀ x ∈ l, x.isNack = false

/-- An exchange is no rejection, nor is the release of the peer select. -/
theorem unrejected_runTurn {o s s' : State} {t : Turn} (h : s.Inv) (hp : s.status = .inProgress)
    (hn : runTurn t s = .next s') (hu : Unrejected o s) : Unrejected o s' := by
  have ⟨hb, l, hlog, hun⟩ := hu
  cases t with
  | hostWrite _ _ | hostRead _ =>
    obtain ⟨_, _, _, _, rfl⟩ := hostTurn_inProgress h hp rfl hn
    exact hu
  | service =>
    rcases runService_cases hn with ⟨-, hx⟩ | ⟨-, rfl⟩
    · obtain rfl := eq_serviceFw hb hx
      rw [serviceFw_eq]
      refine ⟨hb, _, (congrArg (· ++ _) hlog).trans (List.append_assoc ..), ?_⟩
      split
      · exact unrejected_snoc hun rfl
      · simpa using hun
    · exact hu
  | env e =>
    obtain rfl := runEnv_next.1 hn
    split
    next he =>
      cases e with
      | xchg b =>
        obtain ⟨-, hne, -⟩ := of_decide_eq_true he
        obtain ⟨v, rest, htx⟩ := List.exists_cons_of_length_pos hne
        simp only [State.envApply, envXchg_eq b htx]
        exact ⟨hb, _, log_snoc hlog, unrejected_snoc hun rfl⟩
      | start _ _ | tx _ | rx _ | phaseEnd _ | stop _ | busyRel =>
        simp [State.envEnabled, hb] at he
    next => exact hu

/-- An `XFER` that responds 1 was accepted. -/
theorem admitsXfer_of_rsp {s t : State} {n : BitVec 8} (hn : execXfer n s = .next t)
    (hrsp : t.rsp = 1#32) : s.admitsXfer n := by
  by_contra had
  rw [xfer_rejected had] at hn
  cases hn
  simp at hrsp

/-- An `FW` transfer that has ended shows what R155 says: there is no error. -/
theorem endShows_of_xfer {s t u : State} {n : BitVec 8} {ts : List Turn} {k : Nat} (h : s.Inv)
    (hn : execXfer n s = .next t) (hrsp : t.rsp = 1#32) (hr : TransactionRun ts t u) :
    EndShows s k u := by
  have had := admitsXfer_of_rsp hn hrsp
  have ht := inv_xfer h hn
  rw [xfer_accepted had] at hn
  cases hn
  obtain ⟨hb, -⟩ := had
  obtain ⟨hu, hbu, l, hlog, hun⟩ := run_induction (P := fun v => v.Inv ∧ Unrejected s v)
    (fun _ _ _ hp _ hn ⟨h, hu⟩ => ⟨inv_runTurn h hn, unrejected_runTurn h hp hn hu⟩) hr
    ⟨ht, hb, [.peerSelect true], rfl, by simp [WireEvent.isNack]⟩
  obtain ⟨-, -, hok, -⟩ := inv_fwInv hu hbu
  exact endShows_of_unrejected hlog hok hun

/-- Settles O55. -/
theorem errorPathReleasesBusOnce : Obligations.ErrorPathReleasesBusOnce := by
  intro s t u i ts h hi hn hrsp hrun hs
  have of_tw {d : Direction} {wl rl : BitVec 8} {a : BitVec 10}
      (hn' : twStart d wl rl a s = .next t) : EndShows s (ts.count .service) u := by
    obtain ⟨-, hc⟩ := onCourse_run (inv_exec h hn) hrun (onCourse_twStart h hn' hrsp)
    rw [Nat.zero_add] at hc
    exact endShows_of_onCourse hs hc
  obtain ⟨a, n, rfl⟩ | ⟨a, m, rfl⟩ | ⟨a, n, m, rfl⟩ | ⟨n, rfl⟩ := isStart_cases hi
  · exact of_tw hn
  · exact of_tw hn
  · exact of_tw hn
  · exact endShows_of_xfer h hn hrsp hrun

end Sys2Proof.Proofs
end

section
/-! PROOFS. A four-wire transfer from its start to `Finished` (43_service_fw.md R165 to R170): the
chunks it moves in, the exchanges on the wire, and what the two buffers have to do with them. -/

namespace Sys2Proof.Proofs

open Sys2Proof.Machine Sys2Proof.Laws

/-! ### Runs without a turn of some kind -/

/-- Induction over a run of turns that all have a property `Q`, with the `SERVICE` steps counted. -/
theorem run_induction_of_turns {P : Nat → State → Prop} {Q : Turn → Prop}
    (hstep : ∀ (t : Turn) (k : Nat) (s s' : State), Q t → s.status = .inProgress →
      s.offers t = true → runTurn t s = .next s' → P k s → P (k + [t].count .service) s')
    {ts : List Turn} {s u : State} (hr : TransactionRun ts s u) (hq : ∀ t ∈ ts, Q t) {k : Nat}
    (h : P k s) : P (k + ts.count .service) u := by
  induction hr generalizing k with
  | nil _ => exact h
  | cons t ts s s' u hp ho ht _ ih =>
    rw [← List.singleton_append, List.count_append, ← Nat.add_assoc]
    exact ih (fun x hx => hq x (List.mem_cons_of_mem _ hx))
      (hstep t k s s' (hq t List.mem_cons_self) hp ho ht h)

/-- A turn of the host that is no `WRBUF` leaves the write buffer (60_exceptions.md R225). -/
theorem hostTurn_wbuf {s s' : State} {t : Turn} (ht : t.advances = false)
    (hw : t.isWrBuf = false) (hn : runTurn t s = .next s') : s'.wbuf = s.wbuf := by
  cases t with
  | hostWrite a w =>
    obtain ⟨-, ⟨i, hdec, hx⟩ | ⟨-, rfl⟩⟩ := portWrite_next hn
    · obtain ⟨-, hkept, -⟩ := exec_kept hx
      refine hkept fun j b hi => ?_
      simp [Turn.isWrBuf, hdec, hi] at hw
    · rfl
  | hostRead a =>
    obtain ⟨-, rfl⟩ := portRead_next hn
    rfl
  | service | env _ => cases ht

/-! ### The bytes sent and the bytes received -/

/-- Every byte of `l` whose index the write buffer holds is the byte held there. -/
def Sends (m : Memory) (l : List Byte) : Prop :=
  ∀ (j : Nat) (b : Byte), j < l.length → m.read j = some b → l[j]? = some b

/-- The first `l.length` bytes of the read buffer are `l`. -/
def Holds (m : Memory) (l : List Byte) : Prop := ∀ j < l.length, m.read j = l[j]?

/-- A fill goes on where the bytes sent so far end. -/
theorem sends_append_pushed {base d k : Nat} {m : Memory} {i : BitVec 8} {l : List Byte}
    (h : Sends m l) (hi : l.length = i.toNat) (hw : i.toNat + k ≤ 256) :
    Sends m (l ++ pushed base m i d k) := by
  intro j b hj hb
  rw [List.length_append, pushed_length] at hj
  by_cases hlt : j < l.length
  · rw [List.getElem?_append_left hlt]
    exact h j b hlt hb
  · have hj' : i.toNat + (j - l.length) = j := by omega
    rw [List.getElem?_append_right (by omega), pushed_getElem? _ _ _ _ _ _ (by omega) hw, hj',
      sample_of_read _ hb]

/-- A drain goes on where the bytes stored so far end. -/
theorem holds_stored_append {m : Memory} {i : BitVec 8} {l bytes : List Byte} (h : Holds m l)
    (hi : l.length = i.toNat) (hw : i.toNat + bytes.length ≤ 256) :
    Holds (stored m i bytes) (l ++ bytes) := by
  intro j hj
  rw [List.length_append] at hj
  by_cases hlt : j < l.length
  · rw [List.getElem?_append_left hlt, stored_read_below _ _ _ _ (by omega) hw]
    exact h j hlt
  · have hread := stored_read_inside bytes m i (j - l.length) (by omega) hw
    rw [show i.toNat + (j - l.length) = j by omega] at hread
    rw [List.getElem?_append_right (by omega), hread]

/-! ### The stages of a transfer -/

section

-- `o` is the state before the start, `n` the length; `quiet` says that no `WRBUF` intervenes.
variable (o : State) (n : BitVec 8) (quiet : Prop)

/-- The wire log of a transfer with the given exchanges made. -/
def xferLog (xs : List (Byte × Byte)) : List WireEvent :=
  o.wireLog ++ [.peerSelect true] ++ xs.map (fun x => .exchanged x.1 x.2)

/-- After `k` `SERVICE` steps a transfer of `n` bytes is under way: `k + 1` chunks have been pushed,
`k` of them drained, and the exchanges so far account for the rest. -/
def XferRuns (k : Nat) (s : State) : Prop :=
  (s.status = .inProgress ∧ s.params = o.params ∧ s.params.bus = .fw) ∧ s.writeLength = n ∧
  s.fillRounds = o.fillRounds + (k + 1) ∧
  (s.nextWriteIndex.toNat = min n.toNat ((k + 1) * s.params.depth) ∧
    k * s.params.depth < n.toNat) ∧
  ∃ (xs : List (Byte × Byte)) (back : List Byte),
    s.wireLog = xferLog o xs ∧ xs.map Prod.snd = back ++ s.hw.rxFifo ∧
    back.length = s.nextReadIndex.toNat ∧ Holds s.rbuf back ∧
    (quiet → s.wbuf = o.wbuf ∧ Sends o.wbuf (xs.map Prod.fst ++ s.hw.txFifo))

/-- After `k` `SERVICE` steps a transfer of `n` bytes is `Finished`: it took `k` chunks, and every
byte has been exchanged and stored. -/
def XferDone (k : Nat) (s : State) : Prop :=
  s.status = .finished ∧ s.fillRounds = o.fillRounds + k ∧
  k = (n.toNat + o.params.depth - 1) / o.params.depth ∧
  ∃ xs : List (Byte × Byte),
    xs.length = n.toNat ∧ s.wireLog = xferLog o xs ++ [.peerSelect false] ∧
    Holds s.rbuf (xs.map Prod.snd) ∧ (quiet → Sends o.wbuf (xs.map Prod.fst))

end

section

variable {o s : State} {n : BitVec 8} {quiet : Prop} {k : Nat}

/-- As many chunks of `d` bytes as `n` bytes need (43_service_fw.md R170). -/
theorem chunks_eq {n d k : Nat} (hlt : k * d < n) (hle : n ≤ (k + 1) * d) :
    k + 1 = (n + d - 1) / d := by
  rw [Nat.succ_mul] at hle
  refine (Nat.div_eq_of_lt_le ?_ ?_).symm
  · rw [Nat.succ_mul]
    omega
  · rw [Nat.succ_mul, Nat.succ_mul]
    omega

/-- The bytes on the wire and in the transmit FIFO are those the write cursor has passed. -/
theorem sent_length (h : s.Inv) (hp : s.status = .inProgress) (hb : s.params.bus = .fw)
    {xs : List (Byte × Byte)} {back : List Byte} (hx : xs.map Prod.snd = back ++ s.hw.rxFifo)
    (hback : back.length = s.nextReadIndex.toNat) :
    xs.length + s.hw.txFifo.length = s.nextWriteIndex.toNat := by
  obtain ⟨-, -, hmoved, -⟩ := inv_fwRunning h hb hp
  have hlen := congrArg List.length hx
  simp only [List.length_map, List.length_append] at hlen
  omega

/-! ### The environment -/

/-- An exchange moves a byte out and a byte in (44_adapter_contract.md R193). -/
theorem xferRuns_envApply {e : EnvStep} (ha : XferRuns o n quiet k s)
    (he : s.envEnabled e = true) : XferRuns o n quiet k (s.envApply e) := by
  obtain ⟨hr, hw, hfr, hidx, xs, back, hlog, hx, hback, hold, hsend⟩ := ha
  have ⟨_, _, hb⟩ := hr
  cases e with
  | xchg b =>
    obtain ⟨-, hne, -⟩ := of_decide_eq_true he
    obtain ⟨v, rest, htx⟩ := List.exists_cons_of_length_pos hne
    simp only [State.envApply, envXchg_eq b htx]
    refine ⟨hr, hw, hfr, hidx, xs ++ [(v, b)], back, ?_, ?_, hback, hold, fun hq => ?_⟩
    · simp [hlog, xferLog]
    · simp [hx]
    · simpa [htx] using hsend hq
  | start _ _ | tx _ | rx _ | phaseEnd _ | stop _ | busyRel => simp [State.envEnabled, hb] at he

/-! ### The background -/

/-- After an enabled `SERVICE` on `FW` nothing remains exactly where the last chunk came back
(43_service_fw.md R169). -/
theorem remainingFw_eq_zero_iff (h : s.Inv) (hb : s.params.bus = .fw)
    (he : s.serviceEnabled = true) : remainingFw s = 0 ↔ s.nextWriteIndex = s.writeLength := by
  obtain ⟨-, -, -, hback⟩ := fw_chunk_back h hb he
  have hrem := remainingFw_toNat h hb he
  obtain ⟨-, hlen, -⟩ := inv_fwInv h hb
  have hlen := congrArg BitVec.toNat hlen
  have ⟨_, ⟨hw, _⟩, _⟩ := h
  rw [← BitVec.toNat_inj, ← BitVec.toNat_inj, hrem]
  simp only [BitVec.ofNat_eq_ofNat, BitVec.toNat_ofNat, Nat.zero_mod]
  omega

/-- The last chunk is serviced: the transfer is `Finished`. -/
theorem xferDone_serviceFw (h : s.Inv) (ha : XferRuns o n quiet k s)
    (he : s.serviceEnabled = true) (hlast : s.nextWriteIndex = s.writeLength) :
    XferDone o n quiet (k + 1) (serviceFw s) := by
  obtain ⟨⟨hp, hpar, hb⟩, hw, hfr, ⟨hidx, hlt⟩, xs, back, hlog, hx, hback, hold, hsend⟩ := ha
  obtain ⟨htx, hall, -, hmoved⟩ := fw_chunk_back h hb he
  have hfill : s.symmetricFillCount s.drainCount = 0 := by rw [fw_fill h hb he, hlast]; simp
  have hzero := (remainingFw_eq_zero_iff h hb he).2 hlast
  have hsent := sent_length h hp hb hx hback
  have hlastN : s.nextWriteIndex.toNat = n.toNat := by rw [hlast, hw]
  have hn := n.isLt
  rw [serviceFw_eq]
  simp only [hfill, hzero, if_true, Nat.lt_irrefl, if_false]
  simp only [hall, List.take_length]
  refine ⟨rfl, hfr, ?_, xs, ?_, congrArg (· ++ _) hlog, ?_, fun hq => ?_⟩
  · exact hpar ▸ chunks_eq hlt (by omega)
  · simp only [htx, List.length_nil] at hsent
    omega
  · rw [hx]
    exact holds_stored_append hold hback (by omega)
  · simpa [htx] using (hsend hq).2

/-- A chunk before the last is serviced: it is drained and the next one pushed. -/
theorem xferRuns_serviceFw (h : s.Inv) (ha : XferRuns o n quiet k s)
    (he : s.serviceEnabled = true) (hmore : s.nextWriteIndex ≠ s.writeLength) :
    XferRuns o n quiet (k + 1) (serviceFw s) := by
  obtain ⟨⟨hp, hpar, hb⟩, hw, hfr, ⟨hidx, hlt⟩, xs, back, hlog, hx, hback, hold, hsend⟩ := ha
  obtain ⟨htx, hall, -, hmoved⟩ := fw_chunk_back h hb he
  have hfill := fw_fill h hb he
  have hrem : ¬ remainingFw s = 0 := mt (remainingFw_eq_zero_iff h hb he).1 hmore
  have hsent := sent_length h hp hb hx hback
  have ⟨⟨_, _, hd1, _⟩, _⟩ := h
  have hn := n.isLt
  have hne : s.nextWriteIndex.toNat ≠ n.toNat := fun heq =>
    hmore (BitVec.eq_of_toNat_eq (by rw [heq, hw]))
  have hwN : s.writeLength.toNat = n.toNat := by rw [hw]
  have hpos : 0 < s.symmetricFillCount s.drainCount := by omega
  have hridx := index_add_toNat s.nextReadIndex s.drainCount (by omega)
  have hwidx := index_add_toNat s.nextWriteIndex (s.symmetricFillCount s.drainCount) (by omega)
  have hnext : s.nextWriteIndex.toNat + s.symmetricFillCount s.drainCount =
      min n.toNat ((k + 1 + 1) * s.params.depth) := by
    have hchunk := Nat.add_one_mul (k + 1) s.params.depth
    omega
  have hreach : (k + 1) * s.params.depth < n.toNat := by omega
  rw [serviceFw_eq]
  simp only [hrem, if_false, hpos, if_true]
  simp only [hall, List.take_length, List.drop_length, htx, List.nil_append, List.append_nil]
    at hridx hwidx hnext ⊢
  refine ⟨⟨hp, hpar, hb⟩, hw, congrArg (· + 1) hfr, ⟨hwidx.trans hnext, hreach⟩, xs,
    back ++ s.hw.rxFifo, hlog, ?_, ?_, ?_, fun hq => ?_⟩
  · rw [List.append_nil, hx]
  · rw [List.length_append, hback, hridx]
  · exact holds_stored_append hold hback (by omega)
  · obtain ⟨hbuf, hs⟩ := hsend hq
    rw [htx, List.append_nil] at hs
    refine ⟨hbuf, ?_⟩
    rw [hbuf]
    refine sends_append_pushed hs ?_ (by omega)
    simpa [htx] using hsent

/-! ### The whole run -/

/-- After `k` `SERVICE` steps a transfer is under way or `Finished`. -/
def XferReached (o : State) (n : BitVec 8) (quiet : Prop) (k : Nat) (s : State) : Prop :=
  XferRuns o n quiet k s ∨ XferDone o n quiet k s

/-- Every existing step carries a transfer on, and only `SERVICE` counts. -/
theorem xferReached_runTurn {t : Turn} {s' : State} (h : s.Inv) (hp : s.status = .inProgress)
    (hq : quiet → t.isWrBuf = false) (ho : s.offers t = true) (hn : runTurn t s = .next s')
    (ha : XferReached o n quiet k s) : XferReached o n quiet (k + [t].count .service) s' := by
  rcases ha with ha | ⟨hf, -⟩
  swap
  · exact absurd (hp.symm.trans hf) (by decide)
  cases t with
  | hostWrite _ _ | hostRead _ =>
    have hbuf (hquiet : quiet) := hostTurn_wbuf rfl (hq hquiet) hn
    obtain ⟨_, _, _, _, rfl⟩ := hostTurn_inProgress h hp rfl hn
    obtain ⟨hr, hw, hfr, hidx, xs, back, hlog, hx, hback, hold, hsend⟩ := ha
    exact .inl ⟨hr, hw, hfr, hidx, xs, back, hlog, hx, hback, hold, fun hquiet =>
      ⟨(hbuf hquiet).trans (hsend hquiet).1, (hsend hquiet).2⟩⟩
  | service =>
    rcases runService_cases hn with ⟨he, hx⟩ | ⟨hno, -⟩
    · have ⟨⟨_, _, hb⟩, _⟩ := ha
      obtain rfl := eq_serviceFw hb hx
      by_cases hlast : s.nextWriteIndex = s.writeLength
      · exact .inr (xferDone_serviceFw h ha he hlast)
      · exact .inl (xferRuns_serviceFw h ha he hlast)
    · exact absurd (hno.symm.trans ho) (by decide)
  | env e =>
    have he : s.envEnabled e = true := ho
    obtain rfl := runEnv_next.1 hn
    rw [if_pos he]
    exact .inl (xferRuns_envApply ha he)

/-- An accepted `XFER` has pushed its first chunk (40_start.md R116). -/
theorem xferRuns_start {t : State} (h : o.Inv) (hn : execXfer n o = .next t)
    (hrsp : t.rsp = 1#32) : XferRuns o n quiet 0 t := by
  have had := admitsXfer_of_rsp hn hrsp
  rw [xfer_accepted had] at hn
  cases hn
  obtain ⟨hb, -, -, -, hpos, -⟩ := had
  obtain ⟨⟨-, -, hd1, -⟩, -⟩ := h
  have hlt := n.isLt
  have hk : 0 < min n.toNat o.params.depth := by omega
  have hidx := index_ofNat_toNat (k := min n.toNat o.params.depth) (by omega)
  refine ⟨⟨rfl, rfl, hb⟩, rfl, by simp [hk], ⟨?_, (Nat.zero_mul _).symm ▸ hpos⟩, [], [], ?_, rfl, rfl, nofun,
    fun _ => ⟨rfl, ?_⟩⟩
  · simpa using hidx
  · simp [xferLog]
  · exact sends_append_pushed (l := []) nofun rfl (by simp; omega)

end

/-- Settles O51. -/
theorem fourWireChunkingIsCorrect : Obligations.FourWireChunkingIsCorrect := by
  intro s t u n ts h hn hrsp hrun hs
  obtain ⟨-, ⟨⟨hp, -⟩, -⟩ | ⟨-, hfr, hk, xs, hlen, hlog, hhold, hsend⟩⟩ :=
    run_induction_of_turns (k := 0)
      (P := fun k v => v.Inv ∧ XferReached s n (∀ x ∈ ts, x.isWrBuf = false) k v)
      (Q := fun x => (∀ x ∈ ts, x.isWrBuf = false) → x.isWrBuf = false)
      (fun _ _ _ _ hq hp ho hn ⟨h, ha⟩ =>
        ⟨inv_runTurn h hn, xferReached_runTurn h hp hq ho hn ha⟩)
      hrun (fun x hx hq => hq x hx) ⟨inv_exec h hn, .inl (xferRuns_start h hn hrsp)⟩
  · exact absurd (hp.symm.trans hs) (by decide)
  rw [Nat.zero_add] at hfr hk
  refine ⟨hk ▸ hfr, hk, xs, hlen, hlog, fun k hlt => ?_, fun hq k b hlt hb => ?_⟩
  · rw [hhold k (by simpa [hlen] using hlt), List.getElem?_map]
  · rw [← List.getElem?_map]
    exact hsend hq k b (by simpa [hlen] using hlt) hb

end Sys2Proof.Proofs
end
